-- ==== Sys2Proof/Word.lean ====
section
/-! DEFINITION. The word and the byte (00_scope.md R1). -/

namespace Sys2Proof

/-- "An unsigned 16-bit value; the universal unit of storage and arithmetic" (00_scope.md R1).
BitVec arithmetic wraps modulo 2^16, as R1 asks. -/
abbrev Word := BitVec 16

/-- Eight bits: the flags register (10_state.md R14), a console byte (46_io.md R202), half a word. -/
abbrev Byte := BitVec 8

end Sys2Proof
end

