-- ==== Sys2Proof/Syntax.lean ====
section
/-! DEFINITION. The instructions as data: one constructor of `Instr` for each of the 46 rows of spec/opcode_table.json
(30_encoding.md R76). Bits that the spec says are ignored on decode (30_encoding.md R85 d) have no field here. -/

namespace Sys2Proof

/-- The mode bit `m` of the opcodes that use it (30_encoding.md R72): the unsigned or the signed variant; for `RCF` and `RCT`
`signed` subtracts the offset. -/
inductive Mode
  | unsigned
  | signed
deriving DecidableEq, Repr

/-- What a register operand can name: the seven registers with a code, and the null register, which is no storage element
(10_state.md R10, R18; 30_encoding.md R80). -/
inductive Reg
  | null
  | g1
  | g2
  | g3
  | ct
  | cs
  | fl
  | sp
deriving DecidableEq, Repr

/-- The two banks a memory operand can name (30_encoding.md R74). -/
inductive DataBank
  | general
  | input
deriving DecidableEq, Repr

/-- "A resolved, positional reference produced by decoding" (30_encoding.md R83). -/
inductive Operand
  /-- A register operand. -/
  | reg (r : Reg)
  /-- A memory operand: bank and cell index. -/
  | mem (b : DataBank) (i : Word)
  /-- The internal literal, "engine-only, never produced by decoding user operands". -/
  | imm (v : Word)
deriving DecidableEq, Repr

/-- The 46 opcodes by mnemonic: the access-control key of the operand writes (20_memory.md R48). -/
inductive Opcode
  | inc
  | dec
  | add
  | sub
  | mul
  | div
  | adc
  | sbc
  | and
  | or
  | xor
  | not
  | shl
  | shr
  | rol
  | ror
  | bsw
  | cpy
  | mcp
  | icp
  | cmp
  | swp
  | rcf
  | rct
  | jmp
  | jz
  | je
  | jl
  | jg
  | jc
  | ji
  | jse
  | jsf
  | clz
  | clc
  | cla
  | push
  | pop
  | call
  | retv
  | retz
  | rdc
  | wrc
  | halt
  | nop
  | cip
deriving DecidableEq, Repr

/-- A decoded instruction. `m` stands where 30_encoding.md R72 gives the opcode two variants. -/
inductive Instr
  /-- `INC` (40_arithmetic.md R100). -/
  | inc (m : Mode) (o1 : Operand)
  /-- `DEC` (40_arithmetic.md R101). -/
  | dec (m : Mode) (o1 : Operand)
  /-- `ADD` (40_arithmetic.md R102). -/
  | add (m : Mode) (o1 o2 : Operand)
  /-- `SUB` (40_arithmetic.md R103). -/
  | sub (m : Mode) (o1 o2 : Operand)
  /-- `MUL` (40_arithmetic.md R104). -/
  | mul (m : Mode) (o1 o2 : Operand)
  /-- `DIV` (40_arithmetic.md R105). -/
  | div (m : Mode) (o1 o2 : Operand)
  /-- `ADC` (40_arithmetic.md R106). -/
  | adc (m : Mode) (o1 o2 : Operand)
  /-- `SBC` (40_arithmetic.md R107). -/
  | sbc (m : Mode) (o1 o2 : Operand)
  /-- `AND` (41_bitwise.md R120). -/
  | and (o1 o2 : Operand)
  /-- `OR` (41_bitwise.md R121). -/
  | or (o1 o2 : Operand)
  /-- `XOR` (41_bitwise.md R122). -/
  | xor (o1 o2 : Operand)
  /-- `NOT` (41_bitwise.md R123). -/
  | not (o1 : Operand)
  /-- `SHL` (41_bitwise.md R124). -/
  | shl (o1 o2 : Operand)
  /-- `SHR` (41_bitwise.md R125). -/
  | shr (m : Mode) (o1 o2 : Operand)
  /-- `ROL` (41_bitwise.md R126). -/
  | rol (o1 o2 : Operand)
  /-- `ROR` (41_bitwise.md R127). -/
  | ror (o1 o2 : Operand)
  /-- `BSW` (41_bitwise.md R128). -/
  | bsw (o1 : Operand)
  /-- `CPY` (42_data_movement.md R140). -/
  | cpy (o1 o2 : Operand)
  /-- `MCP` (42_data_movement.md R141). -/
  | mcp (o1 o2 o3 : Operand)
  /-- `ICP` (42_data_movement.md R142). -/
  | icp (o1 o2 : Operand)
  /-- `CMP` (42_data_movement.md R143). -/
  | cmp (m : Mode) (o1 o2 : Operand)
  /-- `SWP` (42_data_movement.md R144). -/
  | swp (o1 o2 : Operand)
  /-- `RCF` (42_data_movement.md R146). -/
  | rcf (m : Mode) (o1 o2 : Operand)
  /-- `RCT` (42_data_movement.md R147). -/
  | rct (m : Mode) (o1 o2 : Operand)
  /-- `JMP` (43_control_flow.md R161). -/
  | jmp
  /-- `JZ` (43_control_flow.md R162). -/
  | jz
  /-- `JE` (43_control_flow.md R163). -/
  | je
  /-- `JL` (43_control_flow.md R164). -/
  | jl
  /-- `JG` (43_control_flow.md R165). -/
  | jg
  /-- `JC` (43_control_flow.md R166). -/
  | jc
  /-- `JI` (43_control_flow.md R167). -/
  | ji
  /-- `JSE` (43_control_flow.md R168). -/
  | jse
  /-- `JSF` (43_control_flow.md R169). -/
  | jsf
  /-- `CLZ` (43_control_flow.md R170). -/
  | clz
  /-- `CLC` (43_control_flow.md R171). -/
  | clc
  /-- `CLA` (43_control_flow.md R172). -/
  | cla
  /-- `PUSH` (44_stack.md R182). -/
  | push (o1 : Operand)
  /-- `POP` (44_stack.md R183). -/
  | pop (o1 : Operand)
  /-- `CALL` (45_call_return.md R190). -/
  | call (o1 o2 o3 : Operand)
  /-- `RETV` (45_call_return.md R191). -/
  | retv
  /-- `RETZ` (45_call_return.md R192). -/
  | retz
  /-- `RDC` (46_io.md R200). -/
  | rdc (o1 : Operand)
  /-- `WRC` (46_io.md R201). -/
  | wrc (o1 : Operand)
  /-- `HALT` (47_misc.md R210). -/
  | halt
  /-- `NOP` (47_misc.md R211). -/
  | nop
  /-- `CIP` (47_misc.md R212). -/
  | cip (o1 : Operand)
deriving DecidableEq, Repr

/-- The opcode an instruction carries. -/
def Instr.opcode : Instr → Opcode
  | .inc _ _ => .inc
  | .dec _ _ => .dec
  | .add _ _ _ => .add
  | .sub _ _ _ => .sub
  | .mul _ _ _ => .mul
  | .div _ _ _ => .div
  | .adc _ _ _ => .adc
  | .sbc _ _ _ => .sbc
  | .and _ _ => .and
  | .or _ _ => .or
  | .xor _ _ => .xor
  | .not _ => .not
  | .shl _ _ => .shl
  | .shr _ _ _ => .shr
  | .rol _ _ => .rol
  | .ror _ _ => .ror
  | .bsw _ => .bsw
  | .cpy _ _ => .cpy
  | .mcp _ _ _ => .mcp
  | .icp _ _ => .icp
  | .cmp _ _ _ => .cmp
  | .swp _ _ => .swp
  | .rcf _ _ _ => .rcf
  | .rct _ _ _ => .rct
  | .jmp => .jmp
  | .jz => .jz
  | .je => .je
  | .jl => .jl
  | .jg => .jg
  | .jc => .jc
  | .ji => .ji
  | .jse => .jse
  | .jsf => .jsf
  | .clz => .clz
  | .clc => .clc
  | .cla => .cla
  | .push _ => .push
  | .pop _ => .pop
  | .call _ _ _ => .call
  | .retv => .retv
  | .retz => .retz
  | .rdc _ => .rdc
  | .wrc _ => .wrc
  | .halt => .halt
  | .nop => .nop
  | .cip _ => .cip

/-- The operands in slot order. -/
def Instr.operands : Instr → List Operand
  | .inc _ o1 => [o1]
  | .dec _ o1 => [o1]
  | .add _ o1 o2 => [o1, o2]
  | .sub _ o1 o2 => [o1, o2]
  | .mul _ o1 o2 => [o1, o2]
  | .div _ o1 o2 => [o1, o2]
  | .adc _ o1 o2 => [o1, o2]
  | .sbc _ o1 o2 => [o1, o2]
  | .and o1 o2 => [o1, o2]
  | .or o1 o2 => [o1, o2]
  | .xor o1 o2 => [o1, o2]
  | .not o1 => [o1]
  | .shl o1 o2 => [o1, o2]
  | .shr _ o1 o2 => [o1, o2]
  | .rol o1 o2 => [o1, o2]
  | .ror o1 o2 => [o1, o2]
  | .bsw o1 => [o1]
  | .cpy o1 o2 => [o1, o2]
  | .mcp o1 o2 o3 => [o1, o2, o3]
  | .icp o1 o2 => [o1, o2]
  | .cmp _ o1 o2 => [o1, o2]
  | .swp o1 o2 => [o1, o2]
  | .rcf _ o1 o2 => [o1, o2]
  | .rct _ o1 o2 => [o1, o2]
  | .jmp => []
  | .jz => []
  | .je => []
  | .jl => []
  | .jg => []
  | .jc => []
  | .ji => []
  | .jse => []
  | .jsf => []
  | .clz => []
  | .clc => []
  | .cla => []
  | .push o1 => [o1]
  | .pop o1 => [o1]
  | .call o1 o2 o3 => [o1, o2, o3]
  | .retv => []
  | .retz => []
  | .rdc o1 => [o1]
  | .wrc o1 => [o1]
  | .halt => []
  | .nop => []
  | .cip o1 => [o1]

/-- The mode an instruction's definition word carries: `unsigned` (bit clear, as the assembler writes it, 30_encoding.md R92) where
the opcode ignores the bit. -/
def Instr.mode : Instr → Mode
  | .inc m _ => m
  | .dec m _ => m
  | .add m _ _ => m
  | .sub m _ _ => m
  | .mul m _ _ => m
  | .div m _ _ => m
  | .adc m _ _ => m
  | .sbc m _ _ => m
  | .and _ _ => .unsigned
  | .or _ _ => .unsigned
  | .xor _ _ => .unsigned
  | .not _ => .unsigned
  | .shl _ _ => .unsigned
  | .shr m _ _ => m
  | .rol _ _ => .unsigned
  | .ror _ _ => .unsigned
  | .bsw _ => .unsigned
  | .cpy _ _ => .unsigned
  | .mcp _ _ _ => .unsigned
  | .icp _ _ => .unsigned
  | .cmp m _ _ => m
  | .swp _ _ => .unsigned
  | .rcf m _ _ => m
  | .rct m _ _ => m
  | .jmp => .unsigned
  | .jz => .unsigned
  | .je => .unsigned
  | .jl => .unsigned
  | .jg => .unsigned
  | .jc => .unsigned
  | .ji => .unsigned
  | .jse => .unsigned
  | .jsf => .unsigned
  | .clz => .unsigned
  | .clc => .unsigned
  | .cla => .unsigned
  | .push _ => .unsigned
  | .pop _ => .unsigned
  | .call _ _ _ => .unsigned
  | .retv => .unsigned
  | .retz => .unsigned
  | .rdc _ => .unsigned
  | .wrc _ => .unsigned
  | .halt => .unsigned
  | .nop => .unsigned
  | .cip _ => .unsigned

end Sys2Proof
end

