-- ==== Sys2Proof/WellFormed.lean ====
section
/-! DEFINITION. Which instruction terms a decoder can produce. The types exclude all but two ill-formed shapes: an operand that is
the engine's own literal (30_encoding.md R83), and a bank for the literal of `ICP`, whose bank bit is ignored
(30_encoding.md R85 d) and stands as `general`, as the assembler writes it (30_encoding.md R92). -/

namespace Sys2Proof

/-- A program's operand: a register or a cell, never the internal literal (30_encoding.md R83). -/
def Operand.wellFormed : Operand → Bool
  | .reg _ => true
  | .mem _ _ => true
  | .imm _ => false

/-- Whether the operand names the input bank. -/
def Operand.namesInput : Operand → Bool
  | .reg _ => false
  | .mem b _ => b == .input
  | .imm _ => false

/-- The literal of an `ICP` names no bank of its own (42_data_movement.md R142). -/
def Instr.literalPlain (i : Instr) : Bool :=
  !(i.opcode == .icp && (i.operands.drop 1).any Operand.namesInput)

/-- Every operand, in whichever slot, is one that decoding can produce. -/
def Instr.wellFormed (i : Instr) : Bool :=
  i.operands.all Operand.wellFormed && i.literalPlain

end Sys2Proof
end

