-- ==== Sys2Proof/Decode.lean ====
section
/-! DEFINITION. The encoding (30_encoding.md): the maps as tables, the decoder, total on any words or bytes, and after it
the encoder. Everything is a plain function on bit vectors that the kernel evaluates. -/

namespace Sys2Proof

/-! ## The maps -/

/-- One row of the opcode map (30_encoding.md R76). -/
structure OpRow where
  number : BitVec 9
  opcode : Opcode
  arity : Nat
deriving DecidableEq, Repr

/-- `OPMAP` and `ARITY`, the arithmetic rows (30_encoding.md R76). -/
def arithmeticRows : List OpRow :=
  [ ⟨0x010, .inc, 1⟩
  , ⟨0x011, .dec, 1⟩
  , ⟨0x012, .add, 2⟩
  , ⟨0x013, .sub, 2⟩
  , ⟨0x014, .mul, 2⟩
  , ⟨0x015, .div, 2⟩
  , ⟨0x016, .adc, 2⟩
  , ⟨0x017, .sbc, 2⟩ ]

/-- `OPMAP` and `ARITY`, the bitwise rows (30_encoding.md R76). -/
def bitwiseRows : List OpRow :=
  [ ⟨0x020, .and, 2⟩
  , ⟨0x021, .or, 2⟩
  , ⟨0x022, .xor, 2⟩
  , ⟨0x023, .not, 1⟩
  , ⟨0x024, .shl, 2⟩
  , ⟨0x025, .shr, 2⟩
  , ⟨0x026, .rol, 2⟩
  , ⟨0x027, .ror, 2⟩
  , ⟨0x028, .bsw, 1⟩ ]

/-- `OPMAP` and `ARITY`, the data movement rows (30_encoding.md R76). -/
def dataMovementRows : List OpRow :=
  [ ⟨0x030, .cpy, 2⟩
  , ⟨0x031, .mcp, 3⟩
  , ⟨0x032, .icp, 2⟩
  , ⟨0x033, .cmp, 2⟩
  , ⟨0x034, .swp, 2⟩
  , ⟨0x035, .rcf, 2⟩
  , ⟨0x036, .rct, 2⟩ ]

/-- `OPMAP` and `ARITY`, the control flow rows (30_encoding.md R76). -/
def controlFlowRows : List OpRow :=
  [ ⟨0x040, .jmp, 0⟩
  , ⟨0x041, .jz, 0⟩
  , ⟨0x042, .je, 0⟩
  , ⟨0x043, .jl, 0⟩
  , ⟨0x044, .jg, 0⟩
  , ⟨0x045, .jc, 0⟩
  , ⟨0x046, .ji, 0⟩
  , ⟨0x047, .jse, 0⟩
  , ⟨0x048, .jsf, 0⟩
  , ⟨0x049, .clz, 0⟩
  , ⟨0x04A, .clc, 0⟩
  , ⟨0x04B, .cla, 0⟩ ]

/-- `OPMAP` and `ARITY`, the stack, call and return, console, misc rows (30_encoding.md R76). -/
def remainingRows : List OpRow :=
  [ ⟨0x050, .push, 1⟩
  , ⟨0x051, .pop, 1⟩
  , ⟨0x060, .call, 3⟩
  , ⟨0x061, .retv, 0⟩
  , ⟨0x062, .retz, 0⟩
  , ⟨0x070, .rdc, 1⟩
  , ⟨0x071, .wrc, 1⟩
  , ⟨0x080, .halt, 0⟩
  , ⟨0x081, .nop, 0⟩
  , ⟨0x082, .cip, 1⟩ ]

/-- `OPMAP` and `ARITY`: the whole opcode map, kept as a table (30_encoding.md R76). -/
def opMap : List OpRow :=
  arithmeticRows ++ bitwiseRows ++ dataMovementRows ++ controlFlowRows ++ remainingRows

/-- The row of an opcode number; none for the 466 unassigned numbers (30_encoding.md R73). -/
def rowOfNumber (n : BitVec 9) : Option OpRow :=
  opMap.find? (fun row => row.number == n)

/-- The row of an opcode. -/
def rowOfOpcode (o : Opcode) : Option OpRow :=
  opMap.find? (fun row => row.opcode == o)

/-- The number of an opcode (30_encoding.md R76). -/
def numberOf (o : Opcode) : BitVec 9 :=
  ((rowOfOpcode o).map OpRow.number).getD 0

/-- The operand count of an opcode (30_encoding.md R75, R76). -/
def arityOf (o : Opcode) : Nat :=
  ((rowOfOpcode o).map OpRow.arity).getD 0

/-- `REGMAP`: the seven assigned register codes (30_encoding.md R80). -/
def regMap : List (BitVec 4 × Reg) :=
  [ (0x1, .g1), (0x2, .g2), (0x3, .g3), (0x4, .ct), (0x5, .cs), (0x6, .fl), (0x7, .sp) ]

/-- The register a 4-bit code selects; an unassigned code gives the null register (30_encoding.md R80). -/
def regOfCode (c : BitVec 4) : Reg :=
  ((regMap.find? (fun p => p.1 == c)).map Prod.snd).getD .null

/-- The code of a register; the null register is written as code 0 (30_encoding.md R92). -/
def codeOfReg (r : Reg) : BitVec 4 :=
  ((regMap.find? (fun p => p.2 == r)).map Prod.fst).getD 0

/-- `BANK_BIT`: the low descriptor bit that selects the input bank (30_encoding.md R74). -/
def inputBankBit : Bool := true

/-- `MODE_SIGNED`: the value of bit 9 that selects the signed variant (30_encoding.md R72). -/
def signedModeBit : Bool := true

/-! ## The fields of the definition word (30_encoding.md R70) -/

/-- Bits 8:0. -/
def opcodeField (w : Word) : BitVec 9 := w.extractLsb' 0 9

/-- Bit 9. -/
def modeField (w : Word) : Mode :=
  if w.getLsbD 9 == signedModeBit then .signed else .unsigned

/-- Bits 15:14, 13:12, 11:10: "most-significant pair first". -/
def descriptors (w : Word) : List (BitVec 2) :=
  [w.extractLsb' 14 2, w.extractLsb' 12 2, w.extractLsb' 10 2]

/-- What a descriptor says of its operand (30_encoding.md R74). -/
inductive Kind
  | reg
  | mem (b : DataBank)
deriving DecidableEq, Repr

/-- A register descriptor's low bit is ignored (30_encoding.md R74). -/
def kindOf (d : BitVec 2) : Kind :=
  if d.getLsbD 1 then .mem (if d.getLsbD 0 == inputBankBit then .input else .general) else .reg

/-- Whether the operand comes from the selector word. -/
def Kind.isReg : Kind → Bool
  | .reg => true
  | .mem _ => false

/-! ## Operand resolution (30_encoding.md R78 to R82) -/

/-- The code of the next register operand with `rem` register operands still unresolved: the nibble at bit offset
`4 + 4*(rem - 1)` of the selector word (30_encoding.md R79). -/
def selectorCode (s : Word) (rem : Nat) : BitVec 4 :=
  s.extractLsb' (4 + 4 * (rem - 1)) 4

/-- The operands in slot order from the selector word and the words after it; `rem` counts the register operands still
unresolved (30_encoding.md R82). -/
def resolve (s : Word) : Nat → List Kind → List Word → List Operand
  | _, [], _ => []
  | rem, .reg :: ks, ws => .reg (regOfCode (selectorCode s rem)) :: resolve s (rem - 1) ks ws
  | rem, .mem b :: ks, ws => .mem b (ws.headD 0) :: resolve s rem ks ws.tail

/-- The literal operand of `ICP` without its bank bit, which is ignored: "two words that differ only in ignored bits are the same
instruction" (30_encoding.md R85 d). -/
def literalOperand (o : Operand) : Operand :=
  match o with
  | .reg r => .reg r
  | .mem _ i => .mem .general i
  | .imm v => .imm v

/-- The instruction of an opcode, a mode and three operand slots; slots beyond the arity and an unused mode are
dropped (30_encoding.md R75, R72). -/
def buildInstr (op : Opcode) (m : Mode) (o1 o2 o3 : Operand) : Instr :=
  match op with
  | .inc => .inc m o1
  | .dec => .dec m o1
  | .add => .add m o1 o2
  | .sub => .sub m o1 o2
  | .mul => .mul m o1 o2
  | .div => .div m o1 o2
  | .adc => .adc m o1 o2
  | .sbc => .sbc m o1 o2
  | .and => .and o1 o2
  | .or => .or o1 o2
  | .xor => .xor o1 o2
  | .not => .not o1
  | .shl => .shl o1 o2
  | .shr => .shr m o1 o2
  | .rol => .rol o1 o2
  | .ror => .ror o1 o2
  | .bsw => .bsw o1
  | .cpy => .cpy o1 o2
  | .mcp => .mcp o1 o2 o3
  | .icp => .icp o1 (literalOperand o2)
  | .cmp => .cmp m o1 o2
  | .swp => .swp o1 o2
  | .rcf => .rcf m o1 o2
  | .rct => .rct m o1 o2
  | .jmp => .jmp
  | .jz => .jz
  | .je => .je
  | .jl => .jl
  | .jg => .jg
  | .jc => .jc
  | .ji => .ji
  | .jse => .jse
  | .jsf => .jsf
  | .clz => .clz
  | .clc => .clc
  | .cla => .cla
  | .push => .push o1
  | .pop => .pop o1
  | .call => .call o1 o2 o3
  | .retv => .retv
  | .retz => .retz
  | .rdc => .rdc o1
  | .wrc => .wrc o1
  | .halt => .halt
  | .nop => .nop
  | .cip => .cip o1

/-- The kinds of the used operands of a definition word (30_encoding.md R75). -/
def usedKinds (w : Word) (arity : Nat) : List Kind :=
  ((descriptors w).take arity).map kindOf

/-- `Decode(a)` on the definition word and the three words after it, which is as far as any instruction reaches
(30_encoding.md R82, R86). None for an unrecognized opcode, whatever the other bits are (R73). -/
def decodeWindow (w0 w1 w2 w3 : Word) : Option Instr :=
  match rowOfNumber (opcodeField w0) with
  | none => none
  | some row =>
    let kinds := usedKinds w0 row.arity
    let nreg := kinds.countP Kind.isReg
    let os := resolve w1 nreg kinds (if 0 < nreg then [w2, w3] else [w1, w2, w3])
    some (buildInstr row.opcode (modeField w0) (os.getD 0 (.reg .null)) (os.getD 1 (.reg .null)) (os.getD 2 (.reg .null)))

/-! ## Length (30_encoding.md R86) -/

/-- Whether the operand needs the selector word. -/
def Operand.isReg : Operand → Bool
  | .reg _ => true
  | .mem _ _ => false
  | .imm _ => false

/-- Whether the operand has a cell-index word. -/
def Operand.isMem : Operand → Bool
  | .reg _ => false
  | .mem _ _ => true
  | .imm _ => false

/-- `1 + (1 if any used operand is a register) + (number of used memory operands)` (30_encoding.md R86). -/
def wordCount (os : List Operand) : Nat :=
  1 + (if os.any Operand.isReg then 1 else 0) + os.countP Operand.isMem

/-- The length of an instruction in words (30_encoding.md R86). -/
def Instr.length (i : Instr) : Nat := wordCount i.operands

/-! ## Decoding a stream -/

/-- Why a stream of words or bytes does not decode. -/
inductive DecodeError
  /-- The opcode field is one of the 466 unassigned numbers (30_encoding.md R73). -/
  | unrecognizedOpcode (number : BitVec 9)
  /-- The stream ends inside the instruction. The machine's own fetch wraps and never meets this (30_encoding.md R86). -/
  | truncated
deriving DecidableEq, Repr

/-- The first instruction of a stream of code words and the words after it. -/
def decodeWords : List Word → Except DecodeError (Instr × List Word)
  | [] => .error .truncated
  | w0 :: ws =>
    match decodeWindow w0 (ws.getD 0 0) (ws.getD 1 0) (ws.getD 2 0) with
    | none => .error (.unrecognizedOpcode (opcodeField w0))
    | some i => if i.length ≤ ws.length + 1 then .ok (i, ws.drop (i.length - 1)) else .error .truncated

/-- Code words from the bytes of an image, least significant byte first (20_memory.md R51 c, R60); an odd last byte is dropped. -/
def wordsOfBytes : List Byte → List Word
  | lo :: hi :: bs => (hi ++ lo) :: wordsOfBytes bs
  | _ => []

/-- The first instruction of a stream of image bytes, and the words after it. -/
def decodeBytes (bs : List Byte) : Except DecodeError (Instr × List Word) :=
  decodeWords (wordsOfBytes bs)

/-- The four words of a table word: bit 0 is the least significant bit of the first word, bits from `nbits` on are 0. -/
def tableWords (nbits w : Nat) : List Word :=
  let v := w % 2 ^ nbits
  [BitVec.ofNat 16 v, BitVec.ofNat 16 (v / 2 ^ 16), BitVec.ofNat 16 (v / 2 ^ 32), BitVec.ofNat 16 (v / 2 ^ 48)]

/-- The instruction the decoder reads from the bits of an opcode-table row. -/
def decodeTableWord (nbits w : Nat) : Option Instr :=
  match decodeWords (tableWords nbits w) with
  | .ok (i, _) => some i
  | .error _ => none

/-! ## The encoder (30_encoding.md R70, R74, R78 to R81, R92) -/

/-- The descriptor the assembler writes for an operand (30_encoding.md R92); the internal literal has none and is written as 0. -/
def descriptorOf : Operand → BitVec 2
  | .reg _ => 0b00
  | .mem .general _ => 0b10
  | .mem .input _ => 0b11
  | .imm _ => 0b00

/-- The mode bit of a mode. -/
def modeBit (m : Mode) : BitVec 1 :=
  match m with
  | .unsigned => BitVec.ofBool (!signedModeBit)
  | .signed => BitVec.ofBool signedModeBit

/-- `d1 d2 d3 m opcode`, most significant field first; unused descriptors are 0. An opcode that ignores the mode bit has it
clear (30_encoding.md R92). -/
def definitionWord (i : Instr) : Word :=
  let ds := i.operands.map descriptorOf
  ((ds.getD 0 0 ++ ds.getD 1 0 ++ ds.getD 2 0 ++ modeBit i.mode ++ numberOf i.opcode : BitVec (2 + 2 + 2 + 1 + 9)) : BitVec 16)

/-- The codes of the register operands, in slot order. -/
def registerCodes (os : List Operand) : List (BitVec 4) :=
  os.filterMap (fun o => match o with
    | .reg r => some (codeOfReg r)
    | .mem _ _ => none
    | .imm _ => none)

/-- The selector word: the last register operand's code at bit 4, each earlier one a nibble higher (30_encoding.md R79). -/
def selectorWord : List (BitVec 4) → Word
  | [] => 0
  | c :: cs => (c.setWidth 16 <<< (4 + 4 * cs.length)) ||| selectorWord cs

/-- The cell-index words, in slot order (30_encoding.md R81). -/
def indexWords (os : List Operand) : List Word :=
  os.filterMap (fun o => match o with
    | .reg _ => none
    | .mem _ i => some i
    | .imm _ => none)

/-- The words of an instruction in code order (30_encoding.md R77). -/
def encode (i : Instr) : List Word :=
  definitionWord i ::
    ((if i.operands.any Operand.isReg then [selectorWord (registerCodes i.operands)] else []) ++ indexWords i.operands)

end Sys2Proof
end

