-- ==== Sys2Proof/Config.lean ====
section
/-! DEFINITION. The fixed sizes of 00_scope.md section 4. The spec leaves no value of this block free
(93_implementation_defined.md, end of section 1), so no free value stands here.

The parameters of 00_scope.md section 4 that the spec decided itself stand, each with the spec's value, where a
later correction can reach them:
`CANON` is `Machine.canon` (Machine/Operands.lean); `OPMAP` and `ARITY` are `opMap`, `REGMAP` is `regMap`, `BANK_BIT` is
`inputBankBit` and `MODE_SIGNED` is `signedModeBit` (Decode.lean); `CHAR_MAX` is `Machine.charMax` (Machine/Console.lean);
`LEGACY_EQ` is empty, so no definition uses it (10_state.md R23); `RESET_*` is `Machine.State.reset` (Machine/State.lean);
the halt cause codes are `Machine.HaltStatus.code` (Machine/State.lean). -/

namespace Sys2Proof.Config

/-- Words in a bank: "each exactly 65536 words" (10_state.md R25). -/
def bankWords : Nat := 65536

/-- The longest block the load port copies, in words (20_memory.md R58). -/
def maxBlockWords : Nat := 65534

end Sys2Proof.Config
end

