-- ==== Sys2Proof/Machine/Memory.lean ====
section
/-! DEFINITION. One bank as plain data. A bank of 65536 words (10_state.md R25) is held as its image bytes: cell `i` is the
byte at `2 * i` (bits 7:0) and the byte at `2 * i + 1` (bits 15:8), the order in which the loader reads a block
(20_memory.md R51 c, R60). The bytes are the host's form of a memory; no instruction can see them, since every access
moves one word (20_memory.md R50). DESIGN CHOICE, safe: notes/assumptions/1.md.

The laws of `readByte` and `writeByte` hold for every list, canonical or not: a write first removes every entry of its
address. -/

namespace Sys2Proof.Machine

/-- A bank: its bytes, addresses strictly rising, no entry holding what an unlisted address reads as. -/
abbrev Memory := List Host.Cell

/-- What an unlisted byte reads as: "every cell of all four banks 0" after reset (10_state.md R34). -/
def unlistedByte : Byte := 0

/-- The byte at an address. -/
def Memory.readByte (m : Memory) (a : Nat) : Byte :=
  match m with
  | [] => unlistedByte
  | c :: cs => if c.1 = a then c.2 else Memory.readByte cs a

/-- The bank without the entries of an address. -/
def Memory.eraseByte (m : Memory) (a : Nat) : Memory :=
  m.filter (fun c => c.1 != a)

/-- The bank with an entry put before the first larger address. -/
def Memory.insertByte (m : Memory) (a : Nat) (v : Byte) : Memory :=
  match m with
  | [] => [(a, v)]
  | c :: cs => if c.1 < a then c :: Memory.insertByte cs a v else (a, v) :: c :: cs

/-- Store a byte, keeping the canonical form: the value an unlisted address reads as is not listed. -/
def Memory.writeByte (m : Memory) (a : Nat) (v : Byte) : Memory :=
  if v = unlistedByte then m.eraseByte a else (m.eraseByte a).insertByte a v

/-- The canonical form: addresses strictly rising and inside the bank, no entry equal to what an unlisted address reads as. -/
def Memory.wf (m : Memory) : Bool :=
  decide (m.Pairwise (fun c d => c.1 < d.1) ∧ ∀ c ∈ m, c.2 ≠ unlistedByte ∧ c.1 < 2 * Config.bankWords)

/-- `MemRead(b:i, 1)` on one bank (00_scope.md section 5): the word of cell `i`. -/
def Memory.read (m : Memory) (i : Word) : Word :=
  m.readByte (2 * i.toNat + 1) ++ m.readByte (2 * i.toNat)

/-- `MemWrite(b:i, 1, v)` on one bank (00_scope.md section 5). -/
def Memory.write (m : Memory) (i v : Word) : Memory :=
  (m.writeByte (2 * i.toNat) (v.extractLsb' 0 8)).writeByte (2 * i.toNat + 1) (v.extractLsb' 8 8)

end Sys2Proof.Machine
end

