-- ==== Sys2Proof/Machine/State.lean ====
section
/-! DEFINITION. The state of the CORE block (10_state.md), the reasons a step stops, and the state after reset. -/

namespace Sys2Proof.Machine

/-- The halt status (10_state.md R30) by the causes of 60_exceptions.md R220. -/
inductive HaltStatus
  /-- 0: running. -/
  | running
  /-- 1: halted by `HALT`. -/
  | haltedByHalt
  /-- 2: halted by a jump to zero. -/
  | haltedByJumpToZero
  /-- 3: fatal, unrecognized opcode. -/
  | fatalUnrecognizedOpcode
  /-- 4: fatal, illegal operand kind. -/
  | fatalIllegalOperandKind
deriving DecidableEq, Repr

/-- The number the status output shows (60_exceptions.md R220). -/
def HaltStatus.code : HaltStatus → Nat
  | .running => 0
  | .haltedByHalt => 1
  | .haltedByJumpToZero => 2
  | .fatalUnrecognizedOpcode => 3
  | .fatalIllegalOperandKind => 4

/-- Everything 10_state.md gives the machine, and the two console streams, which are the model's fields for the outside
world (10_state.md R32, 46_io.md R202; notes/assumptions/2.md). -/
structure State where
  /-- `G1` (10_state.md R11). -/
  g1 : Word
  /-- `G2` (10_state.md R11). -/
  g2 : Word
  /-- `G3` (10_state.md R11). -/
  g3 : Word
  /-- `CT`, the call-target register (10_state.md R12). -/
  ct : Word
  /-- `CS`, the call-site register (10_state.md R13). -/
  cs : Word
  /-- `FL`, the flags register (10_state.md R14, R20). -/
  fl : Byte
  /-- `SP`, the stack-top register (10_state.md R15). -/
  sp : Word
  /-- `SR`, the stack-return register (10_state.md R16). -/
  sr : Word
  /-- `IP`, the instruction pointer (10_state.md R17). -/
  ip : Word
  /-- The bank `CODE` (10_state.md R26). -/
  code : Memory
  /-- The bank `INPUT` (10_state.md R27). -/
  input : Memory
  /-- The bank `GENERAL` (10_state.md R28). -/
  general : Memory
  /-- The bank `STACK` (10_state.md R29). -/
  stack : Memory
  /-- The halt status (10_state.md R30). -/
  status : HaltStatus
  /-- The character codes waiting at the console, oldest first (46_io.md R202). -/
  consoleIn : List Nat
  /-- The bytes emitted to the console, oldest first (46_io.md R202). -/
  consoleOut : List Byte
deriving DecidableEq, Repr

/-- Why a step has no next state. -/
inductive Fault
  /-- Raised by `step` when the halt status is not `running`: "the machine is halted: there is no step" (30_encoding.md R88).
  Safe: the hardware does nothing more either. -/
  | halted
  /-- Raised by `RDC` when no character waits: the cycle "neither changes state nor ends" (46_io.md R203). Safe: the hardware
  has no next state either until a character comes. -/
  | consoleBlocked
deriving DecidableEq, Repr

/-- Why something has no meaning here. No instruction is refused: the load port alone refuses, before a run. -/
inductive Refusal
  /-- Raised by `exec` for an instruction with no meaning yet. Safe. No arm of this model raises it. -/
  | notModelled (mnemonic : String)
  /-- Raised by the load port for a block of more than 65534 words (20_memory.md R58, R59). Safe: the run never starts. -/
  | blockTooLong
  /-- Raised by the load port when a bank is named twice (20_memory.md R59). Safe: the run never starts. -/
  | blockRepeated
  /-- Raised by `parseImage` for bytes that begin with neither signature (20_memory.md R60). Safe: the run never starts. -/
  | badSignature
  /-- Raised by `parseImage` for the compressed form, whose container the spec does not name
  (93_implementation_defined.md row 10). Safe: the run never starts. -/
  | compressedImage
  /-- Raised by `parseImage` for a block that ends early (20_memory.md R59). Safe: the run never starts. -/
  | blockTruncated
  /-- Raised by `parseImage` for a block type other than 1, 2 and 3 (20_memory.md R60). Safe: the run never starts. -/
  | blockTypeUnknown
deriving DecidableEq, Repr

/-- The machine right after reset (10_state.md R34, 70_reset_and_hazards.md R250). The console streams are not the block's
(10_state.md R32); they stand empty here, DESIGN CHOICE, unsafe (notes/assumptions/2.md). -/
def State.reset : State :=
  { g1 := 0
    g2 := 0
    g3 := 0
    ct := 0
    cs := 0
    fl := 0
    sp := 0xFFFF
    sr := 0xFFFF
    ip := 1
    code := []
    input := []
    general := []
    stack := []
    status := .running
    consoleIn := []
    consoleOut := [] }

end Sys2Proof.Machine
end

