-- ==== Sys2Proof/Machine/Flags.lean ====
section
/-! DEFINITION. The flags register (10_state.md R20 to R23): its bits, and the two forms of a flag update. -/

namespace Sys2Proof.Machine

/-- The eight flags (10_state.md R20). -/
inductive Flag
  | z
  | e
  | l
  | g
  | c
  | i
  | se
  | sf
deriving DecidableEq, Repr

/-- "Each mapped to a private bit (1,2,4,8,0x10,0x20,0x40,0x80)" (10_state.md R20). -/
def Flag.mask (f : Flag) : Byte :=
  match f with
  | .z => 0x01
  | .e => 0x02
  | .l => 0x04
  | .g => 0x08
  | .c => 0x10
  | .i => 0x20
  | .se => 0x40
  | .sf => 0x80

/-- Whether a flag is set. -/
def State.flag (s : State) (f : Flag) : Bool :=
  s.fl &&& f.mask != 0

/-- `F <- c`: set or clear (10_state.md R21 a). -/
def State.assignFlag (s : State) (f : Flag) (c : Bool) : State :=
  { s with fl := if c then s.fl ||| f.mask else s.fl &&& ~~~f.mask }

/-- `F <- 1 if c`: set when `c` holds, otherwise left as it was (10_state.md R21 b). -/
def State.stickFlag (s : State) (f : Flag) (c : Bool) : State :=
  if c then s.assignFlag f true else s

/-- `FL.Z <- (v = 0)`, "from v": the report of a data-producing opcode, taken from the computed word and not from a re-read
(40_arithmetic.md R110, 42_data_movement.md R148). -/
def State.reportZero (s : State) (v : Word) : State :=
  s.assignFlag .z (v == 0)

/-- `x[FL] <- 0`. -/
def State.clearFlags (s : State) : State :=
  { s with fl := 0 }

end Sys2Proof.Machine
end

