-- ==== Sys2Proof/Machine/Operands.lean ====
section
/-! DEFINITION. How an instruction reaches registers and memory (20_memory.md sections 1 to 3): the byte-order conversion,
the two register gates and the four operand accesses. -/

namespace Sys2Proof.Machine

/-! ## Values -/

/-- The two bytes of a word exchanged (00_scope.md section 5). -/
def bswap16 (w : Word) : Word :=
  (w <<< 8) ||| (w >>> 8)

/-- `CANON`, the conversion the canonical convention applies (00_scope.md R3). -/
def canon (w : Word) : Word := bswap16 w

/-- The integer an operand word stands for: as it is, or read as two's complement (40_arithmetic.md R109). -/
def value (m : Mode) (w : Word) : Int :=
  match m with
  | .unsigned => w.toNat
  | .signed => w.toInt

/-- An exact result reduced modulo 2^16 (00_scope.md R1, 40_arithmetic.md R108). -/
def narrow (x : Int) : Word := BitVec.ofInt 16 x

/-! ## The register gates (20_memory.md R48) -/

/-- `RegRead(r)`: `NULL` and `CT` read as zero, `FL` zero-extended. -/
def State.regRead (s : State) (r : Reg) : Word :=
  match r with
  | .null => 0
  | .g1 => s.g1
  | .g2 => s.g2
  | .g3 => s.g3
  | .ct => 0
  | .cs => s.cs
  | .fl => s.fl.setWidth 16
  | .sp => s.sp

/-- The opcodes during which an operand write to `FL` is honoured (20_memory.md R48). -/
def mayWriteFL (opc : Opcode) : Bool :=
  opc == .call || opc == .retv || opc == .retz

/-- The opcode during which an operand write to `CS` is honoured (20_memory.md R48). -/
def mayWriteCS (opc : Opcode) : Bool :=
  opc == .call

/-- `RegWrite(r, v, opc)`: a write to `NULL` is discarded, one to `FL` or `CS` is honoured only under the opcodes of its gate. -/
def State.regWrite (s : State) (r : Reg) (v : Word) (opc : Opcode) : State :=
  match r with
  | .null => s
  | .g1 => { s with g1 := v }
  | .g2 => { s with g2 := v }
  | .g3 => { s with g3 := v }
  | .ct => { s with ct := v }
  | .cs => if mayWriteCS opc then { s with cs := v } else s
  | .fl => if mayWriteFL opc then { s with fl := v.extractLsb' 0 8 } else s
  | .sp => { s with sp := v }

/-! ## Cells -/

/-- The stored word of a data cell, with the null-cell rule: index 0 reads 0 (20_memory.md R42, R43, R46). -/
def State.cellRead (s : State) (b : DataBank) (i : Word) : Word :=
  if i = 0 then 0
  else
    match b with
    | .general => s.general.read i
    | .input => s.input.read i

/-- Put a stored word into a data cell: a write to index 0 or to the input bank is discarded (20_memory.md R44, R45, R46). -/
def State.cellWrite (s : State) (b : DataBank) (i w : Word) : State :=
  if i = 0 then s
  else
    match b with
    | .general => { s with general := s.general.write i w }
    | .input => s

/-! ## The four operand accesses -/

/-- `ReadC(o)`, the canonical read (20_memory.md R42). `canon 0 = 0`, so a null cell reads 0. -/
def State.readC (s : State) (o : Operand) : Word :=
  match o with
  | .reg r => s.regRead r
  | .mem b i => if i = 0 then 0 else canon (s.cellRead b i)
  | .imm v => v

/-- `ReadR(o)`, the raw read (20_memory.md R43). -/
def State.readR (s : State) (o : Operand) : Word :=
  match o with
  | .reg r => canon (s.regRead r)
  | .mem b i => s.cellRead b i
  | .imm v => v

/-- `WriteC(o, v, opc)`, the canonical write (20_memory.md R44). -/
def State.writeC (s : State) (o : Operand) (v : Word) (opc : Opcode) : State :=
  match o with
  | .reg r => s.regWrite r v opc
  | .mem b i => s.cellWrite b i (canon v)
  | .imm _ => s

/-- `WriteR(o, v, opc)`, the raw write (20_memory.md R45). -/
def State.writeR (s : State) (o : Operand) (v : Word) (opc : Opcode) : State :=
  match o with
  | .reg r => s.regWrite r (canon v) opc
  | .mem b i => s.cellWrite b i v
  | .imm _ => s

/-- The relative target of `RCF` and `RCT`: the operand's own bank, the index moved by the true value of `CT`, up for
`unsigned` and down for `signed`, wrapping (42_data_movement.md R145). None for an operand that is no memory operand. -/
def State.relTarget (s : State) (o : Operand) (m : Mode) : Option Operand :=
  match o with
  | .reg _ => none
  | .mem b i =>
    match m with
    | .unsigned => some (.mem b (i + s.ct))
    | .signed => some (.mem b (i - s.ct))
  | .imm _ => none

end Sys2Proof.Machine
end

