-- ==== Sys2Proof/Machine/Ops.lean ====
section
/-! DEFINITION. The shared procedures of the engine: halting and fatal conditions, the end of a cycle, the jump, and the two
stack procedures. -/

namespace Sys2Proof.Machine

/-! ## Halting and fatal conditions -/

/-- `halt(cause)`: the status is set and the instruction still completes (00_scope.md section 5). -/
def State.halt (s : State) (cause : HaltStatus) : State :=
  { s with status := cause }

/-- `raise Fatal(cause)`, the machine's one exceptional condition: the status is set and the instruction abandoned; no register,
flag or cell changes, the sentinel zeroing and the advance of `IP` are skipped (60_exceptions.md R221). Nothing saves state
and there is no handler and no return (60_exceptions.md R229, R230); reset is the way out (`State.applyReset`). -/
def State.raiseFatal (s : State) (cause : HaltStatus) : State :=
  { s with status := cause }

/-! ## The end of a cycle (30_encoding.md R88) -/

/-- Whether the opcode itself redirected the instruction pointer: "an explicit signal from the opcode" (30_encoding.md R88). -/
inductive Flow
  | advance
  | redirected
deriving DecidableEq, Repr

/-- Cell 0 of every bank set to 0 (20_memory.md R47), step 4 of the cycle. -/
def State.zeroSentinels (s : State) : State :=
  { s with
    code := s.code.write 0 0
    input := s.input.write 0 0
    general := s.general.write 0 0
    stack := s.stack.write 0 0 }

/-- Step 5 of the cycle: a machine still running and not redirected goes on behind the instruction's `len` words, wrapping. -/
def State.advanceIP (s : State) (flow : Flow) (len : Nat) : State :=
  if s.status = .running ∧ flow = .advance then { s with ip := s.ip + BitVec.ofNat 16 len } else s

/-- Steps 4 and 5 of the cycle. -/
def State.endCycle (s : State) (flow : Flow) (len : Nat) : State :=
  s.zeroSentinels.advanceIP flow len

/-- An instruction over the operands `os` that is not a redirect completes its cycle. -/
def complete (os : List Operand) (s : State) : Host.Outcome State Fault Refusal :=
  .next (s.endCycle .advance (wordCount os))

/-- A one-word instruction completes its cycle, redirected or not. -/
def completeFlow (p : State × Flow) : Host.Outcome State Fault Refusal :=
  .next (p.1.endCycle p.2 (wordCount []))

/-! ## Jumps (43_control_flow.md R160) -/

/-- `Jump()`: to the call target, or a halt when that is 0. -/
def State.jump (s : State) : State × Flow :=
  if s.ct = 0 then (s.halt .haltedByJumpToZero, .advance) else ({ s with ip := s.ct }, .redirected)

/-- "Conditional jumps test their flag then delegate to unconditional jump" (43_control_flow.md R162). -/
def State.jumpIf (s : State) (f : Flag) : State × Flow :=
  if s.flag f then s.jump else (s, .advance)

/-! ## The stack procedures (44_stack.md) -/

/-- `Push(v)` (44_stack.md R180). -/
def State.push (s : State) (v : Word) : State :=
  if s.sp = 0 then s.stickFlag .sf true
  else
    let p := s.sp - 1
    ({ s with sp := p, stack := s.stack.write p v }.stickFlag .sf (p == 0)).reportZero v

/-- The write of a popped word to its destination, or to the internal sink `none` (44_stack.md R181). -/
def State.popDest (s : State) (dest : Option Operand) (v : Word) (opc : Opcode) : State :=
  match dest with
  | none => s
  | some o => s.writeC o v opc

/-- `Pop(dest)`: the word popped and the state after; the destination is written before `SP` moves (44_stack.md R181).
DESIGN CHOICE (unsafe, notes/assumptions/17.md): on an empty stack with `SP` as the destination the 0 is written to `SP`, as the pseudocode
of R181 has it, where R183 and 90_conflicts.md C6 also say that `SP` stays 0xFFFF. -/
def State.pop (s : State) (dest : Option Operand) (opc : Opcode) : Word × State :=
  if s.sp = 0xFFFF then
    (0, ((s.stickFlag .se true).assignFlag .z true).popDest dest 0 opc)
  else
    let v := s.stack.read s.sp
    let s := s.popDest dest v opc
    let p := s.sp + 1
    (v, ({ s with sp := p }.stickFlag .se (p == 0xFFFF)).reportZero v)

/-- `Pop(none)` for its effect: the word is discarded. -/
def State.drop (s : State) (opc : Opcode) : State :=
  (s.pop none opc).2

end Sys2Proof.Machine
end

