-- ==== Sys2Proof/Machine/Arithmetic.lean ====
section
/-! DEFINITION. The arithmetic instructions (40_arithmetic.md): canonical reads and writes, all reads before the write (R111), flags from
the computed word (R110), nothing raised (R112). -/

namespace Sys2Proof.Machine

/-- The common end of the group: the result goes to the first operand and is reported in `Z` (40_arithmetic.md R110). -/
def State.resultC (s : State) (o : Operand) (r : Word) (opc : Opcode) : State :=
  (s.writeC o r opc).reportZero r

/-- The carry report of `ADC` and `SBC`: sticky, "when the destination operand's sign bit differs between before and after"
(40_arithmetic.md R106). -/
def State.reportCarry (s : State) (before after : Word) : State :=
  s.stickFlag .c (before.getLsbD 15 != after.getLsbD 15)

/-- The quotient, for a non-zero divisor: floor of the unsigned one, the signed one toward zero (40_arithmetic.md R105). -/
def quotient (m : Mode) (a b : Word) : Word :=
  match m with
  | .unsigned => narrow ((a.toNat / b.toNat : Nat) : Int)
  | .signed => narrow (a.toInt.tdiv b.toInt)

/-- `INC` (40_arithmetic.md R100). -/
def execInc (m : Mode) (o1 : Operand) (s : State) : Host.Outcome State Fault Refusal :=
  let r := narrow (value m (s.readC o1) + 1)
  complete [o1] (s.resultC o1 r .inc)

/-- `DEC` (40_arithmetic.md R101). -/
def execDec (m : Mode) (o1 : Operand) (s : State) : Host.Outcome State Fault Refusal :=
  let r := narrow (value m (s.readC o1) - 1)
  complete [o1] (s.resultC o1 r .dec)

/-- `ADD` (40_arithmetic.md R102). -/
def execAdd (m : Mode) (o1 o2 : Operand) (s : State) : Host.Outcome State Fault Refusal :=
  let r := narrow (value m (s.readC o1) + value m (s.readC o2))
  complete [o1, o2] (s.resultC o1 r .add)

/-- `SUB` (40_arithmetic.md R103). -/
def execSub (m : Mode) (o1 o2 : Operand) (s : State) : Host.Outcome State Fault Refusal :=
  let r := narrow (value m (s.readC o1) - value m (s.readC o2))
  complete [o1, o2] (s.resultC o1 r .sub)

/-- `MUL` (40_arithmetic.md R104). -/
def execMul (m : Mode) (o1 o2 : Operand) (s : State) : Host.Outcome State Fault Refusal :=
  let r := narrow (value m (s.readC o1) * value m (s.readC o2))
  complete [o1, o2] (s.resultC o1 r .mul)

/-- `DIV` (40_arithmetic.md R105): "divide by zero: destination operand is written as 0, divide-error and zero flags are both set". -/
def execDiv (m : Mode) (o1 o2 : Operand) (s : State) : Host.Outcome State Fault Refusal :=
  let a := s.readC o1
  let b := s.readC o2
  if b = 0 then
    complete [o1, o2] (((s.writeC o1 0 .div).assignFlag .i true).assignFlag .z true)
  else
    complete [o1, o2] (s.resultC o1 (quotient m a b) .div)

/-- `ADC` (40_arithmetic.md R106): the carry flag is an output only. -/
def execAdc (m : Mode) (o1 o2 : Operand) (s : State) : Host.Outcome State Fault Refusal :=
  let a := s.readC o1
  let r := narrow (value m a + value m (s.readC o2))
  complete [o1, o2] ((s.resultC o1 r .adc).reportCarry a r)

/-- `SBC` (40_arithmetic.md R107): the carry flag is an output only. -/
def execSbc (m : Mode) (o1 o2 : Operand) (s : State) : Host.Outcome State Fault Refusal :=
  let a := s.readC o1
  let r := narrow (value m a - value m (s.readC o2))
  complete [o1, o2] ((s.resultC o1 r .sbc).reportCarry a r)

end Sys2Proof.Machine
end

