-- ==== Sys2Proof/Machine/Bitwise.lean ====
section
/-! DEFINITION. The bitwise instructions (41_bitwise.md): raw reads and writes, `Z` from the raw result (R129, R130), amounts as the
whole raw word (R131). -/

namespace Sys2Proof.Machine

/-- The common end of the group: the raw result goes to the first operand and is reported in `Z` (41_bitwise.md R130). -/
def State.resultR (s : State) (o : Operand) (r : Word) (opc : Opcode) : State :=
  (s.writeR o r opc).reportZero r

/-- The mathematical left shift: 16 or more shifts everything out (41_bitwise.md R124, R131). -/
def shiftLeft (a n : Word) : Word :=
  if 16 ≤ n.toNat then 0 else a <<< n.toNat

/-- The right shift: arithmetic for `signed` and a set sign bit, where the floor of the signed value by `2^n` keeps copies of the
sign bit entering at the top, logical otherwise (41_bitwise.md R125). -/
def shiftRight (m : Mode) (a n : Word) : Word :=
  if m = .signed ∧ a.getLsbD 15 = true then
    if 16 ≤ n.toNat then 0xFFFF else narrow (a.toInt.fdiv (2 ^ n.toNat))
  else
    if 16 ≤ n.toNat then 0 else a >>> n.toNat

/-- Rotate left by the amount modulo 16 (41_bitwise.md R126). -/
def rotateLeft (a n : Word) : Word :=
  let k := n.toNat % 16
  (a <<< k) ||| (a >>> (16 - k))

/-- Rotate right by the amount modulo 16 (41_bitwise.md R127). -/
def rotateRight (a n : Word) : Word :=
  let k := n.toNat % 16
  (a >>> k) ||| (a <<< (16 - k))

/-- `AND` (41_bitwise.md R120). -/
def execAnd (o1 o2 : Operand) (s : State) : Host.Outcome State Fault Refusal :=
  let r := s.readR o1 &&& s.readR o2
  complete [o1, o2] (s.resultR o1 r .and)

/-- `OR` (41_bitwise.md R121). -/
def execOr (o1 o2 : Operand) (s : State) : Host.Outcome State Fault Refusal :=
  let r := s.readR o1 ||| s.readR o2
  complete [o1, o2] (s.resultR o1 r .or)

/-- `XOR` (41_bitwise.md R122). -/
def execXor (o1 o2 : Operand) (s : State) : Host.Outcome State Fault Refusal :=
  let r := s.readR o1 ^^^ s.readR o2
  complete [o1, o2] (s.resultR o1 r .xor)

/-- `NOT` (41_bitwise.md R123). -/
def execNot (o1 : Operand) (s : State) : Host.Outcome State Fault Refusal :=
  let r := ~~~(s.readR o1)
  complete [o1] (s.resultR o1 r .not)

/-- `SHL` (41_bitwise.md R124). -/
def execShl (o1 o2 : Operand) (s : State) : Host.Outcome State Fault Refusal :=
  let r := shiftLeft (s.readR o1) (s.readR o2)
  complete [o1, o2] (s.resultR o1 r .shl)

/-- `SHR` (41_bitwise.md R125). -/
def execShr (m : Mode) (o1 o2 : Operand) (s : State) : Host.Outcome State Fault Refusal :=
  let r := shiftRight m (s.readR o1) (s.readR o2)
  complete [o1, o2] (s.resultR o1 r .shr)

/-- `ROL` (41_bitwise.md R126). -/
def execRol (o1 o2 : Operand) (s : State) : Host.Outcome State Fault Refusal :=
  let r := rotateLeft (s.readR o1) (s.readR o2)
  complete [o1, o2] (s.resultR o1 r .rol)

/-- `ROR` (41_bitwise.md R127). -/
def execRor (o1 o2 : Operand) (s : State) : Host.Outcome State Fault Refusal :=
  let r := rotateRight (s.readR o1) (s.readR o2)
  complete [o1, o2] (s.resultR o1 r .ror)

/-- `BSW` (41_bitwise.md R128): the fixed function `bswap16`, not the parameter `canon`. -/
def execBsw (o1 : Operand) (s : State) : Host.Outcome State Fault Refusal :=
  let r := bswap16 (s.readR o1)
  complete [o1] (s.resultR o1 r .bsw)

end Sys2Proof.Machine
end

