-- ==== Sys2Proof/Machine/CallReturn.lean ====
section
/-! DEFINITION. The calling convention (45_call_return.md): explicit sequences of `push` and `pop`, each with its full effect on `SP`,
`STACK` and the flags. -/

namespace Sys2Proof.Machine

/-- The six pushes of a call: call site, flags as the push before left them, the three general registers, and the length of the
call in words, read as the engine's own literal (45_call_return.md R190, 30_encoding.md R83). -/
def State.pushFrame (s : State) (len : Nat) : State :=
  let s := s.push s.cs
  let s := s.push (s.fl.setWidth 16)
  let s := s.push s.g1
  let s := s.push s.g2
  let s := s.push s.g3
  s.push (s.readC (.imm (BitVec.ofNat 16 len)))

/-- The parameters loaded one after the other, so that a later one sees the registers the earlier ones loaded
(45_call_return.md R190). -/
def State.loadParameters (s : State) (p1 p2 p3 : Operand) : State :=
  let s := { s with g1 := s.readC p1 }
  let s := { s with g2 := s.readC p2 }
  { s with g3 := s.readC p3 }

/-- A call whose target is not zero (45_call_return.md R190): frame, snapshot, parameters, call site, jump, and the two clears. -/
def State.enterCall (s : State) (p1 p2 p3 : Operand) : State :=
  let s := s.pushFrame (wordCount [p1, p2, p3])
  let s := { s with sr := s.sp }
  let s := s.loadParameters p1 p2 p3
  { s with cs := s.ip, ip := s.ct, ct := 0 }.clearFlags

/-- `CALL` (45_call_return.md R190): with a zero target "a complete no-op". -/
def execCall (p1 p2 p3 : Operand) (s : State) : Host.Outcome State Fault Refusal :=
  if s.ct = 0 then complete [p1, p2, p3] s
  else .next ((s.enterCall p1 p2 p3).endCycle .redirected (wordCount [p1, p2, p3]))

/-- The sequence of `RETV`, shared with `RETZ` (45_call_return.md R191): `Z` from the value, the stack top from the snapshot, the
length popped and added to the call site, five words discarded, and the value pushed. -/
def State.returnValue (s : State) (opc : Opcode) : State :=
  let s := s.reportZero s.ct
  let s := { s with sp := s.sr }
  let p := s.pop none opc
  let s := { p.2 with ip := p.2.cs + p.1 }
  let s := ((((s.drop opc).drop opc).drop opc).drop opc).drop opc
  { s.push s.ct with ct := 0 }

/-- `RETV` (45_call_return.md R191). -/
def execRetv (s : State) : Host.Outcome State Fault Refusal :=
  completeFlow (s.returnValue .retv, .redirected)

/-- `RETZ` (45_call_return.md R192): "clear call-target register, then perform return-with-value()". -/
def execRetz (s : State) : Host.Outcome State Fault Refusal :=
  completeFlow ({ s with ct := 0 }.returnValue .retz, .redirected)

end Sys2Proof.Machine
end

