-- ==== Sys2Proof/Machine/Console.lean ====
section
/-! DEFINITION. The console instructions (46_io.md). The two streams stand in State as data (notes/assumptions/2.md). -/

namespace Sys2Proof.Machine

/-- `CHAR_MAX`, the largest accepted character code (46_io.md R200). -/
def charMax : Nat := 0xFF

/-- What `RDC` does with the character it read: one above `CHAR_MAX` "sets the zero flag instead of writing", any other is written
zero-extended and reported in `Z` (46_io.md R200). -/
def State.acceptChar (s : State) (o : Operand) (c : Nat) : State :=
  if charMax < c then s.assignFlag .z true
  else (s.writeC o (BitVec.ofNat 16 c) .rdc).reportZero (BitVec.ofNat 16 c)

/-- `RDC` (46_io.md R200): the character is consumed whether or not it is accepted; with none waiting the cycle does not
complete (46_io.md R203). -/
def execRdc (o1 : Operand) (s : State) : Host.Outcome State Fault Refusal :=
  match s.consoleIn with
  | [] => .fault .consoleBlocked
  | c :: cs => complete [o1] ({ s with consoleIn := cs }.acceptChar o1 c)

/-- `ConsoleWrite(b)`: the byte joins the output stream (46_io.md R202). -/
def State.consoleWrite (s : State) (b : Byte) : State :=
  { s with consoleOut := s.consoleOut ++ [b] }

/-- `WRC` (46_io.md R201): the byte whose value is the operand's low nibble; no flag changes. -/
def execWrc (o1 : Operand) (s : State) : Host.Outcome State Fault Refusal :=
  complete [o1] (s.consoleWrite ((s.readC o1 &&& 0x000F).extractLsb' 0 8))

end Sys2Proof.Machine
end

