-- ==== Sys2Proof/Machine/ControlFlow.lean ====
section
/-! DEFINITION. The control-flow instructions (43_control_flow.md): one word each, no operand. -/

namespace Sys2Proof.Machine

/-- `JMP` (43_control_flow.md R161). -/
def execJmp (s : State) : Host.Outcome State Fault Refusal :=
  completeFlow s.jump

/-- `JZ` (43_control_flow.md R162). -/
def execJz (s : State) : Host.Outcome State Fault Refusal :=
  completeFlow (s.jumpIf .z)

/-- `JE` (43_control_flow.md R163). -/
def execJe (s : State) : Host.Outcome State Fault Refusal :=
  completeFlow (s.jumpIf .e)

/-- `JL` (43_control_flow.md R164). -/
def execJl (s : State) : Host.Outcome State Fault Refusal :=
  completeFlow (s.jumpIf .l)

/-- `JG` (43_control_flow.md R165). -/
def execJg (s : State) : Host.Outcome State Fault Refusal :=
  completeFlow (s.jumpIf .g)

/-- `JC` (43_control_flow.md R166). -/
def execJc (s : State) : Host.Outcome State Fault Refusal :=
  completeFlow (s.jumpIf .c)

/-- `JI` (43_control_flow.md R167). -/
def execJi (s : State) : Host.Outcome State Fault Refusal :=
  completeFlow (s.jumpIf .i)

/-- `JSE` (43_control_flow.md R168). -/
def execJse (s : State) : Host.Outcome State Fault Refusal :=
  completeFlow (s.jumpIf .se)

/-- `JSF` (43_control_flow.md R169). -/
def execJsf (s : State) : Host.Outcome State Fault Refusal :=
  completeFlow (s.jumpIf .sf)

/-- `CLZ` (43_control_flow.md R170). -/
def execClz (s : State) : Host.Outcome State Fault Refusal :=
  complete [] (s.assignFlag .z false)

/-- `CLC` (43_control_flow.md R171). -/
def execClc (s : State) : Host.Outcome State Fault Refusal :=
  complete [] (s.assignFlag .c false)

/-- `CLA` (43_control_flow.md R172). -/
def execCla (s : State) : Host.Outcome State Fault Refusal :=
  complete [] s.clearFlags

end Sys2Proof.Machine
end

