-- ==== Sys2Proof/Machine/DataMovement.lean ====
section
/-! DEFINITION. The data movement instructions (42_data_movement.md). Each but `CMP` reports the value it writes to its primary
destination in `Z` (R148). -/

namespace Sys2Proof.Machine

/-- The common end of the copies: the value goes to its destination and is reported in `Z` (42_data_movement.md R148). -/
def State.moveC (s : State) (o : Operand) (v : Word) (opc : Opcode) : State :=
  (s.writeC o v opc).reportZero v

/-- `CPY` (42_data_movement.md R140). -/
def execCpy (o1 o2 : Operand) (s : State) : Host.Outcome State Fault Refusal :=
  complete [o1, o2] (s.moveC o1 (s.readC o2) .cpy)

/-- `MCP` (42_data_movement.md R141): "dest = src1 & src2". -/
def execMcp (o1 o2 o3 : Operand) (s : State) : Host.Outcome State Fault Refusal :=
  complete [o1, o2, o3] (s.moveC o1 (s.readC o2 &&& s.readC o3) .mcp)

/-- `ICP` (42_data_movement.md R142): the cell index of the second operand is the value, written raw. An operand that is no memory
operand is the fatal condition of cause 4, before any state change (60_exceptions.md R223). -/
def execIcp (o1 o2 : Operand) (s : State) : Host.Outcome State Fault Refusal :=
  match o2 with
  | .mem _ i => complete [o1, o2] ((s.writeR o1 i .icp).reportZero i)
  | .reg _ => .next (s.raiseFatal .fatalIllegalOperandKind)
  | .imm _ => .next (s.raiseFatal .fatalIllegalOperandKind)

/-- `CMP` (42_data_movement.md R143): `E`, `L`, `G` assigned, `Z` sticky when an operand is zero. -/
def execCmp (m : Mode) (o1 o2 : Operand) (s : State) : Host.Outcome State Fault Refusal :=
  let a := s.readC o1
  let b := s.readC o2
  let x := value m a
  let y := value m b
  complete [o1, o2]
    ((((s.assignFlag .e (decide (x = y))).assignFlag .l (decide (x < y))).assignFlag .g (decide (y < x))).stickFlag .z
      (a == 0 || b == 0))

/-- `SWP` (42_data_movement.md R144): the first operand is written first, and `Z` is from the value it receives. -/
def execSwp (o1 o2 : Operand) (s : State) : Host.Outcome State Fault Refusal :=
  let a := s.readC o1
  let b := s.readC o2
  complete [o1, o2] (((s.writeC o1 b .swp).writeC o2 a .swp).reportZero b)

/-- The relative copy of `v` to the place `CT` away from the offset-target operand; a no-op with no flag change when that is no
memory operand (42_data_movement.md R145 to R147). -/
def State.relCopy (s : State) (target : Operand) (m : Mode) (v : Word) (opc : Opcode) : State :=
  match s.relTarget target m with
  | none => s
  | some o => s.moveC o v opc

/-- `RCF` (42_data_movement.md R146): the first operand is copied to the second's relative place. -/
def execRcf (m : Mode) (o1 o2 : Operand) (s : State) : Host.Outcome State Fault Refusal :=
  complete [o1, o2] (s.relCopy o2 m (s.readC o1) .rcf)

/-- `RCT` (42_data_movement.md R147): the second operand is copied to the first's relative place. -/
def execRct (m : Mode) (o1 o2 : Operand) (s : State) : Host.Outcome State Fault Refusal :=
  complete [o1, o2] (s.relCopy o1 m (s.readC o2) .rct)

end Sys2Proof.Machine
end

