-- ==== Sys2Proof/Machine/Misc.lean ====
section
/-! DEFINITION. The miscellaneous instructions (47_misc.md). -/

namespace Sys2Proof.Machine

/-- `HALT` (47_misc.md R210): the cycle completes, `IP` stays. -/
def execHalt (s : State) : Host.Outcome State Fault Refusal :=
  complete [] (s.halt .haltedByHalt)

/-- `NOP` (47_misc.md R211). -/
def execNop (s : State) : Host.Outcome State Fault Refusal :=
  complete [] s

/-- `CIP` (47_misc.md R212): the index of its own definition word. -/
def execCip (o1 : Operand) (s : State) : Host.Outcome State Fault Refusal :=
  complete [o1] ((s.writeC o1 s.ip .cip).reportZero s.ip)

end Sys2Proof.Machine
end

