-- ==== Sys2Proof/Machine/Stack.lean ====
section
/-! DEFINITION. The stack instructions (44_stack.md). -/

namespace Sys2Proof.Machine

/-- `PUSH` (44_stack.md R182): the operand is read before `SP` moves. -/
def execPush (o1 : Operand) (s : State) : Host.Outcome State Fault Refusal :=
  complete [o1] (s.push (s.readC o1))

/-- `POP` (44_stack.md R183). -/
def execPop (o1 : Operand) (s : State) : Host.Outcome State Fault Refusal :=
  complete [o1] (s.pop (some o1) .pop).2

end Sys2Proof.Machine
end

