-- ==== Sys2Proof/Machine/Dispatch.lean ====
section
/-! DEFINITION. The dispatch: one arm per instruction, each one call of its meaning. A meaning is the whole cycle after
decoding, sentinel zeroing and `IP` advance included (30_encoding.md R88; notes/assumptions/10.md). -/

namespace Sys2Proof.Machine

def exec (i : Instr) (s : State) : Host.Outcome State Fault Refusal :=
  match i with
  | .inc m o1 => Sys2Proof.Machine.execInc m o1 s
  | .dec m o1 => Sys2Proof.Machine.execDec m o1 s
  | .add m o1 o2 => Sys2Proof.Machine.execAdd m o1 o2 s
  | .sub m o1 o2 => Sys2Proof.Machine.execSub m o1 o2 s
  | .mul m o1 o2 => Sys2Proof.Machine.execMul m o1 o2 s
  | .div m o1 o2 => Sys2Proof.Machine.execDiv m o1 o2 s
  | .adc m o1 o2 => Sys2Proof.Machine.execAdc m o1 o2 s
  | .sbc m o1 o2 => Sys2Proof.Machine.execSbc m o1 o2 s
  | .and o1 o2 => Sys2Proof.Machine.execAnd o1 o2 s
  | .or o1 o2 => Sys2Proof.Machine.execOr o1 o2 s
  | .xor o1 o2 => Sys2Proof.Machine.execXor o1 o2 s
  | .not o1 => Sys2Proof.Machine.execNot o1 s
  | .shl o1 o2 => Sys2Proof.Machine.execShl o1 o2 s
  | .shr m o1 o2 => Sys2Proof.Machine.execShr m o1 o2 s
  | .rol o1 o2 => Sys2Proof.Machine.execRol o1 o2 s
  | .ror o1 o2 => Sys2Proof.Machine.execRor o1 o2 s
  | .bsw o1 => Sys2Proof.Machine.execBsw o1 s
  | .cpy o1 o2 => Sys2Proof.Machine.execCpy o1 o2 s
  | .mcp o1 o2 o3 => Sys2Proof.Machine.execMcp o1 o2 o3 s
  | .icp o1 o2 => Sys2Proof.Machine.execIcp o1 o2 s
  | .cmp m o1 o2 => Sys2Proof.Machine.execCmp m o1 o2 s
  | .swp o1 o2 => Sys2Proof.Machine.execSwp o1 o2 s
  | .rcf m o1 o2 => Sys2Proof.Machine.execRcf m o1 o2 s
  | .rct m o1 o2 => Sys2Proof.Machine.execRct m o1 o2 s
  | .jmp => Sys2Proof.Machine.execJmp s
  | .jz => Sys2Proof.Machine.execJz s
  | .je => Sys2Proof.Machine.execJe s
  | .jl => Sys2Proof.Machine.execJl s
  | .jg => Sys2Proof.Machine.execJg s
  | .jc => Sys2Proof.Machine.execJc s
  | .ji => Sys2Proof.Machine.execJi s
  | .jse => Sys2Proof.Machine.execJse s
  | .jsf => Sys2Proof.Machine.execJsf s
  | .clz => Sys2Proof.Machine.execClz s
  | .clc => Sys2Proof.Machine.execClc s
  | .cla => Sys2Proof.Machine.execCla s
  | .push o1 => Sys2Proof.Machine.execPush o1 s
  | .pop o1 => Sys2Proof.Machine.execPop o1 s
  | .call p1 p2 p3 => Sys2Proof.Machine.execCall p1 p2 p3 s
  | .retv => Sys2Proof.Machine.execRetv s
  | .retz => Sys2Proof.Machine.execRetz s
  | .rdc o1 => Sys2Proof.Machine.execRdc o1 s
  | .wrc o1 => Sys2Proof.Machine.execWrc o1 s
  | .halt => Sys2Proof.Machine.execHalt s
  | .nop => Sys2Proof.Machine.execNop s
  | .cip o1 => Sys2Proof.Machine.execCip o1 s

end Sys2Proof.Machine
end

