-- ==== Sys2Proof/Machine/Fetch.lean ====
section
/-! DEFINITION. Instruction fetch: code words are used as stored, and every index wraps (30_encoding.md R71, R86). -/

namespace Sys2Proof.Machine

/-- The instruction at a code index, none for an unrecognized opcode (30_encoding.md R82). -/
def State.decodeAt (s : State) (a : Word) : Option Instr :=
  decodeWindow (s.code.read a) (s.code.read (a + 1)) (s.code.read (a + 2)) (s.code.read (a + 3))

/-- Code words stored from an index on, wrapping. -/
def Memory.writeWords (m : Memory) (a : Word) (ws : List Word) : Memory :=
  match ws with
  | [] => m
  | w :: ws => Memory.writeWords (m.write a w) (a + 1) ws

/-- The state with code words stored where the next cycle fetches: at `IP`. -/
def State.withCodeAtIP (s : State) (ws : List Word) : State :=
  { s with code := s.code.writeWords s.ip ws }

end Sys2Proof.Machine
end

