-- ==== Sys2Proof/Machine/Step.lean ====
section
/-! DEFINITION. One step of the machine is one instruction cycle (30_encoding.md R88). -/

namespace Sys2Proof.Machine

/-- `Step`: nothing for a halted machine; the fatal condition of cause 3 for an unrecognized opcode; else the instruction at `IP`. -/
def step (s : State) : Host.Outcome State Fault Refusal :=
  if s.status = .running then
    match s.decodeAt s.ip with
    | none => .next (s.raiseFatal .fatalUnrecognizedOpcode)
    | some i => exec i s
  else .fault .halted

/-- The state with an instruction's words, numbered as the opcode table numbers them, stored at `IP` in `CODE`. -/
def State.withFetchWord (s : State) (nbits w : Nat) : State :=
  s.withCodeAtIP (tableWords nbits w)

end Sys2Proof.Machine
end

