-- ==== Sys2Proof/Machine/LoadPort.lean ====
section
/-! DEFINITION. The world before a run: the reset event, the load port, and the uncompressed image the loader reads
(20_memory.md R58 to R60, 70_reset_and_hazards.md R250 to R253). None of it is a step: "after the run starts … the load port
is not used again" (20_memory.md R58). -/

namespace Sys2Proof.Machine

/-- The reset event: the block at its reset values, the console streams as they are (70_reset_and_hazards.md R250). -/
def State.applyReset (s : State) : State :=
  { State.reset with consoleIn := s.consoleIn, consoleOut := s.consoleOut }

/-- The banks the load port reaches: `STACK` is not among them (20_memory.md R58). -/
inductive LoadBank
  | input
  | code
  | general
deriving DecidableEq, Repr

/-- One block of an image. -/
structure Block where
  bank : LoadBank
  words : List Word
deriving DecidableEq, Repr

/-- `MemWrite(b:k, 1, w_k)` for the words of a block, from index `k` on. -/
def Memory.loadFrom (m : Memory) (k : Word) (ws : List Word) : Memory :=
  match ws with
  | [] => m
  | w :: ws => Memory.loadFrom (m.write k w) (k + 1) ws

/-- The bank with the block's words at indices 1 to N (20_memory.md R58). -/
def State.putBlock (s : State) (b : Block) : State :=
  match b.bank with
  | .input => { s with input := s.input.loadFrom 1 b.words }
  | .code => { s with code := s.code.loadFrom 1 b.words }
  | .general => { s with general := s.general.loadFrom 1 b.words }

/-- `Load(b, [w_1 .. w_N])` with `N <= 65534` (20_memory.md R58); a longer block is refused (R59). -/
def loadBlock (b : Block) (s : State) : Host.Outcome State Fault Refusal :=
  if b.words.length ≤ Config.maxBlockWords then .next (s.putBlock b) else .refused .blockTooLong

/-- The blocks one after the other; `seen` holds the banks already loaded, and "a repeat is a fatal load error" (20_memory.md R59). -/
def loadAll (seen : List LoadBank) (bs : List Block) (s : State) : Host.Outcome State Fault Refusal :=
  match bs with
  | [] => .next s
  | b :: bs =>
    if seen.contains b.bank then .refused .blockRepeated
    else
      match loadBlock b s with
      | .next t => loadAll (b.bank :: seen) bs t
      | .fault f => .fault f
      | .refused r => .refused r

/-- Load the blocks of an image into the state left by reset (70_reset_and_hazards.md R252). -/
def loadBlocks (bs : List Block) (s : State) : Host.Outcome State Fault Refusal :=
  loadAll [] bs s

/-- "1=input bank, 2=code bank, 3=general bank" (20_memory.md R60). -/
def loadBankOf (t : Byte) : Option LoadBank :=
  if t = 1 then some .input else if t = 2 then some .code else if t = 3 then some .general else none

/-- The blocks of an image after its signature: type, little-endian word count, payload (20_memory.md R60). `fuel` bounds the
number of blocks; the length of the bytes is enough, since a block takes at least three. -/
def parseBlocks (fuel : Nat) (bs : List Byte) : Except Refusal (List Block) :=
  match fuel, bs with
  | _, [] => .ok []
  | fuel + 1, t :: lo :: hi :: rest =>
    match loadBankOf t with
    | none => .error .blockTypeUnknown
    | some bank =>
      let n := (hi ++ lo : Word).toNat
      if Config.maxBlockWords < n then .error .blockTooLong
      else if rest.length < 2 * n then .error .blockTruncated
      else
        match parseBlocks fuel (rest.drop (2 * n)) with
        | .error r => .error r
        | .ok blocks => .ok ({ bank := bank, words := wordsOfBytes (rest.take (2 * n)) } :: blocks)
  | _, _ => .error .blockTruncated

/-- The blocks of an image: signature `6D 43 54 46` for the standard form; `6D 43 54 5A` names the compressed form, which is refused
(20_memory.md R60, 93_implementation_defined.md row 10). -/
def parseImage (bs : List Byte) : Except Refusal (List Block) :=
  match bs with
  | a :: b :: c :: d :: rest =>
    if a = 0x6D ∧ b = 0x43 ∧ c = 0x54 ∧ d = 0x46 then parseBlocks rest.length rest
    else if a = 0x6D ∧ b = 0x43 ∧ c = 0x54 ∧ d = 0x5A then .error .compressedImage
    else .error .badSignature
  | _ => .error .badSignature

/-- The machine with an image loaded, before start: reset, then the image's blocks (70_reset_and_hazards.md R252, R253). -/
def bootImage (bs : List Byte) (s : State) : Host.Outcome State Fault Refusal :=
  match parseImage bs with
  | .error r => .refused r
  | .ok blocks => loadBlocks blocks s.applyReset

end Sys2Proof.Machine
end

