-- ==== Sys2Proof/Safety.lean ====
section
/-! DEFINITION. The vocabulary of the claims: the invariant of a state, and a state seen from outside as a table of places,
flags and streams, with the spec's operand accesses and stack procedures said over that table. The table knows nothing
of how a bank is held. -/

namespace Sys2Proof.Machine

/-! ## The invariant -/

/-- Every bank is in its canonical form. -/
def State.banksCanonical (s : State) : Prop :=
  s.code.wf ∧ s.input.wf ∧ s.general.wf ∧ s.stack.wf

/-- "Cell 0 of every bank is 0 at the start of every cycle" (20_memory.md R47). -/
def State.sentinelsZero (s : State) : Prop :=
  s.code.read 0 = 0 ∧ s.input.read 0 = 0 ∧ s.general.read 0 = 0 ∧ s.stack.read 0 = 0

/-- What holds of a state between two cycles. -/
def State.Inv (s : State) : Prop :=
  s.banksCanonical ∧ s.sentinelsZero

/-! ## Places -/

/-- The four banks (10_state.md R25). -/
inductive Bank
  | code
  | input
  | general
  | stack
deriving DecidableEq, Repr

/-- The bank a memory operand names. -/
def bankOf : DataBank → Bank
  | .general => .general
  | .input => .input

/-- The word registers but `IP` (10_state.md R10). -/
inductive XReg
  | g1
  | g2
  | g3
  | ct
  | cs
  | sp
  | sr
deriving DecidableEq, Repr

/-- Where a word stands: a register or a cell. -/
inductive Place
  | reg (r : XReg)
  | cell (b : Bank) (i : Word)
deriving DecidableEq, Repr

/-- Cell 0 of a bank (20_memory.md R46). -/
def Place.isSentinel : Place → Bool
  | .reg _ => false
  | .cell _ i => i == 0

/-- The bank's contents. -/
def State.bank (s : State) : Bank → Memory
  | .code => s.code
  | .input => s.input
  | .general => s.general
  | .stack => s.stack

/-- `x[r]`, read directly (00_scope.md section 5). -/
def State.x (s : State) : XReg → Word
  | .g1 => s.g1
  | .g2 => s.g2
  | .g3 => s.g3
  | .ct => s.ct
  | .cs => s.cs
  | .sp => s.sp
  | .sr => s.sr

/-- The word at a place, as it stands there: a register's value, a cell's stored word. -/
def State.get (s : State) : Place → Word
  | .reg r => s.x r
  | .cell b i => (s.bank b).read i

/-! ## Views -/

/-- All that a state shows. -/
structure View where
  place : Place → Word
  flag : Flag → Bool
  ip : Word
  status : HaltStatus
  consoleIn : List Nat
  consoleOut : List Byte

/-- What a state shows. -/
def State.view (s : State) : View :=
  { place := s.get
    flag := s.flag
    ip := s.ip
    status := s.status
    consoleIn := s.consoleIn
    consoleOut := s.consoleOut }

/-- The view with another word at a place. -/
def View.put (v : View) (p : Place) (w : Word) : View :=
  { v with place := fun q => if q = p then w else v.place q }

/-- The view with a flag set or cleared. -/
def View.setFlag (v : View) (f : Flag) (c : Bool) : View :=
  { v with flag := fun k => if k = f then c else v.flag k }

/-- The view with a flag set if `c` holds. -/
def View.stick (v : View) (f : Flag) (c : Bool) : View :=
  { v with flag := fun k => if k = f then c || v.flag k else v.flag k }

/-- The view with no flag set. -/
def View.noFlags (v : View) : View :=
  { v with flag := fun _ => false }

/-- The view with cell 0 of every bank at 0 (20_memory.md R47). -/
def View.swept (v : View) : View :=
  { v with place := fun p => if p.isSentinel then 0 else v.place p }

/-- The view at the end of a cycle that goes on `n` words further (30_encoding.md R88). -/
def View.ended (v : View) (n : Nat) : View :=
  { v.swept with ip := v.ip + BitVec.ofNat 16 n }

/-- The flags as a word, bit 0 for zero up to bit 7 for stack-full (10_state.md R14, R20). -/
def View.flagWord (v : View) : Word :=
  BitVec.ofNat 16
    ((v.flag .z).toNat + 2 * (v.flag .e).toNat + 4 * (v.flag .l).toNat + 8 * (v.flag .g).toNat + 16 * (v.flag .c).toNat
      + 32 * (v.flag .i).toNat + 64 * (v.flag .se).toNat + 128 * (v.flag .sf).toNat)

/-- What a register operand reads as, as an engine value (20_memory.md R48). -/
def View.readReg (v : View) : Reg → Word
  | .null => 0
  | .g1 => v.place (.reg .g1)
  | .g2 => v.place (.reg .g2)
  | .g3 => v.place (.reg .g3)
  | .ct => 0
  | .cs => v.place (.reg .cs)
  | .fl => v.flagWord
  | .sp => v.place (.reg .sp)

/-- `ReadC` over a view (20_memory.md R42). -/
def View.readC (v : View) : Operand → Word
  | .reg r => v.readReg r
  | .mem b i => if i = 0 then 0 else canon (v.place (.cell (bankOf b) i))
  | .imm w => w

/-- `ReadR` over a view (20_memory.md R43). -/
def View.readR (v : View) : Operand → Word
  | .reg r => canon (v.readReg r)
  | .mem b i => if i = 0 then 0 else v.place (.cell (bankOf b) i)
  | .imm w => w

/-- Where an operand write lands under every opcode but `CALL`, `RETV` and `RETZ`: nowhere for `NULL`, `FL`, `CS`, the input bank,
cell 0 and the internal literal (20_memory.md R44, R45, R48). -/
def targetOf : Operand → Option Place
  | .reg .null => none
  | .reg .g1 => some (.reg .g1)
  | .reg .g2 => some (.reg .g2)
  | .reg .g3 => some (.reg .g3)
  | .reg .ct => some (.reg .ct)
  | .reg .cs => none
  | .reg .fl => none
  | .reg .sp => some (.reg .sp)
  | .mem .general i => if i = 0 then none else some (.cell .general i)
  | .mem .input _ => none
  | .imm _ => none

/-- The word that stands at a place when an engine value is put there: a cell holds `canon` of it (20_memory.md R40). -/
def Place.storedForm (p : Place) (w : Word) : Word :=
  match p with
  | .reg _ => w
  | .cell _ _ => canon w

/-- The view after an ordinary canonical write. -/
def View.storeC (v : View) (o : Operand) (w : Word) : View :=
  match targetOf o with
  | none => v
  | some p => v.put p (p.storedForm w)

/-- The view after an ordinary raw write: what a canonical write of `canon w` leaves. -/
def View.storeR (v : View) (o : Operand) (w : Word) : View :=
  match targetOf o with
  | none => v
  | some (.reg r) => v.put (.reg r) (canon w)
  | some (.cell b i) => v.put (.cell b i) w

/-- The stack top. -/
def View.sp (v : View) : Word := v.place (.reg .sp)

/-- `Push` over a view (44_stack.md R180). -/
def View.push (v : View) (w : Word) : View :=
  if v.sp = 0 then v.setFlag .sf true
  else
    (((v.put (.reg .sp) (v.sp - 1)).put (.cell .stack (v.sp - 1)) w).stick .sf (v.sp == 1)).setFlag .z (w == 0)

/-- The word a pop yields (44_stack.md R181). -/
def View.top (v : View) : Word :=
  if v.sp = 0xFFFF then 0 else v.place (.cell .stack v.sp)

/-- `Pop` with the destination written by `dest` before `SP` moves (44_stack.md R181); on an empty stack too, where `dest` may write
`SP` (notes/assumptions/17.md). -/
def View.pop (v : View) (dest : View → Word → View) : View :=
  if v.sp = 0xFFFF then dest ((v.setFlag .se true).setFlag .z true) 0
  else
    let w := v.top
    let u := dest v w
    ((u.put (.reg .sp) (u.sp + 1)).stick .se (u.sp + 1 == 0xFFFF)).setFlag .z (w == 0)

/-- `Pop(none)`. -/
def View.drop (v : View) : View := v.pop (fun u _ => u)

/-! ## Calls over a view -/

/-- A call whose target is not zero, `n` words long (45_call_return.md R190). -/
def View.called (v : View) (p1 p2 p3 : Operand) (n : Nat) : View :=
  let v := v.push (v.place (.reg .cs))
  let v := v.push v.flagWord
  let v := v.push (v.place (.reg .g1))
  let v := v.push (v.place (.reg .g2))
  let v := v.push (v.place (.reg .g3))
  let v := v.push (BitVec.ofNat 16 n)
  let v := v.put (.reg .sr) v.sp
  let v := v.put (.reg .g1) (v.readC p1)
  let v := v.put (.reg .g2) (v.readC p2)
  let v := v.put (.reg .g3) (v.readC p3)
  let v := v.put (.reg .cs) v.ip
  let v := { v with ip := v.place (.reg .ct) }
  (v.put (.reg .ct) 0).noFlags

/-- The sequence of `RETV` (45_call_return.md R191). -/
def View.returned (v : View) : View :=
  let v := v.setFlag .z (v.place (.reg .ct) == 0)
  let v := v.put (.reg .sp) (v.place (.reg .sr))
  let n := v.top
  let v := v.drop
  let v := { v with ip := v.place (.reg .cs) + n }
  let v := v.drop.drop.drop.drop.drop
  (v.push (v.place (.reg .ct))).put (.reg .ct) 0

/-! ## Words of a claim -/

/-- The instruction completes at `s`: `exec` answers a next state, and it shows `v`. -/
def Completes (i : Instr) (s : State) (v : View) : Prop :=
  ∃ t, exec i s = .next t ∧ t.view = v

/-- The opcode number in the instruction's encoding (30_encoding.md R70, R76). -/
def HasOpcode (i : Instr) (n : BitVec 9) : Prop :=
  opcodeField ((encode i).headD 0) = n

/-- The view with `Z` assigned from a word, as a data-producing opcode reports it (42_data_movement.md R148). -/
def View.report (v : View) (w : Word) : View := v.setFlag .z (w == 0)

/-- The instruction carries opcode number `n` and completes at `s` without a redirect: `exec` answers a next state, which shows `v` with
cell 0 of every bank at 0 and `IP` behind the instruction's words (30_encoding.md R86, R88). A view is the whole of what a
state shows, so this is the frame of the instruction as well. -/
def Finishes (i : Instr) (n : BitVec 9) (s : State) (v : View) : Prop :=
  HasOpcode i n ∧ Completes i s (v.ended i.length)

/-- The 46 assigned opcode numbers, as 30_encoding.md R76 lists them. -/
def assignedOpcodes : List Nat :=
  [0x010, 0x011, 0x012, 0x013, 0x014, 0x015, 0x016, 0x017,
   0x020, 0x021, 0x022, 0x023, 0x024, 0x025, 0x026, 0x027, 0x028,
   0x030, 0x031, 0x032, 0x033, 0x034, 0x035, 0x036,
   0x040, 0x041, 0x042, 0x043, 0x044, 0x045, 0x046, 0x047, 0x048, 0x049, 0x04A, 0x04B,
   0x050, 0x051, 0x060, 0x061, 0x062, 0x070, 0x071, 0x080, 0x081, 0x082]

/-- The opcodes that look at the true value of `CT`: jumps, calls, returns and the relative copies (10_state.md R12). -/
def readsCallTarget (i : Instr) : Bool :=
  [Opcode.jmp, .jz, .je, .jl, .jg, .jc, .ji, .jse, .jsf, .call, .retv, .retz, .rcf, .rct].contains i.opcode

/-- The conditional jumps with the flag each tests (43_control_flow.md R162 to R169). -/
def conditionalJumps : List (Instr × Flag) :=
  [(.jz, .z), (.je, .e), (.jl, .l), (.jg, .g), (.jc, .c), (.ji, .i), (.jse, .se), (.jsf, .sf)]

/-- The instruction calls `Jump()` in this state: `JMP`, or a conditional jump whose flag is set. -/
def takesJump (i : Instr) (s : State) : Prop :=
  i = .jmp ∨ ∃ f, (i, f) ∈ conditionalJumps ∧ s.flag f = true

/-- The opcodes for which the mode bit says something (30_encoding.md R72). -/
def usesMode (op : Opcode) : Bool :=
  [Opcode.inc, .dec, .add, .sub, .mul, .div, .adc, .sbc, .shr, .cmp, .rcf, .rct].contains op

end Sys2Proof.Machine
end

