-- ==== Sys2Proof/Certificates/Slice0/Obligations.lean ====
section
/-! DEFINITION. The statements for the provers. Each docstring names the rule of spec/ it formalises. A statement about an
instruction gives everything its next state shows (`State.view`: registers, every cell of every bank, flags, `IP`, status,
streams), so that it is result and frame in one; `View.ended` is the end of the cycle (30_encoding.md R88). -/

namespace Sys2Proof.Machine

/-- The bank a block goes to. -/
def bankOfLoad : LoadBank → Bank
  | .input => .input
  | .code => .code
  | .general => .general

/-- The type byte of a block (20_memory.md R60). -/
def typeByte : LoadBank → Byte
  | .input => 1
  | .code => 2
  | .general => 3

/-- The bytes of a word in an image, least significant first (20_memory.md R51 c). -/
def imageWord (w : Word) : List Byte := [w.extractLsb' 0 8, w.extractLsb' 8 8]

/-- The bytes of a block in an image (20_memory.md R60). -/
def blockBytes (b : Block) : List Byte :=
  typeByte b.bank :: (imageWord (BitVec.ofNat 16 b.words.length) ++ b.words.flatMap imageWord)

/-- The bytes of a standard image (20_memory.md R60). -/
def imageBytes (bs : List Block) : List Byte :=
  [0x6D, 0x43, 0x54, 0x46] ++ bs.flatMap blockBytes

end Sys2Proof.Machine

open Sys2Proof Sys2Proof.Machine

/-! ## Reset, loading -/

/-- 10_state.md R34: what reset leaves in the block. -/
def Obligations.ResetLeavesStatedValues : Prop :=
  State.reset.sp = 0xFFFF ∧ State.reset.g1 = 0 ∧ State.reset.g2 = 0 ∧ State.reset.g3 = 0 ∧ State.reset.ct = 0 ∧
    State.reset.cs = 0 ∧ State.reset.fl = 0 ∧ (∀ f, State.reset.flag f = false) ∧ State.reset.sr = 0xFFFF ∧
    State.reset.ip = 1 ∧ State.reset.status.code = 0 ∧ ∀ (b : Bank) (i : Word), (State.reset.bank b).read i = 0

/-- The reset state satisfies the invariant that every step keeps; the canonical form in it is the model's (notes/assumptions/1.md). -/
def Obligations.ResetSatisfiesInvariant : Prop :=
  State.reset.Inv

/-- 70_reset_and_hazards.md R250: the reset event from any state, halted ones included; the streams are not affected. That the event is
no step is the model's choice (notes/assumptions/14.md). -/
def Obligations.ResetEventKeepsOnlyStreams : Prop :=
  ∀ s : State, s.applyReset.view =
    { State.reset.view with consoleIn := s.consoleIn, consoleOut := s.consoleOut }

/-- 20_memory.md R58: the load port writes word `w_k` to cell `k` of one bank and changes nothing else. -/
def Obligations.LoadPortFillsBankFromOne : Prop :=
  ∀ (b : Block) (s : State), b.words.length ≤ 65534 →
    ∃ t, loadBlock b s = .next t ∧ t.view =
      { s.view with
        place := fun p =>
          match p with
          | .reg r => s.x r
          | .cell c k =>
            if c = bankOfLoad b.bank ∧ 1 ≤ k.toNat ∧ k.toNat ≤ b.words.length then b.words.getD (k.toNat - 1) 0
            else (s.bank c).read k }

/-- 20_memory.md R59: a bank that two blocks of the list name, wherever they stand in it, ends the load; a list that names each bank at
most once is loaded block by block. That the rule is checked over one list is the model's choice (notes/assumptions/16.md). -/
def Obligations.RepeatedBlockIsRefused : Prop :=
  ∀ (bs : List Block) (s : State), (∀ b ∈ bs, b.words.length ≤ 65534) →
    (¬ (bs.map Block.bank).Nodup → loadBlocks bs s = .refused .blockRepeated) ∧
    ((bs.map Block.bank).Nodup → loadBlocks bs s = .next (bs.foldl State.putBlock s))

/-- 20_memory.md R60: the blocks of a standard image are read back from its bytes. -/
def Obligations.StandardImageParses : Prop :=
  ∀ bs : List Block, (∀ b ∈ bs, b.words.length ≤ 65534) → parseImage (imageBytes bs) = .ok bs

/-! ## Values and operand accesses -/

/-- 00_scope.md R3: `canon` exchanges the two bytes, and has the properties that every rule rests on. -/
def Obligations.CanonProperties : Prop :=
  ∀ v w : Word, canon w = w.extractLsb' 0 8 ++ w.extractLsb' 8 8 ∧ canon (canon w) = w ∧ (canon w = 0 ↔ w = 0) ∧ canon (v &&& w) = canon v &&& canon w ∧
    canon (v ||| w) = canon v ||| canon w ∧ canon (v ^^^ w) = canon v ^^^ canon w ∧ canon (~~~w) = ~~~(canon w) ∧
    canon (bswap16 w) = bswap16 (canon w)

/-- 20_memory.md R48: the two register gates, at every register and every opcode. -/
def Obligations.RegisterGates : Prop :=
  ∀ (s : State) (w : Word) (opc : Opcode),
    (s.regRead .null = 0 ∧ s.regRead .ct = 0 ∧ (s.regRead .fl).toNat = s.fl.toNat ∧ s.regRead .g1 = s.g1 ∧
      s.regRead .g2 = s.g2 ∧ s.regRead .g3 = s.g3 ∧ s.regRead .cs = s.cs ∧ s.regRead .sp = s.sp) ∧
    s.regWrite .null w opc = s ∧
    s.regWrite .fl w opc = (if opc ∈ [Opcode.call, .retv, .retz] then { s with fl := w.setWidth 8 } else s) ∧
    s.regWrite .cs w opc = (if opc = .call then { s with cs := w } else s) ∧
    s.regWrite .g1 w opc = { s with g1 := w } ∧ s.regWrite .g2 w opc = { s with g2 := w } ∧
    s.regWrite .g3 w opc = { s with g3 := w } ∧ s.regWrite .ct w opc = { s with ct := w } ∧
    s.regWrite .sp w opc = { s with sp := w }

/-- 20_memory.md R42 to R45: the four operand accesses, at every operand and every opcode. -/
def Obligations.OperandAccessesFollowTables : Prop :=
  ∀ (s : State) (r : Reg) (b : DataBank) (i v w : Word) (opc : Opcode),
    (s.readC (.reg r) = s.regRead r ∧ s.readR (.reg r) = canon (s.regRead r) ∧
      s.writeC (.reg r) v opc = s.regWrite r v opc ∧ s.writeR (.reg r) v opc = s.regWrite r (canon v) opc) ∧
    (s.readC (.imm w) = w ∧ s.readR (.imm w) = w ∧ s.writeC (.imm w) v opc = s ∧ s.writeR (.imm w) v opc = s) ∧
    (i = 0 → s.readC (.mem b i) = 0 ∧ s.readR (.mem b i) = 0 ∧ s.writeC (.mem b i) v opc = s ∧
      s.writeR (.mem b i) v opc = s) ∧
    (i ≠ 0 → s.readC (.mem b i) = canon ((s.bank (bankOf b)).read i) ∧ s.readR (.mem b i) = (s.bank (bankOf b)).read i ∧
      s.writeC (.mem .general i) v opc = { s with general := s.general.write i (canon v) } ∧
      s.writeR (.mem .general i) v opc = { s with general := s.general.write i v } ∧
      s.writeC (.mem .input i) v opc = s ∧ s.writeR (.mem .input i) v opc = s)

/-- 20_memory.md R42 to R45: a word written to a general cell under one convention is read back under it, and under the other
convention differs by one `canon`; a null cell and an input cell drop the write. -/
def Obligations.CellsKeepBothConventions : Prop :=
  ∀ (s : State) (i w : Word) (opc : Opcode) (b : DataBank),
    (i ≠ 0 →
      (s.writeC (.mem .general i) w opc).readC (.mem .general i) = w ∧
      (s.writeC (.mem .general i) w opc).readR (.mem .general i) = canon w ∧
      (s.writeR (.mem .general i) w opc).readR (.mem .general i) = w ∧
      (s.writeR (.mem .general i) w opc).readC (.mem .general i) = canon w ∧
      (s.writeR (.mem .general i) w opc).general.read i = w ∧
      ∀ j, j ≠ i →
        (s.writeC (.mem .general i) w opc).general.read j = s.general.read j ∧
        (s.writeR (.mem .general i) w opc).general.read j = s.general.read j) ∧
    s.writeC (.mem .input i) w opc = s ∧ s.writeR (.mem .input i) w opc = s ∧
    s.writeC (.mem b 0) w opc = s ∧ s.writeR (.mem b 0) w opc = s ∧
    s.readC (.mem b 0) = 0 ∧ s.readR (.mem b 0) = 0

/-! ## Encoding -/

/-- 30_encoding.md R89: words written out there, decoded and encoded. -/
def Obligations.WorkedEncodingsDecode : Prop :=
  decodeWords [0x0080] = .ok (.halt, []) ∧
  decodeWords [0x0010, 0x0010] = .ok (.inc .unsigned (.reg .g1), []) ∧
  decodeWords [0xA012, 0x0002, 0x0001] = .ok (.add .unsigned (.mem .general 2) (.mem .general 1), []) ∧
  decodeWords [0x3030, 0x0020, 0x0007] = .ok (.cpy (.reg .g2) (.mem .input 7), []) ∧
  decodeWords [0x8030, 0x0070, 0x0009] = .ok (.cpy (.mem .general 9) (.reg .sp), []) ∧
  decodeWords [0x0215, 0x0120] = .ok (.div .signed (.reg .g1) (.reg .g2), []) ∧
  decodeWords [0x2032, 0x0040, 0x0B00] = .ok (.icp (.reg .ct) (.mem .general 0x0B00), []) ∧
  decodeWords [0x2031, 0x0130, 0x0005] = .ok (.mcp (.reg .g1) (.mem .general 5) (.reg .g3), []) ∧
  decodeWords [0xA860, 0x0001, 0x0000, 0x0000] =
    .ok (.call (.mem .general 1) (.mem .general 0) (.mem .general 0), []) ∧
  encode (.mcp (.reg .g1) (.reg .g2) (.reg .g3)) = [0x0031, 0x1230] ∧
  encode (.push (.reg .null)) = [0x0050, 0x0000]

/-- 30_encoding.md sections 1 to 4: every instruction a program can hold is decoded from its own encoding, whatever follows. -/
def Obligations.DecodeInvertsEncode : Prop :=
  ∀ (i : Instr) (rest : List Word), i.wellFormed = true → decodeWords (encode i ++ rest) = .ok (i, rest)

/-- 30_encoding.md R83, R85 d: what the decoder reads is a program's instruction, of one to four words, found at the front of
the stream. -/
def Obligations.DecodedInstructionsAreWellFormed : Prop :=
  ∀ (ws rest : List Word) (i : Instr), decodeWords ws = .ok (i, rest) →
    i.wellFormed = true ∧ 1 ≤ i.length ∧ i.length ≤ 4 ∧ ws = ws.take i.length ++ rest

/-- 30_encoding.md R87: the definition word alone tells the length. -/
def Obligations.DefinitionWordTellsLength : Prop :=
  ∀ (w a b c a' b' c' : Word) (i j : Instr), decodeWindow w a b c = some i → decodeWindow w a' b' c' = some j →
    i.length = j.length ∧ i.opcode = j.opcode

/-- 30_encoding.md R85 d: bits the opcode does not use make no difference: the mode bit where it is ignored, descriptors beyond the
arity, a register descriptor's low bit, the unused nibbles of the selector word, and the bank bit of `ICP`'s literal. -/
def Obligations.IgnoredBitsDecodeAlike : Prop :=
  (∀ (op : Opcode) (w w' s s' a b : Word),
    opcodeField w = numberOf op → opcodeField w' = numberOf op → (usesMode op = true → modeField w = modeField w') →
    usedKinds w (arityOf op) = usedKinds w' (arityOf op) →
    0 < (usedKinds w (arityOf op)).countP Kind.isReg →
    (∀ k, 1 ≤ k → k ≤ (usedKinds w (arityOf op)).countP Kind.isReg → selectorCode s k = selectorCode s' k) →
    decodeWindow w s a b = decodeWindow w' s' a b) ∧
  (∀ (op : Opcode) (w w' a b c : Word),
    opcodeField w = numberOf op → opcodeField w' = numberOf op → (usesMode op = true → modeField w = modeField w') →
    usedKinds w (arityOf op) = usedKinds w' (arityOf op) →
    (usedKinds w (arityOf op)).countP Kind.isReg = 0 →
    decodeWindow w a b c = decodeWindow w' a b c) ∧
  kindOf 0b00 = kindOf 0b01 ∧
  ∀ (d : BitVec 2) (a b c : Word), decodeWindow (d ++ (0b10000000110010 : BitVec 14)) a b c =
    decodeWindow (d ++ (0b11000000110010 : BitVec 14)) a b c

/-! ## The cycle -/

/-- 30_encoding.md R88: when the code words at `IP` decode, the step is the instruction's own cycle, which includes the end of the
cycle (`State.endCycle`). -/
def Obligations.StepRunsDecodedInstruction : Prop :=
  ∀ (s : State) (i : Instr) (rest : List Word), s.status = .running →
    decodeWords [s.code.read s.ip, s.code.read (s.ip + 1), s.code.read (s.ip + 2), s.code.read (s.ip + 3)] = .ok (i, rest) →
    step s = exec i s

/-- 30_encoding.md R73, 60_exceptions.md R222: each unassigned opcode number ends the run with cause 3, whatever the other bits of
the word are, and nothing but the status changes. -/
def Obligations.UnassignedOpcodeIsFatal : Prop :=
  ∀ s : State, s.status = .running → (opcodeField (s.code.read s.ip)).toNat ∉ assignedOpcodes →
    step s = .next { s with status := .fatalUnrecognizedOpcode } ∧ HaltStatus.fatalUnrecognizedOpcode.code = 3

/-- 60_exceptions.md R220: what each halt status means, for every step of a running machine; `IP` is left at the instruction that
ended the run. -/
def Obligations.StatusTellsWhyRunEnded : Prop :=
  ∀ s t : State, s.status = .running → step s = .next t →
    (t.status.code = 1 ↔ s.decodeAt s.ip = some .halt) ∧
    (t.status.code = 2 ↔ s.ct = 0 ∧ ∃ i, s.decodeAt s.ip = some i ∧ takesJump i s) ∧
    (t.status.code = 3 ↔ (opcodeField (s.code.read s.ip)).toNat ∉ assignedOpcodes) ∧
    (t.status.code = 4 ↔ ∃ o1 o2, s.decodeAt s.ip = some (.icp o1 o2) ∧ o2.isMem = false) ∧
    (t.status.code ≠ 0 → t.ip = s.ip)

/-- 93_implementation_defined.md, end of section 1, and 30_encoding.md R88: a step is missing only for a halted machine and for a read
with no character waiting; nothing is refused. That these are faults is the model's choice (notes/assumptions/3.md, 4.md). -/
def Obligations.StepStopsOnlyHaltedOrBlocked : Prop :=
  ∀ s : State,
    (step s = .fault .halted ↔ s.status ≠ .running) ∧
    (step s = .fault .consoleBlocked ↔
      s.status = .running ∧ s.consoleIn = [] ∧ ∃ o, s.decodeAt s.ip = some (.rdc o)) ∧
    ∀ r, step s ≠ .refused r

/-! ## Arithmetic -/

/-- 40_arithmetic.md R100, R101. -/
def Obligations.IncAndDecResults : Prop :=
  ∀ (m : Mode) (o : Operand) (s : State), s.status = .running →
    Finishes (.inc m o) 0x010 s ((s.view.storeC o (s.readC o + 1)).report (s.readC o + 1)) ∧
    Finishes (.dec m o) 0x011 s ((s.view.storeC o (s.readC o - 1)).report (s.readC o - 1))

/-- 40_arithmetic.md R102, R103. -/
def Obligations.AddAndSubResults : Prop :=
  ∀ (m : Mode) (o1 o2 : Operand) (s : State), s.status = .running →
    Finishes (.add m o1 o2) 0x012 s
      ((s.view.storeC o1 (s.readC o1 + s.readC o2)).report (s.readC o1 + s.readC o2)) ∧
    Finishes (.sub m o1 o2) 0x013 s
      ((s.view.storeC o1 (s.readC o1 - s.readC o2)).report (s.readC o1 - s.readC o2))

/-- 40_arithmetic.md R104: the low 16 bits, the same word in both variants. -/
def Obligations.MulResult : Prop :=
  ∀ (m : Mode) (o1 o2 : Operand) (s : State), s.status = .running →
    Finishes (.mul m o1 o2) 0x014 s
      ((s.view.storeC o1 (s.readC o1 * s.readC o2)).report (s.readC o1 * s.readC o2))

/-- 40_arithmetic.md R105: the quotient of each variant, and division by zero. -/
def Obligations.DivResult : Prop :=
  ∀ (o1 o2 : Operand) (s : State), s.status = .running →
    (s.readC o2 = 0 → ∀ m : Mode,
      Finishes (.div m o1 o2) 0x015 s (((s.view.storeC o1 0).setFlag .i true).setFlag .z true)) ∧
    (s.readC o2 ≠ 0 →
      Finishes (.div .unsigned o1 o2) 0x015 s
        ((s.view.storeC o1 (s.readC o1 / s.readC o2)).report (s.readC o1 / s.readC o2)) ∧
      Finishes (.div .signed o1 o2) 0x015 s
        ((s.view.storeC o1 ((s.readC o1).sdiv (s.readC o2))).report ((s.readC o1).sdiv (s.readC o2))))

/-- 40_arithmetic.md R106, R107: the result, and the sticky report of a sign change. -/
def Obligations.AdcAndSbcResults : Prop :=
  ∀ (m : Mode) (o1 o2 : Operand) (s : State), s.status = .running →
    Finishes (.adc m o1 o2) 0x016 s
      (((s.view.storeC o1 (s.readC o1 + s.readC o2)).report (s.readC o1 + s.readC o2)).stick .c
        ((s.readC o1).msb != (s.readC o1 + s.readC o2).msb)) ∧
    Finishes (.sbc m o1 o2) 0x017 s
      (((s.view.storeC o1 (s.readC o1 - s.readC o2)).report (s.readC o1 - s.readC o2)).stick .c
        ((s.readC o1).msb != (s.readC o1 - s.readC o2).msb))

/-- 40_arithmetic.md R108: the variants of all but `DIV` agree, states and stops alike. -/
def Obligations.OnlyDivDependsOnMode : Prop :=
  (∀ (o1 o2 : Operand) (s : State),
    exec (.inc .signed o1) s = exec (.inc .unsigned o1) s ∧ exec (.dec .signed o1) s = exec (.dec .unsigned o1) s ∧
    exec (.add .signed o1 o2) s = exec (.add .unsigned o1 o2) s ∧
    exec (.sub .signed o1 o2) s = exec (.sub .unsigned o1 o2) s ∧
    exec (.mul .signed o1 o2) s = exec (.mul .unsigned o1 o2) s ∧
    exec (.adc .signed o1 o2) s = exec (.adc .unsigned o1 o2) s ∧
    exec (.sbc .signed o1 o2) s = exec (.sbc .unsigned o1 o2) s) ∧
  ∃ (o1 o2 : Operand) (s t u : State), exec (.div .signed o1 o2) s = .next t ∧
    exec (.div .unsigned o1 o2) s = .next u ∧ t.g1 ≠ u.g1

/-! ## Bitwise -/

/-- 41_bitwise.md R120, R121, R122. -/
def Obligations.AndOrXorResults : Prop :=
  ∀ (o1 o2 : Operand) (s : State), s.status = .running →
    Finishes (.and o1 o2) 0x020 s
      ((s.view.storeR o1 (s.readR o1 &&& s.readR o2)).report (s.readR o1 &&& s.readR o2)) ∧
    Finishes (.or o1 o2) 0x021 s
      ((s.view.storeR o1 (s.readR o1 ||| s.readR o2)).report (s.readR o1 ||| s.readR o2)) ∧
    Finishes (.xor o1 o2) 0x022 s
      ((s.view.storeR o1 (s.readR o1 ^^^ s.readR o2)).report (s.readR o1 ^^^ s.readR o2))

/-- 41_bitwise.md R123, R128: complement, and the two bytes exchanged. -/
def Obligations.NotAndBswResults : Prop :=
  ∀ (o : Operand) (s : State), s.status = .running →
    Finishes (.not o) 0x023 s
      ((s.view.storeR o (0xFFFF - s.readR o)).report (0xFFFF - s.readR o)) ∧
    Finishes (.bsw o) 0x028 s
      ((s.view.storeR o ((s.readR o).extractLsb' 0 8 ++ (s.readR o).extractLsb' 8 8)).report
        ((s.readR o).extractLsb' 0 8 ++ (s.readR o).extractLsb' 8 8))

/-- 41_bitwise.md R124: the product with a power of two, so that 16 or more places leave 0. -/
def Obligations.ShlResult : Prop :=
  ∀ (o1 o2 : Operand) (s : State), s.status = .running →
    Finishes (.shl o1 o2) 0x024 s
      ((s.view.storeR o1 (BitVec.ofNat 16 ((s.readR o1).toNat * 2 ^ (s.readR o2).toNat))).report
        (BitVec.ofNat 16 ((s.readR o1).toNat * 2 ^ (s.readR o2).toNat)))

/-- 41_bitwise.md R125: the floor of the quotient by a power of two, of the signed value for a signed shift of a word with its sign
bit set, so that 16 or more places leave 0xFFFF there and 0 elsewhere. -/
def Obligations.ShrResult : Prop :=
  ∀ (o1 o2 : Operand) (s : State), s.status = .running →
    Finishes (.shr .unsigned o1 o2) 0x025 s
      ((s.view.storeR o1 (BitVec.ofNat 16 ((s.readR o1).toNat / 2 ^ (s.readR o2).toNat))).report
        (BitVec.ofNat 16 ((s.readR o1).toNat / 2 ^ (s.readR o2).toNat))) ∧
    Finishes (.shr .signed o1 o2) 0x025 s
      ((s.view.storeR o1 (BitVec.ofInt 16 ((s.readR o1).toInt / 2 ^ (s.readR o2).toNat))).report
        (BitVec.ofInt 16 ((s.readR o1).toInt / 2 ^ (s.readR o2).toNat)))

/-- 41_bitwise.md R126, R127: bit `j` moves by the amount modulo 16. -/
def Obligations.RolAndRorResults : Prop :=
  ∀ (o1 o2 : Operand) (s : State), s.status = .running →
    ∃ l r : Word,
      (∀ j, j < 16 → l.getLsbD ((j + (s.readR o2).toNat) % 16) = (s.readR o1).getLsbD j) ∧
      (∀ j, j < 16 → r.getLsbD j = (s.readR o1).getLsbD ((j + (s.readR o2).toNat) % 16)) ∧
      Finishes (.rol o1 o2) 0x026 s ((s.view.storeR o1 l).report l) ∧
      Finishes (.ror o1 o2) 0x027 s ((s.view.storeR o1 r).report r)

/-! ## Data movement -/

/-- 42_data_movement.md R140, R141. -/
def Obligations.CpyAndMcpResults : Prop :=
  ∀ (o1 o2 o3 : Operand) (s : State), s.status = .running →
    Finishes (.cpy o1 o2) 0x030 s ((s.view.storeC o1 (s.readC o2)).report (s.readC o2)) ∧
    Finishes (.mcp o1 o2 o3) 0x031 s
      ((s.view.storeC o1 (s.readC o2 &&& s.readC o3)).report (s.readC o2 &&& s.readC o3))

/-- 42_data_movement.md R142: the literal written raw, whichever bank is named; a register in its place is fatal, with no state change
but the status. -/
def Obligations.IcpWritesLiteralRaw : Prop :=
  ∀ (o1 : Operand) (b : DataBank) (r : Reg) (i : Word) (s : State), s.status = .running →
    Finishes (.icp o1 (.mem b i)) 0x032 s ((s.view.storeR o1 i).report i) ∧
    exec (.icp o1 (.reg r)) s = .next { s with status := .fatalIllegalOperandKind }

/-- 60_exceptions.md R223: a register source is fatal with cause 4, before any write, and no other opcode raises it. -/
def Obligations.IcpRegisterSourceIsFatal : Prop :=
  (∀ (o1 : Operand) (r : Reg) (s : State),
    exec (.icp o1 (.reg r)) s = .next { s with status := .fatalIllegalOperandKind }) ∧
  HaltStatus.fatalIllegalOperandKind.code = 4 ∧
  ∀ (i : Instr) (s t : State), s.status = .running → exec i s = .next t → t.status = .fatalIllegalOperandKind →
    i.opcode = .icp

/-- 42_data_movement.md R143: exactly the order of the two values, and the sticky `Z`. -/
def Obligations.CmpResult : Prop :=
  ∀ (o1 o2 : Operand) (s : State), s.status = .running →
    Finishes (.cmp .unsigned o1 o2) 0x033 s
      ((((s.view.setFlag .e (s.readC o1 == s.readC o2)).setFlag .l ((s.readC o1).ult (s.readC o2))).setFlag .g
        ((s.readC o2).ult (s.readC o1))).stick .z (s.readC o1 == 0 || s.readC o2 == 0)) ∧
    Finishes (.cmp .signed o1 o2) 0x033 s
      ((((s.view.setFlag .e (s.readC o1 == s.readC o2)).setFlag .l ((s.readC o1).slt (s.readC o2))).setFlag .g
        ((s.readC o2).slt (s.readC o1))).stick .z (s.readC o1 == 0 || s.readC o2 == 0))

/-- 42_data_movement.md R144. -/
def Obligations.SwpResult : Prop :=
  ∀ (o1 o2 : Operand) (s : State), s.status = .running →
    Finishes (.swp o1 o2) 0x034 s
      (((s.view.storeC o1 (s.readC o2)).storeC o2 (s.readC o1)).report (s.readC o2))

/-- 42_data_movement.md R145, R146, R147: the copy lands `CT` above or below the offset-target's index, and a register there makes the
instruction a no-op with no flag change. -/
def Obligations.RelativeCopyResults : Prop :=
  ∀ (b : DataBank) (i : Word) (o : Operand) (r : Reg) (s : State), s.status = .running →
    Finishes (.rcf .unsigned o (.mem b i)) 0x035 s ((s.view.storeC (.mem b (i + s.ct)) (s.readC o)).report (s.readC o)) ∧
    Finishes (.rcf .signed o (.mem b i)) 0x035 s ((s.view.storeC (.mem b (i - s.ct)) (s.readC o)).report (s.readC o)) ∧
    Finishes (.rct .unsigned (.mem b i) o) 0x036 s ((s.view.storeC (.mem b (i + s.ct)) (s.readC o)).report (s.readC o)) ∧
    Finishes (.rct .signed (.mem b i) o) 0x036 s ((s.view.storeC (.mem b (i - s.ct)) (s.readC o)).report (s.readC o)) ∧
    ∀ m : Mode, Finishes (.rcf m o (.reg r)) 0x035 s s.view ∧ Finishes (.rct m (.reg r) o) 0x036 s s.view

/-! ## Control flow -/

/-- 43_control_flow.md R160, R161: the jump goes to `CT`, and halts with cause 2 at a zero `CT`. -/
def Obligations.JmpResult : Prop :=
  HasOpcode .jmp 0x040 ∧ ∀ s : State, s.status = .running →
    (s.ct ≠ 0 → Completes .jmp s { s.view.swept with ip := s.ct }) ∧
    (s.ct = 0 → Completes .jmp s { s.view.swept with status := .haltedByJumpToZero })

/-- 43_control_flow.md R162 to R169: a conditional jump is the jump when its flag is set, and one word further otherwise. -/
def Obligations.ConditionalJumpResults : Prop :=
  conditionalJumps.map (fun p => numberOf p.1.opcode) = [0x041, 0x042, 0x043, 0x044, 0x045, 0x046, 0x047, 0x048] ∧
  ∀ (i : Instr) (f : Flag) (s : State), (i, f) ∈ conditionalJumps → s.status = .running →
    (s.flag f = false → Completes i s (s.view.ended 1)) ∧
    (s.flag f = true → s.ct ≠ 0 → Completes i s { s.view.swept with ip := s.ct }) ∧
    (s.flag f = true → s.ct = 0 → Completes i s { s.view.swept with status := .haltedByJumpToZero })

/-- 43_control_flow.md R170, R171, R172. -/
def Obligations.FlagClearResults : Prop :=
  ∀ s : State, s.status = .running →
    Finishes .clz 0x049 s (s.view.setFlag .z false) ∧
    Finishes .clc 0x04A s (s.view.setFlag .c false) ∧
    Finishes .cla 0x04B s s.view.noFlags

/-! ## Stack -/

/-- 44_stack.md R180, R182: the push of the operand's value read before `SP` moves, from a full stack and from any other. -/
def Obligations.PushResult : Prop :=
  ∀ (o : Operand) (s : State), s.status = .running →
    (s.sp = 0 → Finishes (.push o) 0x050 s (s.view.setFlag .sf true)) ∧
    (s.sp ≠ 0 →
      Finishes (.push o) 0x050 s
        ((((s.view.put (.reg .sp) (s.sp - 1)).put (.cell .stack (s.sp - 1)) (s.readC o)).stick .sf (s.sp == 1)).report
          (s.readC o)))

/-- 44_stack.md R181, R183: the pop into the operand, which is written before `SP` moves, from an empty stack and from any other. That `POP %sp` on an empty stack leaves `SP` at 0 is the
model's choice (notes/assumptions/17.md). -/
def Obligations.PopResult : Prop :=
  ∀ (o : Operand) (s : State), s.status = .running →
    (s.sp = 0xFFFF →
      Finishes (.pop o) 0x051 s (((s.view.setFlag .se true).setFlag .z true).storeC o 0)) ∧
    (s.sp ≠ 0xFFFF → ∀ w p : Word, w = s.stack.read s.sp → p = (if o = .reg .sp then w + 1 else s.sp + 1) →
      Finishes (.pop o) 0x051 s ((((s.view.storeC o w).put (.reg .sp) p).stick .se (p == 0xFFFF)).report w))

/-- 44_stack.md R184 (a): a push then a pop gives the destination the pushed value, and the stack top returns. -/
def Obligations.PushThenPopRestores : Prop :=
  ∀ (o d : Operand) (s : State), s.status = .running → 2 ≤ s.sp.toNat → d ≠ .reg .sp →
    ∃ t u, exec (.push o) s = .next t ∧ exec (.pop d) t = .next u ∧ u.sp = s.sp ∧
      ∀ p, targetOf d = some p → u.get p = p.storedForm (s.readC o)

/-! ## Calls -/

/-- 45_call_return.md R190: a null call changes nothing; any other is the sequence of the rule. -/
def Obligations.CallResult : Prop :=
  ∀ (p1 p2 p3 : Operand) (s : State), s.status = .running →
    (s.ct = 0 → Finishes (.call p1 p2 p3) 0x060 s s.view) ∧
    (s.ct ≠ 0 → HasOpcode (.call p1 p2 p3) 0x060 ∧
      Completes (.call p1 p2 p3) s (s.view.called p1 p2 p3 (Instr.call p1 p2 p3).length).swept)

/-- 45_call_return.md R190, the frame: with six free cells, where each saved word stands, and that no other stack cell changes. -/
def Obligations.CallFrameLayout : Prop :=
  ∀ (p1 p2 p3 : Operand) (s : State), s.status = .running → s.ct ≠ 0 → 7 ≤ s.sp.toNat →
    ∃ t, exec (.call p1 p2 p3) s = .next t ∧ t.sp = s.sp - 6 ∧ t.sr = s.sp - 6 ∧ t.cs = s.ip ∧ t.ip = s.ct ∧ t.ct = 0 ∧
      t.fl = 0 ∧ t.stack.read (s.sp - 1) = s.cs ∧
      t.stack.read (s.sp - 2) = (s.view.report s.cs).flagWord ∧
      t.stack.read (s.sp - 3) = s.g1 ∧ t.stack.read (s.sp - 4) = s.g2 ∧ t.stack.read (s.sp - 5) = s.g3 ∧
      t.stack.read (s.sp - 6) = BitVec.ofNat 16 (Instr.call p1 p2 p3).length ∧
      ∀ k : Word, k ≠ 0 → (k.toNat < s.sp.toNat - 6 ∨ s.sp.toNat ≤ k.toNat) → t.stack.read k = s.stack.read k

/-- 45_call_return.md R191, R192: the returns as the sequence of pops and the push of the rule. -/
def Obligations.ReturnResults : Prop :=
  ∀ s : State, s.status = .running →
    (HasOpcode .retv 0x061 ∧ Completes .retv s s.view.returned.swept) ∧
    (HasOpcode .retz 0x062 ∧ Completes .retz s (s.view.put (.reg .ct) 0).returned.swept)

/-- 45_call_return.md R191, net effect: after a call and a callee that left `SR`, `CS` and the length word alone, `RETV` resumes behind
the call, with the value on the stack top and the callee's registers and comparison flags kept. That the saved registers are dropped is
read as notes/assumptions/15.md says. -/
def Obligations.ReturnResumesAfterCall : Prop :=
  ∀ (p1 p2 p3 : Operand) (s t u : State), s.status = .running → s.ct ≠ 0 → 7 ≤ s.sp.toNat →
    exec (.call p1 p2 p3) s = .next t →
    u.status = .running → u.sr = t.sr → u.cs = t.cs → u.stack.read t.sr = t.stack.read t.sr →
    ∃ v, exec .retv u = .next v ∧ v.ip = s.ip + BitVec.ofNat 16 (Instr.call p1 p2 p3).length ∧
      v.sp = s.sp - 1 ∧ v.stack.read (s.sp - 1) = u.ct ∧ v.ct = 0 ∧ v.g1 = u.g1 ∧ v.g2 = u.g2 ∧ v.g3 = u.g3 ∧
      v.cs = u.cs ∧ v.sr = u.sr ∧ v.flag .z = (u.ct == 0) ∧ v.flag .e = u.flag .e ∧ v.flag .l = u.flag .l ∧
      v.flag .g = u.flag .g ∧ v.flag .c = u.flag .c ∧ v.flag .i = u.flag .i ∧
      v.flag .se = (u.flag .se || s.sp == 0xFFFF) ∧ v.flag .sf = u.flag .sf

/-! ## Console and misc -/

/-- 46_io.md R200: an accepted character is written and reported, a larger one only sets `Z`; either is consumed. -/
def Obligations.RdcResult : Prop :=
  ∀ (o : Operand) (c : Nat) (cs : List Nat) (s : State), s.status = .running → s.consoleIn = c :: cs →
    (c ≤ 255 →
      Finishes (.rdc o) 0x070 s
        { (s.view.storeC o (BitVec.ofNat 16 c)).setFlag .z (c == 0) with consoleIn := cs }) ∧
    (255 < c → Finishes (.rdc o) 0x070 s { s.view.setFlag .z true with consoleIn := cs })

/-- 46_io.md R203: with no character waiting the read does not complete, which the model shows as a fault (notes/assumptions/3.md). -/
def Obligations.RdcWithoutInputBlocks : Prop :=
  ∀ (o : Operand) (s : State), s.consoleIn = [] → exec (.rdc o) s = .fault .consoleBlocked

/-- 46_io.md R201: one byte, the low nibble; no flag, register or cell changes. -/
def Obligations.WrcResult : Prop :=
  ∀ (o : Operand) (s : State), s.status = .running →
    Finishes (.wrc o) 0x071 s
      { s.view with consoleOut := s.consoleOut ++ [BitVec.ofNat 8 ((s.readC o).toNat % 16)] }

/-- 46_io.md R202: the output stream only grows, by at most one byte a step, and nothing depends on what it holds. The stream is a field
of the model (notes/assumptions/2.md). -/
def Obligations.OutputIsNeverReadBack : Prop :=
  ∀ s t : State, step s = .next t →
    ∃ new : List Byte, t.consoleOut = s.consoleOut ++ new ∧ new.length ≤ 1 ∧ (∀ b ∈ new, b.toNat < 16) ∧
      ∀ old : List Byte, step { s with consoleOut := old } = .next { t with consoleOut := old ++ new }

/-- 47_misc.md R210, R211, R212. -/
def Obligations.MiscResults : Prop :=
  ∀ (o : Operand) (s : State), s.status = .running →
    (HasOpcode .halt 0x080 ∧ Completes .halt s { s.view.swept with status := .haltedByHalt }) ∧
    Finishes .nop 0x081 s s.view ∧
    Finishes (.cip o) 0x082 s ((s.view.storeC o s.ip).report s.ip)

/-! ## The whole machine -/

/-- 20_memory.md R47, and the canonical form, which is the model's (notes/assumptions/1.md): every step keeps the invariant. -/
def Obligations.StepKeepsInvariant : Prop :=
  ∀ s t : State, s.Inv → step s = .next t → t.Inv

/-- 10_state.md R26, R27, 20_memory.md R61: no step changes a cell of `CODE` or `INPUT`, but that cell 0 is zeroed. -/
def Obligations.CodeAndInputNeverChange : Prop :=
  ∀ (s t : State) (k : Word), step s = .next t → k ≠ 0 →
    t.code.read k = s.code.read k ∧ t.input.read k = s.input.read k

/-- 20_memory.md R54 with R49, 44_stack.md R182 and 45_call_return.md R190 to R192: a cell of `STACK` changes only by `PUSH`, `CALL`,
`RETV` and `RETZ`, and these four change no cell of `GENERAL` (`POP` may change one). -/
def Obligations.BanksChangeOnlyByTheirOpcodes : Prop :=
  ∀ (i : Instr) (s t : State) (k : Word), exec i s = .next t → k ≠ 0 →
    (i.opcode ∉ [Opcode.push, .call, .retv, .retz] → t.stack.read k = s.stack.read k) ∧
    (i.opcode ∈ [Opcode.push, .call, .retv, .retz] → t.general.read k = s.general.read k)

/-- 10_state.md R13, R16: `CS` and `SR` change only by `CALL`. -/
def Obligations.CallSiteAndSnapshotOnlyByCall : Prop :=
  ∀ (i : Instr) (s t : State), exec i s = .next t → i.opcode ≠ .call → t.cs = s.cs ∧ t.sr = s.sr

/-- 10_state.md R22: which opcodes move which flag, and which way. -/
def Obligations.FlagsMoveOnlyByTheirOpcodes : Prop :=
  ∀ (i : Instr) (s t : State), exec i s = .next t →
    (i.opcode ∉ [Opcode.cmp, .cla, .call] →
      t.flag .e = s.flag .e ∧ t.flag .l = s.flag .l ∧ t.flag .g = s.flag .g) ∧
    (t.flag .c = true → s.flag .c = false → i.opcode ∈ [Opcode.adc, .sbc]) ∧
    (t.flag .c = false → s.flag .c = true → i.opcode ∈ [Opcode.clc, .cla, .call]) ∧
    (t.flag .i = true → s.flag .i = false → i.opcode = .div) ∧
    (t.flag .i = false → s.flag .i = true → i.opcode ∈ [Opcode.cla, .call]) ∧
    (t.flag .se = true → s.flag .se = false → i.opcode ∈ [Opcode.pop, .retv, .retz]) ∧
    (t.flag .se = false → s.flag .se = true → i.opcode ∈ [Opcode.cla, .call]) ∧
    (t.flag .sf = true → s.flag .sf = false → i.opcode ∈ [Opcode.push, .call, .retv, .retz]) ∧
    (t.flag .sf = false → s.flag .sf = true → i.opcode ∈ [Opcode.cla, .call]) ∧
    (i.opcode ∈ [Opcode.wrc, .jmp, .jz, .je, .jl, .jg, .jc, .ji, .jse, .jsf, .clc, .halt, .nop] →
      t.flag .z = s.flag .z)

/-- 10_state.md R12: the true value of `CT` is visible only to the jumps, calls, returns and relative copies: under every other
instruction, states that differ in `CT` alone go on alike but for `CT`. -/
def Obligations.CallTargetIsHidden : Prop :=
  ∀ (i : Instr) (s : State) (c : Word), readsCallTarget i = false →
    (∀ t, exec i s = .next t → ∃ t', exec i { s with ct := c } = .next t' ∧ { t' with ct := t.ct } = t) ∧
    (∀ f, exec i s = .fault f → exec i { s with ct := c } = .fault f)
end

