-- ==== Sys2Proof/Laws/Decode.lean ====
section
/-! SUPPORT. The maps and the fields of the encoding, read back one by one. -/

namespace Sys2Proof

/-! ## The maps -/

theorem rowOfNumber_numberOf (o : Opcode) :
    rowOfNumber (numberOf o) = some { number := numberOf o, opcode := o, arity := arityOf o } := by
  cases o <;> rfl

/-- No two rows of the opcode map share a number or an opcode. -/
theorem opMap_injective :
    opMap.Pairwise (fun a b => a.number ≠ b.number ∧ a.opcode ≠ b.opcode) := by
  decide +kernel

theorem opMap_length : opMap.length = 46 := by decide +kernel

theorem operands_length (i : Instr) : i.operands.length = arityOf i.opcode := by
  cases i <;> rfl

theorem arityOf_le (o : Opcode) : arityOf o ≤ 3 := by
  cases o <;> decide

theorem regOfCode_codeOfReg (r : Reg) : regOfCode (codeOfReg r) = r := by
  cases r <;> rfl

/-- The kind of a program's operand. -/
def Operand.kind (o : Operand) : Kind :=
  match o with
  | .reg _ => .reg
  | .mem b _ => .mem b
  | .imm _ => .reg

theorem kindOf_descriptorOf (o : Operand) : kindOf (descriptorOf o) = o.kind := by
  rcases o with r | ⟨b, i⟩ | v
  · exact (by decide : kindOf 0b00 = .reg)
  · cases b
    · exact (by decide : kindOf 0b10 = .mem .general)
    · exact (by decide : kindOf 0b11 = .mem .input)
  · exact (by decide : kindOf 0b00 = .reg)

/-- A well-formed instruction is rebuilt from its opcode, its mode and its operands. -/
theorem buildInstr_self (i : Instr) (d1 d2 d3 : Operand) (h : i.literalPlain = true) :
    buildInstr i.opcode i.mode (i.operands.getD 0 d1) (i.operands.getD 1 d2) (i.operands.getD 2 d3) = i := by
  cases i
  case icp o1 o2 =>
    rcases o2 with r | ⟨b, j⟩ | v
    · rfl
    · cases b
      · rfl
      · simp [Instr.literalPlain, Instr.opcode, Instr.operands, Operand.namesInput] at h
    · rfl
  all_goals rfl

/-! ## The definition word -/

theorem extract_append_low {n m : Nat} (a : BitVec n) (b : BitVec m) : (a ++ b).extractLsb' 0 m = b := by
  apply BitVec.eq_of_getLsbD_eq
  intro k hk
  simp [BitVec.getLsbD_append, hk]

theorem extract_append_high {n m : Nat} (a : BitVec n) (b : BitVec m) (s l : Nat) (h : m ≤ s) :
    (a ++ b).extractLsb' s l = a.extractLsb' (s - m) l := by
  apply BitVec.eq_of_getLsbD_eq
  intro k hk
  have h1 : ¬ s + k < m := by omega
  have h2 : s + k - m = s - m + k := by omega
  simp [BitVec.getLsbD_append, hk, h1, h2]

theorem extract_self {n : Nat} (a : BitVec n) : a.extractLsb' 0 n = a := by
  apply BitVec.eq_of_getLsbD_eq
  intro k hk
  simp [hk]

/-- The opcode field of an encoded instruction is its opcode's number. -/
theorem opcodeField_definitionWord (i : Instr) : opcodeField (definitionWord i) = numberOf i.opcode :=
  extract_append_low _ _

/-- The mode bit of an encoded instruction is its mode. -/
theorem modeField_definitionWord (i : Instr) : modeField (definitionWord i) = i.mode := by
  have h : (definitionWord i).getLsbD 9 = (modeBit i.mode).getLsbD 0 := by
    unfold definitionWord
    simp only
    rw [BitVec.getLsbD_append, if_neg (by omega), BitVec.getLsbD_append, if_pos (by omega)]
  unfold modeField
  rw [h]
  cases i.mode <;> rfl

/-- The descriptors of an encoded instruction are its operands', 0 for an unused slot. -/
theorem descriptors_definitionWord (i : Instr) :
    descriptors (definitionWord i) =
      [(i.operands.map descriptorOf).getD 0 0, (i.operands.map descriptorOf).getD 1 0,
       (i.operands.map descriptorOf).getD 2 0] := by
  unfold descriptors definitionWord
  simp only
  refine congrArg₂ List.cons ?_ (congrArg₂ List.cons ?_ (congrArg₂ List.cons ?_ rfl))
  · rw [extract_append_high _ _ _ _ (by omega), extract_append_high _ _ _ _ (by omega),
      extract_append_high _ _ _ _ (by omega), extract_append_high _ _ _ _ (by omega)]
    exact extract_self _
  · rw [extract_append_high _ _ _ _ (by omega), extract_append_high _ _ _ _ (by omega),
      extract_append_high _ _ _ _ (by omega)]
    exact extract_append_low _ _
  · rw [extract_append_high _ _ _ _ (by omega), extract_append_high _ _ _ _ (by omega)]
    exact extract_append_low _ _

/-- The kinds the decoder sees in an encoded instruction are its operands'. -/
theorem usedKinds_definitionWord (i : Instr) :
    usedKinds (definitionWord i) (arityOf i.opcode) = i.operands.map Operand.kind := by
  unfold usedKinds
  rw [descriptors_definitionWord]
  cases i <;> simp [Instr.opcode, Instr.operands, arityOf, rowOfOpcode, opMap, arithmeticRows, bitwiseRows,
    dataMovementRows, controlFlowRows, remainingRows, kindOf_descriptorOf]

/-! ## The selector word -/

theorem selectorCode_cons (c : BitVec 4) (cs : List (BitVec 4)) (h : cs.length < 3) :
    selectorCode (selectorWord (c :: cs)) (cs.length + 1) = c := by
  match cs, h with
  | [], _ => revert c; decide +kernel
  | [a], _ => revert a c; decide +kernel
  | [a, b], _ => revert a b c; decide +kernel

/-- A nibble below a further register operand's is what it was without that operand. -/
theorem selectorCode_tail (c : BitVec 4) (cs : List (BitVec 4)) (k : Nat) (h0 : 0 < k)
    (hk : k ≤ cs.length) : selectorCode (selectorWord (c :: cs)) k = selectorCode (selectorWord cs) k := by
  have hcons : selectorWord (c :: cs) = (c.setWidth 16 <<< (4 + 4 * cs.length)) ||| selectorWord cs := rfl
  unfold selectorCode
  rw [hcons]
  apply BitVec.eq_of_getLsbD_eq
  intro j hj
  have h1 : 4 + 4 * (k - 1) + j < 4 + 4 * cs.length := by omega
  simp [BitVec.getLsbD_or, h1, hj]

/-! ## Length -/

theorem indexWords_length (os : List Operand) : (indexWords os).length = os.countP Operand.isMem := by
  induction os with
  | nil => rfl
  | cons o os ih =>
    cases o <;> simp_all [indexWords, Operand.isMem, List.countP_cons]

/-- The encoder writes as many words as the instruction is long (30_encoding.md R86). -/
theorem encode_length (i : Instr) : (encode i).length = i.length := by
  unfold encode Instr.length wordCount
  rw [List.length_cons, List.length_append, indexWords_length]
  split <;> simp <;> omega

theorem wordCount_bounds (os : List Operand) (h : os.length ≤ 3) : 1 ≤ wordCount os ∧ wordCount os ≤ 4 := by
  unfold wordCount
  have hle : os.countP Operand.isMem ≤ os.length := List.countP_le_length
  refine ⟨by omega, ?_⟩
  by_cases ha : os.any Operand.isReg = true
  · obtain ⟨o, ho, hr⟩ := List.any_eq_true.mp ha
    have hlt : os.countP Operand.isMem < os.length := by
      refine lt_of_le_of_ne hle (fun he => ?_)
      have := List.countP_eq_length.mp he o ho
      cases o <;> simp_all [Operand.isReg, Operand.isMem]
    rw [if_pos ha]
    omega
  · rw [if_neg ha]
    omega

end Sys2Proof
end

