-- ==== Sys2Proof/Laws/Flags.lean ====
section
/-! SUPPORT. What the flag updates do to each flag. -/

namespace Sys2Proof.Machine

/-- The bit number of a flag (10_state.md R20). -/
def Flag.index (f : Flag) : Nat :=
  match f with
  | .z => 0
  | .e => 1
  | .l => 2
  | .g => 3
  | .c => 4
  | .i => 5
  | .se => 6
  | .sf => 7

theorem mask_eq_twoPow (f : Flag) : f.mask = BitVec.twoPow 8 f.index := by
  cases f <;> decide

theorem flag_eq_getLsbD (s : State) (f : Flag) : s.flag f = s.fl.getLsbD f.index := by
  unfold State.flag
  rw [mask_eq_twoPow, BitVec.and_twoPow]
  by_cases h : s.fl.getLsbD f.index = true
  · rw [if_pos h, h]
    cases f <;> decide
  · rw [if_neg h]
    simpa using h

theorem mask_getLsbD (f k : Flag) : f.mask.getLsbD k.index = decide (k = f) := by
  cases f <;> cases k <;> decide

theorem not_mask_getLsbD (f k : Flag) : (~~~f.mask).getLsbD k.index = !decide (k = f) := by
  cases f <;> cases k <;> decide

/-- `F <- c` changes one flag. -/
theorem flag_assignFlag (s : State) (f k : Flag) (c : Bool) :
    (s.assignFlag f c).flag k = if k = f then c else s.flag k := by
  simp only [flag_eq_getLsbD, State.assignFlag]
  cases c
  · simp only [Bool.false_eq_true, if_false, BitVec.getLsbD_and, not_mask_getLsbD]
    by_cases h : k = f <;> simp [h]
  · by_cases h : k = f <;> simp [BitVec.getLsbD_or, mask_getLsbD, h]

/-- `F <- 1 if c` sets one flag or none. -/
theorem flag_stickFlag (s : State) (f k : Flag) (c : Bool) :
    (s.stickFlag f c).flag k = if k = f then c || s.flag k else s.flag k := by
  cases c
  · simp [State.stickFlag]
  · by_cases h : k = f <;> simp [State.stickFlag, flag_assignFlag, h]

theorem flag_reportZero (s : State) (v : Word) (k : Flag) :
    (s.reportZero v).flag k = if k = .z then v == 0 else s.flag k :=
  flag_assignFlag s .z k (v == 0)

theorem flag_clearFlags (s : State) (k : Flag) : s.clearFlags.flag k = false := by
  simp [flag_eq_getLsbD, State.clearFlags]

/-- The flags are the whole register: flags that agree make equal bytes (10_state.md R20). -/
theorem fl_eq_of_flags (a b : State) (h : ∀ f, a.flag f = b.flag f) : a.fl = b.fl := by
  apply BitVec.eq_of_getLsbD_eq
  intro k hk
  simp only [flag_eq_getLsbD] at h
  have h0 := h .z
  have h1 := h .e
  have h2 := h .l
  have h3 := h .g
  have h4 := h .c
  have h5 := h .i
  have h6 := h .se
  have h7 := h .sf
  simp only [Flag.index] at h0 h1 h2 h3 h4 h5 h6 h7
  interval_cases k <;> assumption

end Sys2Proof.Machine
end

