-- ==== Sys2Proof/Laws/Memory.lean ====
section
/-! SUPPORT. The laws of a bank: read after write, the canonical form kept by every operation, and equal readings of
canonical banks making equal data. -/

namespace Sys2Proof.Machine

/-! ## Bytes -/

@[simp] theorem readByte_nil (a : Nat) : Memory.readByte [] a = unlistedByte := rfl

theorem readByte_cons (c : Host.Cell) (cs : Memory) (a : Nat) :
    Memory.readByte (c :: cs) a = if c.1 = a then c.2 else Memory.readByte cs a := rfl

theorem readByte_eraseByte (m : Memory) (a b : Nat) :
    (m.eraseByte a).readByte b = if b = a then unlistedByte else m.readByte b := by
  induction m with
  | nil => simp [Memory.eraseByte]
  | cons c cs ih =>
    by_cases hc : c.1 = a
    · have he : Memory.eraseByte (c :: cs) a = Memory.eraseByte cs a := by
        simp [Memory.eraseByte, hc]
      rw [he, ih, readByte_cons]
      by_cases hb : b = a
      · simp [hb]
      · simp [hb, hc, Ne.symm hb]
    · have he : Memory.eraseByte (c :: cs) a = c :: Memory.eraseByte cs a := by
        simp [Memory.eraseByte, hc]
      rw [he, readByte_cons, ih, readByte_cons]
      by_cases hb : b = a
      · subst hb
        simp [hc]
      · simp [hb]

theorem readByte_insertByte (m : Memory) (a b : Nat) (v : Byte) :
    (m.insertByte a v).readByte b = if b = a then v else m.readByte b := by
  induction m with
  | nil => simp [Memory.insertByte, readByte_cons, eq_comm]
  | cons c cs ih =>
    unfold Memory.insertByte
    by_cases hlt : c.1 < a
    · rw [if_pos hlt, readByte_cons, readByte_cons, ih]
      by_cases hb : b = a
      · subst hb
        simp [Nat.ne_of_lt hlt]
      · simp [hb]
    · rw [if_neg hlt, readByte_cons]
      simp [eq_comm]

/-- Read after write of one byte, on any list. -/
theorem readByte_writeByte (m : Memory) (a b : Nat) (v : Byte) :
    (m.writeByte a v).readByte b = if b = a then v else m.readByte b := by
  unfold Memory.writeByte
  by_cases hv : v = unlistedByte
  · rw [if_pos hv, readByte_eraseByte, hv]
  · rw [if_neg hv, readByte_insertByte, readByte_eraseByte]
    by_cases hb : b = a <;> simp [hb]

/-! ## Words -/

@[simp] theorem read_nil (i : Word) : Memory.read [] i = 0 := by
  simp [Memory.read, unlistedByte]

/-- A bit vector is its high part before its low part. -/
theorem parts_of_bits {n m : Nat} (v : BitVec (n + m)) : v.extractLsb' m n ++ v.extractLsb' 0 m = v := by
  apply BitVec.eq_of_getLsbD_eq
  intro k hk
  rw [BitVec.getLsbD_append]
  by_cases hm : k < m
  · simp [hm]
  · have h9 : k - m < n := by omega
    have hk8 : m + (k - m) = k := by omega
    simp [hm, h9, hk8]

/-- Read after write of one word, on any list. -/
theorem read_write (m : Memory) (i j v : Word) :
    (m.write i v).read j = if j = i then v else m.read j := by
  have hinj : j = i ↔ j.toNat = i.toNat := BitVec.toNat_inj.symm
  unfold Memory.read Memory.write
  simp only [readByte_writeByte]
  by_cases h : j.toNat = i.toNat
  · have e1 : ¬ 2 * i.toNat = 2 * i.toNat + 1 := by omega
    rw [if_pos (hinj.mpr h), h]
    simp only [if_true, e1, if_false]
    exact parts_of_bits (n := 8) (m := 8) v
  · have e2 : ¬ 2 * j.toNat + 1 = 2 * i.toNat := by omega
    have e3 : ¬ 2 * j.toNat = 2 * i.toNat + 1 := by omega
    have e4 : ¬ 2 * j.toNat = 2 * i.toNat := by omega
    rw [if_neg (fun hj => h (hinj.mp hj))]
    simp [e2, e3, e4]

@[simp] theorem read_write_same (m : Memory) (i v : Word) : (m.write i v).read i = v := by
  simp [read_write]

theorem read_write_other (m : Memory) (i j v : Word) (h : j ≠ i) :
    (m.write i v).read j = m.read j := by
  simp [read_write, h]

/-! ## The canonical form -/

/-- The canonical form as a proposition: what `Memory.wf` decides. -/
def Memory.Canonical (m : Memory) : Prop :=
  m.Pairwise (fun c d => c.1 < d.1) ∧ ∀ c ∈ m, c.2 ≠ unlistedByte ∧ c.1 < 2 * Config.bankWords

theorem wf_iff (m : Memory) : m.wf = true ↔ m.Canonical :=
  decide_eq_true_iff

theorem canonical_nil : Memory.Canonical [] := by
  simp [Memory.Canonical]

theorem eraseByte_canonical (m : Memory) (a : Nat) (h : m.Canonical) : (m.eraseByte a).Canonical := by
  refine ⟨h.1.filter _, fun c hc => h.2 c ?_⟩
  exact (List.mem_filter.mp hc).1

theorem mem_insertByte (m : Memory) (a : Nat) (v : Byte) (c : Host.Cell) :
    c ∈ m.insertByte a v ↔ c = (a, v) ∨ c ∈ m := by
  induction m with
  | nil => simp [Memory.insertByte]
  | cons d ds ih =>
    unfold Memory.insertByte
    by_cases hlt : d.1 < a
    · rw [if_pos hlt]
      simp only [List.mem_cons, ih]
      tauto
    · rw [if_neg hlt]
      simp [List.mem_cons]

theorem insertByte_canonical (m : Memory) (a : Nat) (v : Byte) (h : m.Canonical) (ha : a < 2 * Config.bankWords)
    (hv : v ≠ unlistedByte) (hfree : ∀ c ∈ m, c.1 ≠ a) : (m.insertByte a v).Canonical := by
  refine ⟨?_, fun c hc => ?_⟩
  · induction m with
    | nil => simp [Memory.insertByte]
    | cons d ds ih =>
      have hds : Memory.Canonical ds := ⟨h.1.of_cons, fun c hc => h.2 c (List.mem_cons_of_mem _ hc)⟩
      have hd := List.pairwise_cons.mp h.1
      unfold Memory.insertByte
      by_cases hlt : d.1 < a
      · rw [if_pos hlt, List.pairwise_cons]
        refine ⟨fun c hc => ?_, ih hds (fun c hc => hfree c (List.mem_cons_of_mem _ hc))⟩
        rcases (mem_insertByte ds a v c).mp hc with rfl | hc
        · exact hlt
        · exact hd.1 c hc
      · rw [if_neg hlt, List.pairwise_cons]
        have hne := hfree d (List.mem_cons_self)
        refine ⟨fun c hc => ?_, h.1⟩
        rcases List.mem_cons.mp hc with rfl | hc
        · show a < _
          omega
        · have := hd.1 c hc
          show a < _
          omega
  · rcases (mem_insertByte m a v c).mp hc with rfl | hc
    · exact ⟨hv, ha⟩
    · exact h.2 c hc

theorem writeByte_canonical (m : Memory) (a : Nat) (v : Byte) (h : m.Canonical) (ha : a < 2 * Config.bankWords) :
    (m.writeByte a v).Canonical := by
  unfold Memory.writeByte
  by_cases hv : v = unlistedByte
  · rw [if_pos hv]
    exact eraseByte_canonical m a h
  · rw [if_neg hv]
    refine insertByte_canonical _ a v (eraseByte_canonical m a h) ha hv (fun c hc => ?_)
    simpa using (List.mem_filter.mp hc).2

theorem write_canonical (m : Memory) (i v : Word) (h : m.Canonical) : (m.write i v).Canonical := by
  have := i.isLt
  have hb : Config.bankWords = 65536 := rfl
  exact writeByte_canonical _ _ _ (writeByte_canonical _ _ _ h (by omega)) (by omega)

theorem wf_nil : Memory.wf [] = true := rfl

/-- Every store keeps the canonical form. -/
theorem write_wf (m : Memory) (i v : Word) (h : m.wf = true) : (m.write i v).wf = true :=
  (wf_iff _).mpr (write_canonical m i v ((wf_iff m).mp h))

/-! ## Equal readings, equal data -/

theorem readByte_of_lt (m : Memory) (a : Nat) (h : ∀ c ∈ m, a < c.1) : m.readByte a = unlistedByte := by
  induction m with
  | nil => rfl
  | cons c cs ih =>
    rw [readByte_cons, if_neg (Nat.ne_of_gt (h c List.mem_cons_self)), ih (fun d hd => h d (List.mem_cons_of_mem _ hd))]

theorem eq_of_readByte_canonical (m n : Memory) (hm : m.Canonical) (hn : n.Canonical) (h : ∀ a, m.readByte a = n.readByte a) : m = n := by
  induction m generalizing n with
  | nil =>
    cases n with
    | nil => rfl
    | cons d ds =>
      have hd := h d.1
      rw [readByte_cons, if_pos rfl] at hd
      exact absurd hd.symm (hn.2 d List.mem_cons_self).1
  | cons c cs ih =>
    have hc := List.pairwise_cons.mp hm.1
    cases n with
    | nil =>
      have hc1 := h c.1
      rw [readByte_cons, if_pos rfl] at hc1
      exact absurd hc1 (hm.2 c List.mem_cons_self).1
    | cons d ds =>
      have hd := List.pairwise_cons.mp hn.1
      have hcc := h c.1
      have hdd := h d.1
      rw [readByte_cons, if_pos rfl] at hcc
      rw [readByte_cons (a := d.1) d, if_pos rfl] at hdd
      have key : c.1 = d.1 := by
        rcases Nat.lt_trichotomy c.1 d.1 with hlt | heq | hgt
        · rw [readByte_of_lt (d :: ds) c.1 ?_] at hcc
          · exact absurd hcc (hm.2 c List.mem_cons_self).1
          · intro e he
            rcases List.mem_cons.mp he with rfl | he
            · exact hlt
            · exact Nat.lt_trans hlt (hd.1 e he)
        · exact heq
        · rw [readByte_of_lt (c :: cs) d.1 ?_] at hdd
          · exact absurd hdd.symm (hn.2 d List.mem_cons_self).1
          · intro e he
            rcases List.mem_cons.mp he with rfl | he
            · exact hgt
            · exact Nat.lt_trans hgt (hc.1 e he)
      have hcd : c = d := by
        rw [readByte_cons, if_pos key.symm] at hcc
        exact Prod.ext key hcc
      subst hcd
      congr 1
      refine ih ds ⟨hc.2, fun e he => hm.2 e (List.mem_cons_of_mem _ he)⟩
        ⟨hd.2, fun e he => hn.2 e (List.mem_cons_of_mem _ he)⟩ (fun a => ?_)
      by_cases ha : c.1 = a
      · subst ha
        rw [readByte_of_lt cs c.1 hc.1, readByte_of_lt ds c.1 hd.1]
      · have := h a
        rw [readByte_cons, readByte_cons, if_neg ha, if_neg ha] at this
        exact this

/-- Canonical banks whose bytes read alike are equal. -/
theorem eq_of_readByte (m n : Memory) (hm : m.wf = true) (hn : n.wf = true)
    (h : ∀ a, m.readByte a = n.readByte a) : m = n :=
  eq_of_readByte_canonical m n ((wf_iff m).mp hm) ((wf_iff n).mp hn) h

end Sys2Proof.Machine
end

