-- ==== Sys2Proof/Laws/State.lean ====
section
/-! SUPPORT. One lemma per field per named update of State, so that no later proof unfolds an update. Updates written as
records reduce by themselves. -/

namespace Sys2Proof.Machine

/-! ## assignFlag -/

@[simp] theorem assignFlag_g1 (s : State) (f : Flag) (c : Bool) : (s.assignFlag f c).g1 = s.g1 := rfl

@[simp] theorem assignFlag_g2 (s : State) (f : Flag) (c : Bool) : (s.assignFlag f c).g2 = s.g2 := rfl

@[simp] theorem assignFlag_g3 (s : State) (f : Flag) (c : Bool) : (s.assignFlag f c).g3 = s.g3 := rfl

@[simp] theorem assignFlag_ct (s : State) (f : Flag) (c : Bool) : (s.assignFlag f c).ct = s.ct := rfl

@[simp] theorem assignFlag_cs (s : State) (f : Flag) (c : Bool) : (s.assignFlag f c).cs = s.cs := rfl

@[simp] theorem assignFlag_sp (s : State) (f : Flag) (c : Bool) : (s.assignFlag f c).sp = s.sp := rfl

@[simp] theorem assignFlag_sr (s : State) (f : Flag) (c : Bool) : (s.assignFlag f c).sr = s.sr := rfl

@[simp] theorem assignFlag_ip (s : State) (f : Flag) (c : Bool) : (s.assignFlag f c).ip = s.ip := rfl

@[simp] theorem assignFlag_code (s : State) (f : Flag) (c : Bool) : (s.assignFlag f c).code = s.code := rfl

@[simp] theorem assignFlag_input (s : State) (f : Flag) (c : Bool) : (s.assignFlag f c).input = s.input := rfl

@[simp] theorem assignFlag_general (s : State) (f : Flag) (c : Bool) : (s.assignFlag f c).general = s.general := rfl

@[simp] theorem assignFlag_stack (s : State) (f : Flag) (c : Bool) : (s.assignFlag f c).stack = s.stack := rfl

@[simp] theorem assignFlag_status (s : State) (f : Flag) (c : Bool) : (s.assignFlag f c).status = s.status := rfl

@[simp] theorem assignFlag_consoleIn (s : State) (f : Flag) (c : Bool) : (s.assignFlag f c).consoleIn = s.consoleIn := rfl

@[simp] theorem assignFlag_consoleOut (s : State) (f : Flag) (c : Bool) : (s.assignFlag f c).consoleOut = s.consoleOut := rfl

/-! ## stickFlag -/

@[simp] theorem stickFlag_g1 (s : State) (f : Flag) (c : Bool) : (s.stickFlag f c).g1 = s.g1 := by cases c <;> rfl

@[simp] theorem stickFlag_g2 (s : State) (f : Flag) (c : Bool) : (s.stickFlag f c).g2 = s.g2 := by cases c <;> rfl

@[simp] theorem stickFlag_g3 (s : State) (f : Flag) (c : Bool) : (s.stickFlag f c).g3 = s.g3 := by cases c <;> rfl

@[simp] theorem stickFlag_ct (s : State) (f : Flag) (c : Bool) : (s.stickFlag f c).ct = s.ct := by cases c <;> rfl

@[simp] theorem stickFlag_cs (s : State) (f : Flag) (c : Bool) : (s.stickFlag f c).cs = s.cs := by cases c <;> rfl

@[simp] theorem stickFlag_sp (s : State) (f : Flag) (c : Bool) : (s.stickFlag f c).sp = s.sp := by cases c <;> rfl

@[simp] theorem stickFlag_sr (s : State) (f : Flag) (c : Bool) : (s.stickFlag f c).sr = s.sr := by cases c <;> rfl

@[simp] theorem stickFlag_ip (s : State) (f : Flag) (c : Bool) : (s.stickFlag f c).ip = s.ip := by cases c <;> rfl

@[simp] theorem stickFlag_code (s : State) (f : Flag) (c : Bool) : (s.stickFlag f c).code = s.code := by cases c <;> rfl

@[simp] theorem stickFlag_input (s : State) (f : Flag) (c : Bool) : (s.stickFlag f c).input = s.input := by cases c <;> rfl

@[simp] theorem stickFlag_general (s : State) (f : Flag) (c : Bool) : (s.stickFlag f c).general = s.general := by cases c <;> rfl

@[simp] theorem stickFlag_stack (s : State) (f : Flag) (c : Bool) : (s.stickFlag f c).stack = s.stack := by cases c <;> rfl

@[simp] theorem stickFlag_status (s : State) (f : Flag) (c : Bool) : (s.stickFlag f c).status = s.status := by cases c <;> rfl

@[simp] theorem stickFlag_consoleIn (s : State) (f : Flag) (c : Bool) : (s.stickFlag f c).consoleIn = s.consoleIn := by cases c <;> rfl

@[simp] theorem stickFlag_consoleOut (s : State) (f : Flag) (c : Bool) : (s.stickFlag f c).consoleOut = s.consoleOut := by cases c <;> rfl

/-! ## reportZero -/

@[simp] theorem reportZero_g1 (s : State) (v : Word) : (s.reportZero v).g1 = s.g1 := rfl

@[simp] theorem reportZero_g2 (s : State) (v : Word) : (s.reportZero v).g2 = s.g2 := rfl

@[simp] theorem reportZero_g3 (s : State) (v : Word) : (s.reportZero v).g3 = s.g3 := rfl

@[simp] theorem reportZero_ct (s : State) (v : Word) : (s.reportZero v).ct = s.ct := rfl

@[simp] theorem reportZero_cs (s : State) (v : Word) : (s.reportZero v).cs = s.cs := rfl

@[simp] theorem reportZero_sp (s : State) (v : Word) : (s.reportZero v).sp = s.sp := rfl

@[simp] theorem reportZero_sr (s : State) (v : Word) : (s.reportZero v).sr = s.sr := rfl

@[simp] theorem reportZero_ip (s : State) (v : Word) : (s.reportZero v).ip = s.ip := rfl

@[simp] theorem reportZero_code (s : State) (v : Word) : (s.reportZero v).code = s.code := rfl

@[simp] theorem reportZero_input (s : State) (v : Word) : (s.reportZero v).input = s.input := rfl

@[simp] theorem reportZero_general (s : State) (v : Word) : (s.reportZero v).general = s.general := rfl

@[simp] theorem reportZero_stack (s : State) (v : Word) : (s.reportZero v).stack = s.stack := rfl

@[simp] theorem reportZero_status (s : State) (v : Word) : (s.reportZero v).status = s.status := rfl

@[simp] theorem reportZero_consoleIn (s : State) (v : Word) : (s.reportZero v).consoleIn = s.consoleIn := rfl

@[simp] theorem reportZero_consoleOut (s : State) (v : Word) : (s.reportZero v).consoleOut = s.consoleOut := rfl

/-! ## clearFlags -/

@[simp] theorem clearFlags_g1 (s : State) : (s.clearFlags).g1 = s.g1 := rfl

@[simp] theorem clearFlags_g2 (s : State) : (s.clearFlags).g2 = s.g2 := rfl

@[simp] theorem clearFlags_g3 (s : State) : (s.clearFlags).g3 = s.g3 := rfl

@[simp] theorem clearFlags_ct (s : State) : (s.clearFlags).ct = s.ct := rfl

@[simp] theorem clearFlags_cs (s : State) : (s.clearFlags).cs = s.cs := rfl

@[simp] theorem clearFlags_sp (s : State) : (s.clearFlags).sp = s.sp := rfl

@[simp] theorem clearFlags_sr (s : State) : (s.clearFlags).sr = s.sr := rfl

@[simp] theorem clearFlags_ip (s : State) : (s.clearFlags).ip = s.ip := rfl

@[simp] theorem clearFlags_code (s : State) : (s.clearFlags).code = s.code := rfl

@[simp] theorem clearFlags_input (s : State) : (s.clearFlags).input = s.input := rfl

@[simp] theorem clearFlags_general (s : State) : (s.clearFlags).general = s.general := rfl

@[simp] theorem clearFlags_stack (s : State) : (s.clearFlags).stack = s.stack := rfl

@[simp] theorem clearFlags_status (s : State) : (s.clearFlags).status = s.status := rfl

@[simp] theorem clearFlags_consoleIn (s : State) : (s.clearFlags).consoleIn = s.consoleIn := rfl

@[simp] theorem clearFlags_consoleOut (s : State) : (s.clearFlags).consoleOut = s.consoleOut := rfl

/-! ## halt -/

@[simp] theorem halt_g1 (s : State) (c : HaltStatus) : (s.halt c).g1 = s.g1 := rfl

@[simp] theorem halt_g2 (s : State) (c : HaltStatus) : (s.halt c).g2 = s.g2 := rfl

@[simp] theorem halt_g3 (s : State) (c : HaltStatus) : (s.halt c).g3 = s.g3 := rfl

@[simp] theorem halt_ct (s : State) (c : HaltStatus) : (s.halt c).ct = s.ct := rfl

@[simp] theorem halt_cs (s : State) (c : HaltStatus) : (s.halt c).cs = s.cs := rfl

@[simp] theorem halt_fl (s : State) (c : HaltStatus) : (s.halt c).fl = s.fl := rfl

@[simp] theorem halt_sp (s : State) (c : HaltStatus) : (s.halt c).sp = s.sp := rfl

@[simp] theorem halt_sr (s : State) (c : HaltStatus) : (s.halt c).sr = s.sr := rfl

@[simp] theorem halt_ip (s : State) (c : HaltStatus) : (s.halt c).ip = s.ip := rfl

@[simp] theorem halt_code (s : State) (c : HaltStatus) : (s.halt c).code = s.code := rfl

@[simp] theorem halt_input (s : State) (c : HaltStatus) : (s.halt c).input = s.input := rfl

@[simp] theorem halt_general (s : State) (c : HaltStatus) : (s.halt c).general = s.general := rfl

@[simp] theorem halt_stack (s : State) (c : HaltStatus) : (s.halt c).stack = s.stack := rfl

@[simp] theorem halt_consoleIn (s : State) (c : HaltStatus) : (s.halt c).consoleIn = s.consoleIn := rfl

@[simp] theorem halt_consoleOut (s : State) (c : HaltStatus) : (s.halt c).consoleOut = s.consoleOut := rfl

/-! ## raiseFatal -/

@[simp] theorem raiseFatal_g1 (s : State) (c : HaltStatus) : (s.raiseFatal c).g1 = s.g1 := rfl

@[simp] theorem raiseFatal_g2 (s : State) (c : HaltStatus) : (s.raiseFatal c).g2 = s.g2 := rfl

@[simp] theorem raiseFatal_g3 (s : State) (c : HaltStatus) : (s.raiseFatal c).g3 = s.g3 := rfl

@[simp] theorem raiseFatal_ct (s : State) (c : HaltStatus) : (s.raiseFatal c).ct = s.ct := rfl

@[simp] theorem raiseFatal_cs (s : State) (c : HaltStatus) : (s.raiseFatal c).cs = s.cs := rfl

@[simp] theorem raiseFatal_fl (s : State) (c : HaltStatus) : (s.raiseFatal c).fl = s.fl := rfl

@[simp] theorem raiseFatal_sp (s : State) (c : HaltStatus) : (s.raiseFatal c).sp = s.sp := rfl

@[simp] theorem raiseFatal_sr (s : State) (c : HaltStatus) : (s.raiseFatal c).sr = s.sr := rfl

@[simp] theorem raiseFatal_ip (s : State) (c : HaltStatus) : (s.raiseFatal c).ip = s.ip := rfl

@[simp] theorem raiseFatal_code (s : State) (c : HaltStatus) : (s.raiseFatal c).code = s.code := rfl

@[simp] theorem raiseFatal_input (s : State) (c : HaltStatus) : (s.raiseFatal c).input = s.input := rfl

@[simp] theorem raiseFatal_general (s : State) (c : HaltStatus) : (s.raiseFatal c).general = s.general := rfl

@[simp] theorem raiseFatal_stack (s : State) (c : HaltStatus) : (s.raiseFatal c).stack = s.stack := rfl

@[simp] theorem raiseFatal_consoleIn (s : State) (c : HaltStatus) : (s.raiseFatal c).consoleIn = s.consoleIn := rfl

@[simp] theorem raiseFatal_consoleOut (s : State) (c : HaltStatus) : (s.raiseFatal c).consoleOut = s.consoleOut := rfl

/-! ## zeroSentinels -/

@[simp] theorem zeroSentinels_g1 (s : State) : (s.zeroSentinels).g1 = s.g1 := rfl

@[simp] theorem zeroSentinels_g2 (s : State) : (s.zeroSentinels).g2 = s.g2 := rfl

@[simp] theorem zeroSentinels_g3 (s : State) : (s.zeroSentinels).g3 = s.g3 := rfl

@[simp] theorem zeroSentinels_ct (s : State) : (s.zeroSentinels).ct = s.ct := rfl

@[simp] theorem zeroSentinels_cs (s : State) : (s.zeroSentinels).cs = s.cs := rfl

@[simp] theorem zeroSentinels_fl (s : State) : (s.zeroSentinels).fl = s.fl := rfl

@[simp] theorem zeroSentinels_sp (s : State) : (s.zeroSentinels).sp = s.sp := rfl

@[simp] theorem zeroSentinels_sr (s : State) : (s.zeroSentinels).sr = s.sr := rfl

@[simp] theorem zeroSentinels_ip (s : State) : (s.zeroSentinels).ip = s.ip := rfl

@[simp] theorem zeroSentinels_status (s : State) : (s.zeroSentinels).status = s.status := rfl

@[simp] theorem zeroSentinels_consoleIn (s : State) : (s.zeroSentinels).consoleIn = s.consoleIn := rfl

@[simp] theorem zeroSentinels_consoleOut (s : State) : (s.zeroSentinels).consoleOut = s.consoleOut := rfl

/-! ## consoleWrite -/

@[simp] theorem consoleWrite_g1 (s : State) (b : Byte) : (s.consoleWrite b).g1 = s.g1 := rfl

@[simp] theorem consoleWrite_g2 (s : State) (b : Byte) : (s.consoleWrite b).g2 = s.g2 := rfl

@[simp] theorem consoleWrite_g3 (s : State) (b : Byte) : (s.consoleWrite b).g3 = s.g3 := rfl

@[simp] theorem consoleWrite_ct (s : State) (b : Byte) : (s.consoleWrite b).ct = s.ct := rfl

@[simp] theorem consoleWrite_cs (s : State) (b : Byte) : (s.consoleWrite b).cs = s.cs := rfl

@[simp] theorem consoleWrite_fl (s : State) (b : Byte) : (s.consoleWrite b).fl = s.fl := rfl

@[simp] theorem consoleWrite_sp (s : State) (b : Byte) : (s.consoleWrite b).sp = s.sp := rfl

@[simp] theorem consoleWrite_sr (s : State) (b : Byte) : (s.consoleWrite b).sr = s.sr := rfl

@[simp] theorem consoleWrite_ip (s : State) (b : Byte) : (s.consoleWrite b).ip = s.ip := rfl

@[simp] theorem consoleWrite_code (s : State) (b : Byte) : (s.consoleWrite b).code = s.code := rfl

@[simp] theorem consoleWrite_input (s : State) (b : Byte) : (s.consoleWrite b).input = s.input := rfl

@[simp] theorem consoleWrite_general (s : State) (b : Byte) : (s.consoleWrite b).general = s.general := rfl

@[simp] theorem consoleWrite_stack (s : State) (b : Byte) : (s.consoleWrite b).stack = s.stack := rfl

@[simp] theorem consoleWrite_status (s : State) (b : Byte) : (s.consoleWrite b).status = s.status := rfl

@[simp] theorem consoleWrite_consoleIn (s : State) (b : Byte) : (s.consoleWrite b).consoleIn = s.consoleIn := rfl

@[simp] theorem clearFlags_fl (s : State) : s.clearFlags.fl = 0 := rfl

@[simp] theorem halt_status (s : State) (c : HaltStatus) : (s.halt c).status = c := rfl

@[simp] theorem raiseFatal_status (s : State) (c : HaltStatus) : (s.raiseFatal c).status = c := rfl

@[simp] theorem consoleWrite_consoleOut (s : State) (b : Byte) : (s.consoleWrite b).consoleOut = s.consoleOut ++ [b] := rfl

@[simp] theorem zeroSentinels_code (s : State) : s.zeroSentinels.code = s.code.write 0 0 := rfl

@[simp] theorem zeroSentinels_input (s : State) : s.zeroSentinels.input = s.input.write 0 0 := rfl

@[simp] theorem zeroSentinels_general (s : State) : s.zeroSentinels.general = s.general.write 0 0 := rfl

@[simp] theorem zeroSentinels_stack (s : State) : s.zeroSentinels.stack = s.stack.write 0 0 := rfl

end Sys2Proof.Machine
end

