-- ==== Sys2Proof/Laws/View.lean ====
section
/-! SUPPORT. One lemma per shared operation: what it does, said as what the state shows afterwards. A proof about an
instruction cites these and unfolds no operation. -/

namespace Sys2Proof.Machine

theorem view_eq {a b : View} (hp : ∀ p, a.place p = b.place p) (hf : ∀ f, a.flag f = b.flag f) (hi : a.ip = b.ip)
    (hs : a.status = b.status) (hc : a.consoleIn = b.consoleIn) (ho : a.consoleOut = b.consoleOut) : a = b := by
  obtain ⟨p, f, i, s, c, o⟩ := a
  obtain ⟨p', f', i', s', c', o'⟩ := b
  obtain rfl : p = p' := funext hp
  obtain rfl : f = f' := funext hf
  simp only at hi hs hc ho
  subst hi hs hc ho
  rfl

/-! ## Flags -/

theorem get_of_fl (s : State) (b : Byte) (p : Place) : { s with fl := b }.get p = s.get p := by
  rcases p with r | ⟨b, i⟩
  · cases r <;> rfl
  · cases b <;> rfl

theorem view_assignFlag (s : State) (f : Flag) (c : Bool) : (s.assignFlag f c).view = s.view.setFlag f c :=
  view_eq (fun p => get_of_fl s _ p) (fun k => flag_assignFlag s f k c) rfl rfl rfl rfl

theorem view_stickFlag (s : State) (f : Flag) (c : Bool) : (s.stickFlag f c).view = s.view.stick f c := by
  refine view_eq (fun p => ?_) (fun k => flag_stickFlag s f k c) ?_ ?_ ?_ ?_
  · cases c
    · rfl
    · exact get_of_fl s _ p
  all_goals cases c <;> rfl

theorem view_reportZero (s : State) (w : Word) : (s.reportZero w).view = s.view.setFlag .z (w == 0) :=
  view_assignFlag s .z (w == 0)

theorem view_clearFlags (s : State) : s.clearFlags.view = s.view.noFlags :=
  view_eq (fun p => get_of_fl s _ p) (fun k => flag_clearFlags s k) rfl rfl rfl rfl

/-! ## Registers, cells and streams -/

theorem view_set_g1 (s : State) (w : Word) : { s with g1 := w }.view = s.view.put (.reg .g1) w := by
  refine view_eq (fun p => ?_) (fun _ => rfl) rfl rfl rfl rfl
  rcases p with r | ⟨b, i⟩
  · cases r <;> rfl
  · cases b <;> rfl

theorem view_set_g2 (s : State) (w : Word) : { s with g2 := w }.view = s.view.put (.reg .g2) w := by
  refine view_eq (fun p => ?_) (fun _ => rfl) rfl rfl rfl rfl
  rcases p with r | ⟨b, i⟩
  · cases r <;> rfl
  · cases b <;> rfl

theorem view_set_g3 (s : State) (w : Word) : { s with g3 := w }.view = s.view.put (.reg .g3) w := by
  refine view_eq (fun p => ?_) (fun _ => rfl) rfl rfl rfl rfl
  rcases p with r | ⟨b, i⟩
  · cases r <;> rfl
  · cases b <;> rfl

theorem view_set_ct (s : State) (w : Word) : { s with ct := w }.view = s.view.put (.reg .ct) w := by
  refine view_eq (fun p => ?_) (fun _ => rfl) rfl rfl rfl rfl
  rcases p with r | ⟨b, i⟩
  · cases r <;> rfl
  · cases b <;> rfl

theorem view_set_cs (s : State) (w : Word) : { s with cs := w }.view = s.view.put (.reg .cs) w := by
  refine view_eq (fun p => ?_) (fun _ => rfl) rfl rfl rfl rfl
  rcases p with r | ⟨b, i⟩
  · cases r <;> rfl
  · cases b <;> rfl

theorem view_set_sp (s : State) (w : Word) : { s with sp := w }.view = s.view.put (.reg .sp) w := by
  refine view_eq (fun p => ?_) (fun _ => rfl) rfl rfl rfl rfl
  rcases p with r | ⟨b, i⟩
  · cases r <;> rfl
  · cases b <;> rfl

theorem view_set_sr (s : State) (w : Word) : { s with sr := w }.view = s.view.put (.reg .sr) w := by
  refine view_eq (fun p => ?_) (fun _ => rfl) rfl rfl rfl rfl
  rcases p with r | ⟨b, i⟩
  · cases r <;> rfl
  · cases b <;> rfl

theorem view_set_ip (s : State) (w : Word) : { s with ip := w }.view = { s.view with ip := w } := by
  refine view_eq (fun p => ?_) (fun _ => rfl) rfl rfl rfl rfl
  rcases p with r | ⟨b, i⟩
  · cases r <;> rfl
  · cases b <;> rfl

theorem view_halt (s : State) (c : HaltStatus) : (s.halt c).view = { s.view with status := c } := by
  refine view_eq (fun p => ?_) (fun _ => rfl) rfl rfl rfl rfl
  rcases p with r | ⟨b, i⟩
  · cases r <;> rfl
  · cases b <;> rfl

theorem view_raiseFatal (s : State) (c : HaltStatus) : (s.raiseFatal c).view = { s.view with status := c } :=
  view_halt s c

theorem view_consoleWrite (s : State) (b : Byte) :
    (s.consoleWrite b).view = { s.view with consoleOut := s.consoleOut ++ [b] } := by
  refine view_eq (fun p => ?_) (fun _ => rfl) rfl rfl rfl rfl
  rcases p with r | ⟨b, i⟩
  · cases r <;> rfl
  · cases b <;> rfl

theorem view_set_consoleIn (s : State) (l : List Nat) :
    { s with consoleIn := l }.view = { s.view with consoleIn := l } := by
  refine view_eq (fun p => ?_) (fun _ => rfl) rfl rfl rfl rfl
  rcases p with r | ⟨b, i⟩
  · cases r <;> rfl
  · cases b <;> rfl

theorem view_write_general (s : State) (i w : Word) :
    { s with general := s.general.write i w }.view = s.view.put (.cell .general i) w := by
  refine view_eq (fun p => ?_) (fun _ => rfl) rfl rfl rfl rfl
  rcases p with r | ⟨b, j⟩
  · cases r <;> rfl
  · cases b
    case general => simp [State.view, View.put, State.get, State.bank, read_write]
    all_goals simp [State.view, View.put, State.get, State.bank]

theorem view_write_stack (s : State) (i w : Word) :
    { s with stack := s.stack.write i w }.view = s.view.put (.cell .stack i) w := by
  refine view_eq (fun p => ?_) (fun _ => rfl) rfl rfl rfl rfl
  rcases p with r | ⟨b, j⟩
  · cases r <;> rfl
  · cases b
    case stack => simp [State.view, View.put, State.get, State.bank, read_write]
    all_goals simp [State.view, View.put, State.get, State.bank]

theorem view_zeroSentinels (s : State) : s.zeroSentinels.view = s.view.swept := by
  refine view_eq (fun p => ?_) (fun _ => rfl) rfl rfl rfl rfl
  rcases p with r | ⟨b, j⟩
  · cases r <;> rfl
  · cases b <;> simp [State.view, View.swept, State.get, State.bank, read_write, Place.isSentinel]

/-! ## The end of a cycle -/

theorem view_advanceIP (s : State) (n : Nat) (h : s.status = .running) :
    (s.advanceIP .advance n).view = { s.view with ip := s.ip + BitVec.ofNat 16 n } := by
  rw [State.advanceIP, if_pos ⟨h, rfl⟩, view_set_ip]

/-- A cycle that ends running and not redirected sweeps cell 0 and goes on. -/
theorem view_endCycle_advance (s : State) (n : Nat) (h : s.status = .running) :
    (s.endCycle .advance n).view = s.view.ended n := by
  rw [State.endCycle, view_advanceIP _ _ (by simpa using h), view_zeroSentinels]
  rfl

/-- A cycle that ends redirected sweeps cell 0 and keeps `IP`. -/
theorem view_endCycle_redirected (s : State) (n : Nat) : (s.endCycle .redirected n).view = s.view.swept := by
  rw [State.endCycle, State.advanceIP, if_neg (by simp), view_zeroSentinels]

/-- A cycle that ends halted sweeps cell 0 and keeps `IP`. -/
theorem view_endCycle_halted (s : State) (f : Flow) (n : Nat) (h : s.status ≠ .running) :
    (s.endCycle f n).view = s.view.swept := by
  rw [State.endCycle, State.advanceIP, if_neg (by simp [h]), view_zeroSentinels]

/-! ## Operand accesses -/

theorem flagWord_view (s : State) : s.view.flagWord = s.fl.setWidth 16 := by
  have key : ∀ b : Byte, BitVec.ofNat 16
      ((b.getLsbD 0).toNat + 2 * (b.getLsbD 1).toNat + 4 * (b.getLsbD 2).toNat + 8 * (b.getLsbD 3).toNat
        + 16 * (b.getLsbD 4).toNat + 32 * (b.getLsbD 5).toNat + 64 * (b.getLsbD 6).toNat + 128 * (b.getLsbD 7).toNat)
      = b.setWidth 16 := by decide +kernel
  rw [← key s.fl]
  simp only [View.flagWord, State.view, flag_eq_getLsbD, Flag.index]

theorem readReg_view (s : State) (r : Reg) : s.view.readReg r = s.regRead r := by
  cases r
  case fl => exact flagWord_view s
  all_goals rfl

/-- `ReadC` reads what the view says. -/
theorem readC_view (s : State) (o : Operand) : s.view.readC o = s.readC o := by
  rcases o with r | ⟨b, i⟩ | w
  · exact readReg_view s r
  · by_cases h : i = 0
    · simp [View.readC, State.readC, h]
    · cases b <;> simp only [View.readC, State.readC, State.cellRead, if_neg h] <;> rfl
  · rfl

/-- `ReadR` reads what the view says. -/
theorem readR_view (s : State) (o : Operand) : s.view.readR o = s.readR o := by
  rcases o with r | ⟨b, i⟩ | w
  · exact congrArg canon (readReg_view s r)
  · by_cases h : i = 0
    · simp [View.readR, State.readR, State.cellRead, h]
    · cases b <;> simp only [View.readR, State.readR, State.cellRead, if_neg h] <;> rfl
  · rfl

/-- An opcode under which the gates of `FL` and `CS` are shut (20_memory.md R48). -/
def ordinary (opc : Opcode) : Prop := mayWriteFL opc = false ∧ mayWriteCS opc = false

/-- `WriteC` under an ordinary opcode puts the word at the operand's target, if it has one. -/
theorem view_writeC (s : State) (o : Operand) (w : Word) (opc : Opcode) (h : ordinary opc) :
    (s.writeC o w opc).view = s.view.storeC o w := by
  rcases o with r | ⟨b, i⟩ | v
  · cases r
    case cs => simp [State.writeC, State.regWrite, h.2, View.storeC, targetOf]
    case fl => simp [State.writeC, State.regWrite, h.1, View.storeC, targetOf]
    case null => rfl
    case g1 => exact view_set_g1 s w
    case g2 => exact view_set_g2 s w
    case g3 => exact view_set_g3 s w
    case ct => exact view_set_ct s w
    case sp => exact view_set_sp s w
  · by_cases hi : i = 0
    · cases b <;> simp [State.writeC, State.cellWrite, hi, View.storeC, targetOf]
    · cases b
      case general =>
        simp only [State.writeC, State.cellWrite, if_neg hi, View.storeC, targetOf, Place.storedForm]
        exact view_write_general s i (canon w)
      case input => simp [State.writeC, State.cellWrite, View.storeC, targetOf]
  · rfl

/-- `WriteR` under an ordinary opcode puts the word at the operand's target, if it has one. -/
theorem view_writeR (s : State) (o : Operand) (w : Word) (opc : Opcode) (h : ordinary opc) :
    (s.writeR o w opc).view = s.view.storeR o w := by
  rcases o with r | ⟨b, i⟩ | v
  · cases r
    case cs => simp [State.writeR, State.regWrite, h.2, View.storeR, targetOf]
    case fl => simp [State.writeR, State.regWrite, h.1, View.storeR, targetOf]
    case null => rfl
    case g1 => exact view_set_g1 s (canon w)
    case g2 => exact view_set_g2 s (canon w)
    case g3 => exact view_set_g3 s (canon w)
    case ct => exact view_set_ct s (canon w)
    case sp => exact view_set_sp s (canon w)
  · by_cases hi : i = 0
    · cases b <;> simp [State.writeR, State.cellWrite, hi, View.storeR, targetOf]
    · cases b
      case general =>
        simp only [State.writeR, State.cellWrite, if_neg hi, View.storeR, targetOf]
        exact view_write_general s i w
      case input => simp [State.writeR, State.cellWrite, View.storeR, targetOf]
  · rfl

/-! ## Status under the operations -/

@[simp] theorem regWrite_status (s : State) (r : Reg) (w : Word) (opc : Opcode) :
    (s.regWrite r w opc).status = s.status := by
  cases r <;> simp only [State.regWrite] <;> split <;> rfl

@[simp] theorem cellWrite_status (s : State) (b : DataBank) (i w : Word) : (s.cellWrite b i w).status = s.status := by
  unfold State.cellWrite
  split
  · rfl
  · cases b <;> rfl

@[simp] theorem writeC_status (s : State) (o : Operand) (w : Word) (opc : Opcode) :
    (s.writeC o w opc).status = s.status := by
  cases o <;> simp [State.writeC]

@[simp] theorem writeR_status (s : State) (o : Operand) (w : Word) (opc : Opcode) :
    (s.writeR o w opc).status = s.status := by
  cases o <;> simp [State.writeR]

@[simp] theorem push_status (s : State) (w : Word) : (s.push w).status = s.status := by
  unfold State.push
  split <;> simp

@[simp] theorem popDest_status (s : State) (d : Option Operand) (w : Word) (opc : Opcode) :
    (s.popDest d w opc).status = s.status := by
  cases d <;> simp [State.popDest]

@[simp] theorem pop_status (s : State) (d : Option Operand) (opc : Opcode) : (s.pop d opc).2.status = s.status := by
  unfold State.pop
  split <;> simp

@[simp] theorem drop_status (s : State) (opc : Opcode) : (s.drop opc).status = s.status :=
  pop_status s none opc

/-! ## The stack procedures -/

/-- `Push` shows what the view's `Push` says. -/
theorem view_push (s : State) (w : Word) : (s.push w).view = s.view.push w := by
  have hsp : s.view.sp = s.sp := rfl
  unfold State.push View.push
  rw [hsp]
  by_cases h : s.sp = 0
  · rw [if_pos h, if_pos h, view_stickFlag]
    simp [View.stick, View.setFlag]
  · rw [if_neg h, if_neg h]
    have hone : (s.sp - 1 == 0) = (s.sp == 1) := by
      have : s.sp - 1 = 0 ↔ s.sp = 1 := by constructor <;> intro hh <;> bv_omega
      rw [Bool.eq_iff_iff]
      simpa using this
    simp only [view_reportZero, view_stickFlag, hone]
    rw [← view_set_sp, ← view_write_stack]

/-- The view's destination of a pop. -/
def viewDest (d : Option Operand) (v : View) (w : Word) : View :=
  match d with
  | none => v
  | some o => v.storeC o w

theorem view_popDest (s : State) (d : Option Operand) (w : Word) (opc : Opcode) (h : d = none ∨ ordinary opc) :
    (s.popDest d w opc).view = viewDest d s.view w := by
  cases d with
  | none => rfl
  | some o => exact view_writeC s o w opc (h.resolve_left (by simp))

/-- `Pop` yields the word the view's stack top says. -/
theorem pop_fst (s : State) (d : Option Operand) (opc : Opcode) : (s.pop d opc).1 = s.view.top := by
  have hsp : s.view.sp = s.sp := rfl
  unfold State.pop View.top
  rw [hsp]
  by_cases h : s.sp = 0xFFFF
  · rw [if_pos h, if_pos h]
  · rw [if_neg h, if_neg h]
    rfl

/-- `Pop` shows what the view's `Pop` says. -/
theorem view_pop (s : State) (d : Option Operand) (opc : Opcode) (h : d = none ∨ ordinary opc) :
    (s.pop d opc).2.view = s.view.pop (viewDest d) := by
  have hsp : s.view.sp = s.sp := rfl
  unfold State.pop View.pop
  rw [hsp]
  by_cases hs : s.sp = 0xFFFF
  · rw [if_pos hs, if_pos hs]
    simp only [view_popDest _ _ _ _ h, view_assignFlag, view_stickFlag]
    simp [View.stick, View.setFlag]
  · rw [if_neg hs, if_neg hs]
    have htop : s.view.top = s.stack.read s.sp := by
      unfold View.top
      rw [hsp, if_neg hs]
      rfl
    have hu : ∀ u : State, u.view.sp = u.sp := fun _ => rfl
    simp only [view_reportZero, view_stickFlag, view_set_sp, htop, ← view_popDest _ _ _ _ h, hu]

theorem view_drop (s : State) (opc : Opcode) : (s.drop opc).view = s.view.drop :=
  view_pop s none opc (.inl rfl)

end Sys2Proof.Machine
end

