-- ==== Sys2Proof/Laws/Cycle.lean ====
section
/-! SUPPORT. From what a meaning computes to what `exec` completes: the opcode number an instruction carries, and the end of a
cycle that is not redirected. -/

namespace Sys2Proof.Machine

/-- An instruction's encoding carries its opcode's number. -/
theorem hasOpcode_of_number (i : Instr) (n : BitVec 9) (h : numberOf i.opcode = n) : HasOpcode i n :=
  (opcodeField_definitionWord i).trans h

/-- A meaning that ends in `complete` with a running machine completes, and shows what its last state shows. -/
theorem finishes_of_complete (i : Instr) (n : BitVec 9) (s t : State) (hn : numberOf i.opcode = n)
    (he : exec i s = complete i.operands t) (hr : t.status = .running) : Finishes i n s t.view :=
  ⟨hasOpcode_of_number i n hn, _, he, view_endCycle_advance t _ hr⟩

/-- A one-word meaning that ends without a redirect completes one word further. -/
theorem completes_of_flow_advance (i : Instr) (s t : State) (he : exec i s = completeFlow (t, .advance))
    (hr : t.status = .running) : Completes i s (t.view.ended 1) :=
  ⟨_, he, view_endCycle_advance t _ hr⟩

/-- A one-word meaning that ends redirected completes with `IP` as the redirect left it. -/
theorem completes_of_flow_redirected (i : Instr) (s t : State) (he : exec i s = completeFlow (t, .redirected)) :
    Completes i s t.view.swept :=
  ⟨_, he, view_endCycle_redirected t _⟩

/-- A meaning that halts the machine completes with `IP` unmoved. -/
theorem completes_of_halted (i : Instr) (s t : State) (os : List Operand) (f : Flow)
    (he : exec i s = .next (t.endCycle f (wordCount os))) (hr : t.status ≠ .running) : Completes i s t.view.swept :=
  ⟨_, he, view_endCycle_halted t f _ hr⟩

/-! ## The common ends of a group -/

@[simp] theorem resultC_status (s : State) (o : Operand) (r : Word) (opc : Opcode) :
    (s.resultC o r opc).status = s.status := by
  simp [State.resultC]

@[simp] theorem resultR_status (s : State) (o : Operand) (r : Word) (opc : Opcode) :
    (s.resultR o r opc).status = s.status := by
  simp [State.resultR]

@[simp] theorem moveC_status (s : State) (o : Operand) (v : Word) (opc : Opcode) :
    (s.moveC o v opc).status = s.status := by
  simp [State.moveC]

theorem view_resultC (s : State) (o : Operand) (r : Word) (opc : Opcode) (h : ordinary opc) :
    (s.resultC o r opc).view = (s.view.storeC o r).report r := by
  rw [State.resultC, view_reportZero, view_writeC _ _ _ _ h]
  rfl

theorem view_resultR (s : State) (o : Operand) (r : Word) (opc : Opcode) (h : ordinary opc) :
    (s.resultR o r opc).view = (s.view.storeR o r).report r := by
  rw [State.resultR, view_reportZero, view_writeR _ _ _ _ h]
  rfl

theorem view_moveC (s : State) (o : Operand) (v : Word) (opc : Opcode) (h : ordinary opc) :
    (s.moveC o v opc).view = (s.view.storeC o v).report v := by
  rw [State.moveC, view_reportZero, view_writeC _ _ _ _ h]
  rfl

end Sys2Proof.Machine
end

