-- ==== Sys2Proof/Laws/Frames.lean ====
section
/-! SUPPORT. The fields each shared operation leaves alone, one lemma per field, so that no later proof unfolds an operation. -/

namespace Sys2Proof.Machine

/-! ## The operand accesses -/

@[simp] theorem regWrite_code (s : State) (r : Reg) (w : Word) (opc : Opcode) :
    (s.regWrite r w opc).code = s.code := by
  cases r <;> simp only [State.regWrite] <;> split <;> rfl

@[simp] theorem regWrite_input (s : State) (r : Reg) (w : Word) (opc : Opcode) :
    (s.regWrite r w opc).input = s.input := by
  cases r <;> simp only [State.regWrite] <;> split <;> rfl

@[simp] theorem regWrite_general (s : State) (r : Reg) (w : Word) (opc : Opcode) :
    (s.regWrite r w opc).general = s.general := by
  cases r <;> simp only [State.regWrite] <;> split <;> rfl

@[simp] theorem regWrite_stack (s : State) (r : Reg) (w : Word) (opc : Opcode) :
    (s.regWrite r w opc).stack = s.stack := by
  cases r <;> simp only [State.regWrite] <;> split <;> rfl

@[simp] theorem regWrite_sr (s : State) (r : Reg) (w : Word) (opc : Opcode) :
    (s.regWrite r w opc).sr = s.sr := by
  cases r <;> simp only [State.regWrite] <;> split <;> rfl

@[simp] theorem regWrite_ip (s : State) (r : Reg) (w : Word) (opc : Opcode) :
    (s.regWrite r w opc).ip = s.ip := by
  cases r <;> simp only [State.regWrite] <;> split <;> rfl

@[simp] theorem regWrite_consoleIn (s : State) (r : Reg) (w : Word) (opc : Opcode) :
    (s.regWrite r w opc).consoleIn = s.consoleIn := by
  cases r <;> simp only [State.regWrite] <;> split <;> rfl

@[simp] theorem regWrite_consoleOut (s : State) (r : Reg) (w : Word) (opc : Opcode) :
    (s.regWrite r w opc).consoleOut = s.consoleOut := by
  cases r <;> simp only [State.regWrite] <;> split <;> rfl

/-! ## Cells -/

@[simp] theorem cellWrite_g1 (s : State) (b : DataBank) (i w : Word) :
    (s.cellWrite b i w).g1 = s.g1 := by
  unfold State.cellWrite
  split
  · rfl
  · cases b <;> rfl

@[simp] theorem cellWrite_g2 (s : State) (b : DataBank) (i w : Word) :
    (s.cellWrite b i w).g2 = s.g2 := by
  unfold State.cellWrite
  split
  · rfl
  · cases b <;> rfl

@[simp] theorem cellWrite_g3 (s : State) (b : DataBank) (i w : Word) :
    (s.cellWrite b i w).g3 = s.g3 := by
  unfold State.cellWrite
  split
  · rfl
  · cases b <;> rfl

@[simp] theorem cellWrite_ct (s : State) (b : DataBank) (i w : Word) :
    (s.cellWrite b i w).ct = s.ct := by
  unfold State.cellWrite
  split
  · rfl
  · cases b <;> rfl

@[simp] theorem cellWrite_cs (s : State) (b : DataBank) (i w : Word) :
    (s.cellWrite b i w).cs = s.cs := by
  unfold State.cellWrite
  split
  · rfl
  · cases b <;> rfl

@[simp] theorem cellWrite_sp (s : State) (b : DataBank) (i w : Word) :
    (s.cellWrite b i w).sp = s.sp := by
  unfold State.cellWrite
  split
  · rfl
  · cases b <;> rfl

@[simp] theorem cellWrite_sr (s : State) (b : DataBank) (i w : Word) :
    (s.cellWrite b i w).sr = s.sr := by
  unfold State.cellWrite
  split
  · rfl
  · cases b <;> rfl

@[simp] theorem cellWrite_ip (s : State) (b : DataBank) (i w : Word) :
    (s.cellWrite b i w).ip = s.ip := by
  unfold State.cellWrite
  split
  · rfl
  · cases b <;> rfl

@[simp] theorem cellWrite_code (s : State) (b : DataBank) (i w : Word) :
    (s.cellWrite b i w).code = s.code := by
  unfold State.cellWrite
  split
  · rfl
  · cases b <;> rfl

@[simp] theorem cellWrite_input (s : State) (b : DataBank) (i w : Word) :
    (s.cellWrite b i w).input = s.input := by
  unfold State.cellWrite
  split
  · rfl
  · cases b <;> rfl

@[simp] theorem cellWrite_stack (s : State) (b : DataBank) (i w : Word) :
    (s.cellWrite b i w).stack = s.stack := by
  unfold State.cellWrite
  split
  · rfl
  · cases b <;> rfl

@[simp] theorem cellWrite_consoleIn (s : State) (b : DataBank) (i w : Word) :
    (s.cellWrite b i w).consoleIn = s.consoleIn := by
  unfold State.cellWrite
  split
  · rfl
  · cases b <;> rfl

@[simp] theorem cellWrite_consoleOut (s : State) (b : DataBank) (i w : Word) :
    (s.cellWrite b i w).consoleOut = s.consoleOut := by
  unfold State.cellWrite
  split
  · rfl
  · cases b <;> rfl

@[simp] theorem cellWrite_fl (s : State) (b : DataBank) (i w : Word) :
    (s.cellWrite b i w).fl = s.fl := by
  unfold State.cellWrite
  split
  · rfl
  · cases b <;> rfl

/-! ## writeC -/

@[simp] theorem writeC_code (s : State) (o : Operand) (w : Word) (opc : Opcode) :
    (s.writeC o w opc).code = s.code := by
  cases o <;> simp [State.writeC]

@[simp] theorem writeC_input (s : State) (o : Operand) (w : Word) (opc : Opcode) :
    (s.writeC o w opc).input = s.input := by
  cases o <;> simp [State.writeC]

@[simp] theorem writeC_stack (s : State) (o : Operand) (w : Word) (opc : Opcode) :
    (s.writeC o w opc).stack = s.stack := by
  cases o <;> simp [State.writeC]

@[simp] theorem writeC_sr (s : State) (o : Operand) (w : Word) (opc : Opcode) :
    (s.writeC o w opc).sr = s.sr := by
  cases o <;> simp [State.writeC]

@[simp] theorem writeC_ip (s : State) (o : Operand) (w : Word) (opc : Opcode) :
    (s.writeC o w opc).ip = s.ip := by
  cases o <;> simp [State.writeC]

@[simp] theorem writeC_consoleIn (s : State) (o : Operand) (w : Word) (opc : Opcode) :
    (s.writeC o w opc).consoleIn = s.consoleIn := by
  cases o <;> simp [State.writeC]

@[simp] theorem writeC_consoleOut (s : State) (o : Operand) (w : Word) (opc : Opcode) :
    (s.writeC o w opc).consoleOut = s.consoleOut := by
  cases o <;> simp [State.writeC]

/-- Under an ordinary opcode no operand write reaches `CS` (20_memory.md R48). -/
theorem writeC_cs (s : State) (o : Operand) (w : Word) (opc : Opcode) (h : ordinary opc) : (s.writeC o w opc).cs = s.cs := by
  rcases o with r | ⟨b, i⟩ | v
  · cases r <;> simp [State.writeC, State.regWrite, h.1, h.2]
  · simp [State.writeC]
  · rfl

/-- Under an ordinary opcode no operand write reaches `FL` (20_memory.md R48). -/
theorem writeC_fl (s : State) (o : Operand) (w : Word) (opc : Opcode) (h : ordinary opc) : (s.writeC o w opc).fl = s.fl := by
  rcases o with r | ⟨b, i⟩ | v
  · cases r <;> simp [State.writeC, State.regWrite, h.1, h.2]
  · simp [State.writeC]
  · rfl

/-! ## writeR -/

@[simp] theorem writeR_code (s : State) (o : Operand) (w : Word) (opc : Opcode) :
    (s.writeR o w opc).code = s.code := by
  cases o <;> simp [State.writeR]

@[simp] theorem writeR_input (s : State) (o : Operand) (w : Word) (opc : Opcode) :
    (s.writeR o w opc).input = s.input := by
  cases o <;> simp [State.writeR]

@[simp] theorem writeR_stack (s : State) (o : Operand) (w : Word) (opc : Opcode) :
    (s.writeR o w opc).stack = s.stack := by
  cases o <;> simp [State.writeR]

@[simp] theorem writeR_sr (s : State) (o : Operand) (w : Word) (opc : Opcode) :
    (s.writeR o w opc).sr = s.sr := by
  cases o <;> simp [State.writeR]

@[simp] theorem writeR_ip (s : State) (o : Operand) (w : Word) (opc : Opcode) :
    (s.writeR o w opc).ip = s.ip := by
  cases o <;> simp [State.writeR]

@[simp] theorem writeR_consoleIn (s : State) (o : Operand) (w : Word) (opc : Opcode) :
    (s.writeR o w opc).consoleIn = s.consoleIn := by
  cases o <;> simp [State.writeR]

@[simp] theorem writeR_consoleOut (s : State) (o : Operand) (w : Word) (opc : Opcode) :
    (s.writeR o w opc).consoleOut = s.consoleOut := by
  cases o <;> simp [State.writeR]

/-- Under an ordinary opcode no operand write reaches `CS` (20_memory.md R48). -/
theorem writeR_cs (s : State) (o : Operand) (w : Word) (opc : Opcode) (h : ordinary opc) : (s.writeR o w opc).cs = s.cs := by
  rcases o with r | ⟨b, i⟩ | v
  · cases r <;> simp [State.writeR, State.regWrite, h.1, h.2]
  · simp [State.writeR]
  · rfl

/-- Under an ordinary opcode no operand write reaches `FL` (20_memory.md R48). -/
theorem writeR_fl (s : State) (o : Operand) (w : Word) (opc : Opcode) (h : ordinary opc) : (s.writeR o w opc).fl = s.fl := by
  rcases o with r | ⟨b, i⟩ | v
  · cases r <;> simp [State.writeR, State.regWrite, h.1, h.2]
  · simp [State.writeR]
  · rfl

/-! ## The stack procedures -/

@[simp] theorem push_g1 (s : State) (w : Word) :
    (s.push w).g1 = s.g1 := by
  unfold State.push
  split <;> simp

@[simp] theorem push_g2 (s : State) (w : Word) :
    (s.push w).g2 = s.g2 := by
  unfold State.push
  split <;> simp

@[simp] theorem push_g3 (s : State) (w : Word) :
    (s.push w).g3 = s.g3 := by
  unfold State.push
  split <;> simp

@[simp] theorem push_ct (s : State) (w : Word) :
    (s.push w).ct = s.ct := by
  unfold State.push
  split <;> simp

@[simp] theorem push_cs (s : State) (w : Word) :
    (s.push w).cs = s.cs := by
  unfold State.push
  split <;> simp

@[simp] theorem push_sr (s : State) (w : Word) :
    (s.push w).sr = s.sr := by
  unfold State.push
  split <;> simp

@[simp] theorem push_ip (s : State) (w : Word) :
    (s.push w).ip = s.ip := by
  unfold State.push
  split <;> simp

@[simp] theorem push_code (s : State) (w : Word) :
    (s.push w).code = s.code := by
  unfold State.push
  split <;> simp

@[simp] theorem push_input (s : State) (w : Word) :
    (s.push w).input = s.input := by
  unfold State.push
  split <;> simp

@[simp] theorem push_general (s : State) (w : Word) :
    (s.push w).general = s.general := by
  unfold State.push
  split <;> simp

@[simp] theorem push_consoleIn (s : State) (w : Word) :
    (s.push w).consoleIn = s.consoleIn := by
  unfold State.push
  split <;> simp

@[simp] theorem push_consoleOut (s : State) (w : Word) :
    (s.push w).consoleOut = s.consoleOut := by
  unfold State.push
  split <;> simp

/-! ## popDest -/

@[simp] theorem popDest_code (s : State) (d : Option Operand) (w : Word) (opc : Opcode) :
    (s.popDest d w opc).code = s.code := by
  cases d <;> simp [State.popDest]

@[simp] theorem popDest_input (s : State) (d : Option Operand) (w : Word) (opc : Opcode) :
    (s.popDest d w opc).input = s.input := by
  cases d <;> simp [State.popDest]

@[simp] theorem popDest_stack (s : State) (d : Option Operand) (w : Word) (opc : Opcode) :
    (s.popDest d w opc).stack = s.stack := by
  cases d <;> simp [State.popDest]

@[simp] theorem popDest_sr (s : State) (d : Option Operand) (w : Word) (opc : Opcode) :
    (s.popDest d w opc).sr = s.sr := by
  cases d <;> simp [State.popDest]

@[simp] theorem popDest_ip (s : State) (d : Option Operand) (w : Word) (opc : Opcode) :
    (s.popDest d w opc).ip = s.ip := by
  cases d <;> simp [State.popDest]

@[simp] theorem popDest_consoleIn (s : State) (d : Option Operand) (w : Word) (opc : Opcode) :
    (s.popDest d w opc).consoleIn = s.consoleIn := by
  cases d <;> simp [State.popDest]

@[simp] theorem popDest_consoleOut (s : State) (d : Option Operand) (w : Word) (opc : Opcode) :
    (s.popDest d w opc).consoleOut = s.consoleOut := by
  cases d <;> simp [State.popDest]

/-! ## pop -/

@[simp] theorem pop_code (s : State) (d : Option Operand) (opc : Opcode) :
    (s.pop d opc).2.code = s.code := by
  unfold State.pop
  split <;> simp

@[simp] theorem pop_input (s : State) (d : Option Operand) (opc : Opcode) :
    (s.pop d opc).2.input = s.input := by
  unfold State.pop
  split <;> simp

@[simp] theorem pop_stack (s : State) (d : Option Operand) (opc : Opcode) :
    (s.pop d opc).2.stack = s.stack := by
  unfold State.pop
  split <;> simp

@[simp] theorem pop_sr (s : State) (d : Option Operand) (opc : Opcode) :
    (s.pop d opc).2.sr = s.sr := by
  unfold State.pop
  split <;> simp

@[simp] theorem pop_ip (s : State) (d : Option Operand) (opc : Opcode) :
    (s.pop d opc).2.ip = s.ip := by
  unfold State.pop
  split <;> simp

@[simp] theorem pop_consoleIn (s : State) (d : Option Operand) (opc : Opcode) :
    (s.pop d opc).2.consoleIn = s.consoleIn := by
  unfold State.pop
  split <;> simp

@[simp] theorem pop_consoleOut (s : State) (d : Option Operand) (opc : Opcode) :
    (s.pop d opc).2.consoleOut = s.consoleOut := by
  unfold State.pop
  split <;> simp

/-! ## drop -/

@[simp] theorem drop_g1 (s : State) (opc : Opcode) :
    (s.drop opc).g1 = s.g1 := by
  unfold State.drop State.pop
  split <;> simp [State.popDest]

@[simp] theorem drop_g2 (s : State) (opc : Opcode) :
    (s.drop opc).g2 = s.g2 := by
  unfold State.drop State.pop
  split <;> simp [State.popDest]

@[simp] theorem drop_g3 (s : State) (opc : Opcode) :
    (s.drop opc).g3 = s.g3 := by
  unfold State.drop State.pop
  split <;> simp [State.popDest]

@[simp] theorem drop_ct (s : State) (opc : Opcode) :
    (s.drop opc).ct = s.ct := by
  unfold State.drop State.pop
  split <;> simp [State.popDest]

@[simp] theorem drop_cs (s : State) (opc : Opcode) :
    (s.drop opc).cs = s.cs := by
  unfold State.drop State.pop
  split <;> simp [State.popDest]

@[simp] theorem drop_sr (s : State) (opc : Opcode) :
    (s.drop opc).sr = s.sr := by
  unfold State.drop State.pop
  split <;> simp [State.popDest]

@[simp] theorem drop_ip (s : State) (opc : Opcode) :
    (s.drop opc).ip = s.ip := by
  unfold State.drop State.pop
  split <;> simp [State.popDest]

@[simp] theorem drop_code (s : State) (opc : Opcode) :
    (s.drop opc).code = s.code := by
  unfold State.drop State.pop
  split <;> simp [State.popDest]

@[simp] theorem drop_input (s : State) (opc : Opcode) :
    (s.drop opc).input = s.input := by
  unfold State.drop State.pop
  split <;> simp [State.popDest]

@[simp] theorem drop_general (s : State) (opc : Opcode) :
    (s.drop opc).general = s.general := by
  unfold State.drop State.pop
  split <;> simp [State.popDest]

@[simp] theorem drop_stack (s : State) (opc : Opcode) :
    (s.drop opc).stack = s.stack := by
  unfold State.drop State.pop
  split <;> simp [State.popDest]

@[simp] theorem drop_consoleIn (s : State) (opc : Opcode) :
    (s.drop opc).consoleIn = s.consoleIn := by
  unfold State.drop State.pop
  split <;> simp [State.popDest]

@[simp] theorem drop_consoleOut (s : State) (opc : Opcode) :
    (s.drop opc).consoleOut = s.consoleOut := by
  unfold State.drop State.pop
  split <;> simp [State.popDest]

/-! ## pop without a destination -/

@[simp] theorem popNone_g1 (s : State) (opc : Opcode) :
    (s.pop none opc).2.g1 = s.g1 := by
  unfold State.pop
  split <;> simp [State.popDest]

@[simp] theorem popNone_g2 (s : State) (opc : Opcode) :
    (s.pop none opc).2.g2 = s.g2 := by
  unfold State.pop
  split <;> simp [State.popDest]

@[simp] theorem popNone_g3 (s : State) (opc : Opcode) :
    (s.pop none opc).2.g3 = s.g3 := by
  unfold State.pop
  split <;> simp [State.popDest]

@[simp] theorem popNone_ct (s : State) (opc : Opcode) :
    (s.pop none opc).2.ct = s.ct := by
  unfold State.pop
  split <;> simp [State.popDest]

@[simp] theorem popNone_cs (s : State) (opc : Opcode) :
    (s.pop none opc).2.cs = s.cs := by
  unfold State.pop
  split <;> simp [State.popDest]

@[simp] theorem popNone_general (s : State) (opc : Opcode) :
    (s.pop none opc).2.general = s.general := by
  unfold State.pop
  split <;> simp [State.popDest]

/-! ## The ends of a group -/

@[simp] theorem resultC_code (s : State) (o : Operand) (w : Word) (opc : Opcode) :
    (s.resultC o w opc).code = s.code := by
  simp [State.resultC]

@[simp] theorem resultC_input (s : State) (o : Operand) (w : Word) (opc : Opcode) :
    (s.resultC o w opc).input = s.input := by
  simp [State.resultC]

@[simp] theorem resultC_stack (s : State) (o : Operand) (w : Word) (opc : Opcode) :
    (s.resultC o w opc).stack = s.stack := by
  simp [State.resultC]

@[simp] theorem resultC_sr (s : State) (o : Operand) (w : Word) (opc : Opcode) :
    (s.resultC o w opc).sr = s.sr := by
  simp [State.resultC]

@[simp] theorem resultC_ip (s : State) (o : Operand) (w : Word) (opc : Opcode) :
    (s.resultC o w opc).ip = s.ip := by
  simp [State.resultC]

@[simp] theorem resultC_consoleIn (s : State) (o : Operand) (w : Word) (opc : Opcode) :
    (s.resultC o w opc).consoleIn = s.consoleIn := by
  simp [State.resultC]

@[simp] theorem resultC_consoleOut (s : State) (o : Operand) (w : Word) (opc : Opcode) :
    (s.resultC o w opc).consoleOut = s.consoleOut := by
  simp [State.resultC]

/-! ## resultR -/

@[simp] theorem resultR_code (s : State) (o : Operand) (w : Word) (opc : Opcode) :
    (s.resultR o w opc).code = s.code := by
  simp [State.resultR]

@[simp] theorem resultR_input (s : State) (o : Operand) (w : Word) (opc : Opcode) :
    (s.resultR o w opc).input = s.input := by
  simp [State.resultR]

@[simp] theorem resultR_stack (s : State) (o : Operand) (w : Word) (opc : Opcode) :
    (s.resultR o w opc).stack = s.stack := by
  simp [State.resultR]

@[simp] theorem resultR_sr (s : State) (o : Operand) (w : Word) (opc : Opcode) :
    (s.resultR o w opc).sr = s.sr := by
  simp [State.resultR]

@[simp] theorem resultR_ip (s : State) (o : Operand) (w : Word) (opc : Opcode) :
    (s.resultR o w opc).ip = s.ip := by
  simp [State.resultR]

@[simp] theorem resultR_consoleIn (s : State) (o : Operand) (w : Word) (opc : Opcode) :
    (s.resultR o w opc).consoleIn = s.consoleIn := by
  simp [State.resultR]

@[simp] theorem resultR_consoleOut (s : State) (o : Operand) (w : Word) (opc : Opcode) :
    (s.resultR o w opc).consoleOut = s.consoleOut := by
  simp [State.resultR]

/-! ## moveC -/

@[simp] theorem moveC_code (s : State) (o : Operand) (w : Word) (opc : Opcode) :
    (s.moveC o w opc).code = s.code := by
  simp [State.moveC]

@[simp] theorem moveC_input (s : State) (o : Operand) (w : Word) (opc : Opcode) :
    (s.moveC o w opc).input = s.input := by
  simp [State.moveC]

@[simp] theorem moveC_stack (s : State) (o : Operand) (w : Word) (opc : Opcode) :
    (s.moveC o w opc).stack = s.stack := by
  simp [State.moveC]

@[simp] theorem moveC_sr (s : State) (o : Operand) (w : Word) (opc : Opcode) :
    (s.moveC o w opc).sr = s.sr := by
  simp [State.moveC]

@[simp] theorem moveC_ip (s : State) (o : Operand) (w : Word) (opc : Opcode) :
    (s.moveC o w opc).ip = s.ip := by
  simp [State.moveC]

@[simp] theorem moveC_consoleIn (s : State) (o : Operand) (w : Word) (opc : Opcode) :
    (s.moveC o w opc).consoleIn = s.consoleIn := by
  simp [State.moveC]

@[simp] theorem moveC_consoleOut (s : State) (o : Operand) (w : Word) (opc : Opcode) :
    (s.moveC o w opc).consoleOut = s.consoleOut := by
  simp [State.moveC]

/-! ## relCopy -/

@[simp] theorem relCopy_code (s : State) (o : Operand) (m : Mode) (w : Word) (opc : Opcode) :
    (s.relCopy o m w opc).code = s.code := by
  unfold State.relCopy
  split <;> simp

@[simp] theorem relCopy_input (s : State) (o : Operand) (m : Mode) (w : Word) (opc : Opcode) :
    (s.relCopy o m w opc).input = s.input := by
  unfold State.relCopy
  split <;> simp

@[simp] theorem relCopy_stack (s : State) (o : Operand) (m : Mode) (w : Word) (opc : Opcode) :
    (s.relCopy o m w opc).stack = s.stack := by
  unfold State.relCopy
  split <;> simp

@[simp] theorem relCopy_sr (s : State) (o : Operand) (m : Mode) (w : Word) (opc : Opcode) :
    (s.relCopy o m w opc).sr = s.sr := by
  unfold State.relCopy
  split <;> simp

@[simp] theorem relCopy_ip (s : State) (o : Operand) (m : Mode) (w : Word) (opc : Opcode) :
    (s.relCopy o m w opc).ip = s.ip := by
  unfold State.relCopy
  split <;> simp

@[simp] theorem relCopy_consoleIn (s : State) (o : Operand) (m : Mode) (w : Word) (opc : Opcode) :
    (s.relCopy o m w opc).consoleIn = s.consoleIn := by
  unfold State.relCopy
  split <;> simp

@[simp] theorem relCopy_consoleOut (s : State) (o : Operand) (m : Mode) (w : Word) (opc : Opcode) :
    (s.relCopy o m w opc).consoleOut = s.consoleOut := by
  unfold State.relCopy
  split <;> simp

@[simp] theorem relCopy_status (s : State) (o : Operand) (m : Mode) (w : Word) (opc : Opcode) :
    (s.relCopy o m w opc).status = s.status := by
  unfold State.relCopy
  split <;> simp

/-! ## acceptChar -/

@[simp] theorem acceptChar_code (s : State) (o : Operand) (c : Nat) :
    (s.acceptChar o c).code = s.code := by
  unfold State.acceptChar
  split <;> simp

@[simp] theorem acceptChar_input (s : State) (o : Operand) (c : Nat) :
    (s.acceptChar o c).input = s.input := by
  unfold State.acceptChar
  split <;> simp

@[simp] theorem acceptChar_stack (s : State) (o : Operand) (c : Nat) :
    (s.acceptChar o c).stack = s.stack := by
  unfold State.acceptChar
  split <;> simp

@[simp] theorem acceptChar_sr (s : State) (o : Operand) (c : Nat) :
    (s.acceptChar o c).sr = s.sr := by
  unfold State.acceptChar
  split <;> simp

@[simp] theorem acceptChar_ip (s : State) (o : Operand) (c : Nat) :
    (s.acceptChar o c).ip = s.ip := by
  unfold State.acceptChar
  split <;> simp

@[simp] theorem acceptChar_consoleIn (s : State) (o : Operand) (c : Nat) :
    (s.acceptChar o c).consoleIn = s.consoleIn := by
  unfold State.acceptChar
  split <;> simp

@[simp] theorem acceptChar_consoleOut (s : State) (o : Operand) (c : Nat) :
    (s.acceptChar o c).consoleOut = s.consoleOut := by
  unfold State.acceptChar
  split <;> simp

@[simp] theorem acceptChar_status (s : State) (o : Operand) (c : Nat) :
    (s.acceptChar o c).status = s.status := by
  unfold State.acceptChar
  split <;> simp

/-! ## The calling convention -/

@[simp] theorem pushFrame_g1 (s : State) (n : Nat) :
    (s.pushFrame n).g1 = s.g1 := by
  simp [State.pushFrame]

@[simp] theorem pushFrame_g2 (s : State) (n : Nat) :
    (s.pushFrame n).g2 = s.g2 := by
  simp [State.pushFrame]

@[simp] theorem pushFrame_g3 (s : State) (n : Nat) :
    (s.pushFrame n).g3 = s.g3 := by
  simp [State.pushFrame]

@[simp] theorem pushFrame_ct (s : State) (n : Nat) :
    (s.pushFrame n).ct = s.ct := by
  simp [State.pushFrame]

@[simp] theorem pushFrame_cs (s : State) (n : Nat) :
    (s.pushFrame n).cs = s.cs := by
  simp [State.pushFrame]

@[simp] theorem pushFrame_sr (s : State) (n : Nat) :
    (s.pushFrame n).sr = s.sr := by
  simp [State.pushFrame]

@[simp] theorem pushFrame_ip (s : State) (n : Nat) :
    (s.pushFrame n).ip = s.ip := by
  simp [State.pushFrame]

@[simp] theorem pushFrame_code (s : State) (n : Nat) :
    (s.pushFrame n).code = s.code := by
  simp [State.pushFrame]

@[simp] theorem pushFrame_input (s : State) (n : Nat) :
    (s.pushFrame n).input = s.input := by
  simp [State.pushFrame]

@[simp] theorem pushFrame_general (s : State) (n : Nat) :
    (s.pushFrame n).general = s.general := by
  simp [State.pushFrame]

@[simp] theorem pushFrame_status (s : State) (n : Nat) :
    (s.pushFrame n).status = s.status := by
  simp [State.pushFrame]

@[simp] theorem pushFrame_consoleIn (s : State) (n : Nat) :
    (s.pushFrame n).consoleIn = s.consoleIn := by
  simp [State.pushFrame]

@[simp] theorem pushFrame_consoleOut (s : State) (n : Nat) :
    (s.pushFrame n).consoleOut = s.consoleOut := by
  simp [State.pushFrame]

/-! ## enterCall -/

@[simp] theorem enterCall_code (s : State) (p1 p2 p3 : Operand) :
    (s.enterCall p1 p2 p3).code = s.code := by
  simp [State.enterCall, State.loadParameters]

@[simp] theorem enterCall_input (s : State) (p1 p2 p3 : Operand) :
    (s.enterCall p1 p2 p3).input = s.input := by
  simp [State.enterCall, State.loadParameters]

@[simp] theorem enterCall_general (s : State) (p1 p2 p3 : Operand) :
    (s.enterCall p1 p2 p3).general = s.general := by
  simp [State.enterCall, State.loadParameters]

@[simp] theorem enterCall_status (s : State) (p1 p2 p3 : Operand) :
    (s.enterCall p1 p2 p3).status = s.status := by
  simp [State.enterCall, State.loadParameters]

@[simp] theorem enterCall_consoleIn (s : State) (p1 p2 p3 : Operand) :
    (s.enterCall p1 p2 p3).consoleIn = s.consoleIn := by
  simp [State.enterCall, State.loadParameters]

@[simp] theorem enterCall_consoleOut (s : State) (p1 p2 p3 : Operand) :
    (s.enterCall p1 p2 p3).consoleOut = s.consoleOut := by
  simp [State.enterCall, State.loadParameters]

/-! ## returnValue -/

@[simp] theorem returnValue_g1 (s : State) (opc : Opcode) :
    (s.returnValue opc).g1 = s.g1 := by
  simp [State.returnValue]

@[simp] theorem returnValue_g2 (s : State) (opc : Opcode) :
    (s.returnValue opc).g2 = s.g2 := by
  simp [State.returnValue]

@[simp] theorem returnValue_g3 (s : State) (opc : Opcode) :
    (s.returnValue opc).g3 = s.g3 := by
  simp [State.returnValue]

@[simp] theorem returnValue_cs (s : State) (opc : Opcode) :
    (s.returnValue opc).cs = s.cs := by
  simp [State.returnValue]

@[simp] theorem returnValue_sr (s : State) (opc : Opcode) :
    (s.returnValue opc).sr = s.sr := by
  simp [State.returnValue]

@[simp] theorem returnValue_code (s : State) (opc : Opcode) :
    (s.returnValue opc).code = s.code := by
  simp [State.returnValue]

@[simp] theorem returnValue_input (s : State) (opc : Opcode) :
    (s.returnValue opc).input = s.input := by
  simp [State.returnValue]

@[simp] theorem returnValue_general (s : State) (opc : Opcode) :
    (s.returnValue opc).general = s.general := by
  simp [State.returnValue]

@[simp] theorem returnValue_status (s : State) (opc : Opcode) :
    (s.returnValue opc).status = s.status := by
  simp [State.returnValue]

@[simp] theorem returnValue_consoleIn (s : State) (opc : Opcode) :
    (s.returnValue opc).consoleIn = s.consoleIn := by
  simp [State.returnValue]

@[simp] theorem returnValue_consoleOut (s : State) (opc : Opcode) :
    (s.returnValue opc).consoleOut = s.consoleOut := by
  simp [State.returnValue]

/-! ## jump -/

@[simp] theorem jump_g1 (s : State) :
    s.jump.1.g1 = s.g1 := by
  unfold State.jump
  split <;> rfl

@[simp] theorem jump_g2 (s : State) :
    s.jump.1.g2 = s.g2 := by
  unfold State.jump
  split <;> rfl

@[simp] theorem jump_g3 (s : State) :
    s.jump.1.g3 = s.g3 := by
  unfold State.jump
  split <;> rfl

@[simp] theorem jump_ct (s : State) :
    s.jump.1.ct = s.ct := by
  unfold State.jump
  split <;> rfl

@[simp] theorem jump_cs (s : State) :
    s.jump.1.cs = s.cs := by
  unfold State.jump
  split <;> rfl

@[simp] theorem jump_fl (s : State) :
    s.jump.1.fl = s.fl := by
  unfold State.jump
  split <;> rfl

@[simp] theorem jump_sp (s : State) :
    s.jump.1.sp = s.sp := by
  unfold State.jump
  split <;> rfl

@[simp] theorem jump_sr (s : State) :
    s.jump.1.sr = s.sr := by
  unfold State.jump
  split <;> rfl

@[simp] theorem jump_code (s : State) :
    s.jump.1.code = s.code := by
  unfold State.jump
  split <;> rfl

@[simp] theorem jump_input (s : State) :
    s.jump.1.input = s.input := by
  unfold State.jump
  split <;> rfl

@[simp] theorem jump_general (s : State) :
    s.jump.1.general = s.general := by
  unfold State.jump
  split <;> rfl

@[simp] theorem jump_stack (s : State) :
    s.jump.1.stack = s.stack := by
  unfold State.jump
  split <;> rfl

@[simp] theorem jump_consoleIn (s : State) :
    s.jump.1.consoleIn = s.consoleIn := by
  unfold State.jump
  split <;> rfl

@[simp] theorem jump_consoleOut (s : State) :
    s.jump.1.consoleOut = s.consoleOut := by
  unfold State.jump
  split <;> rfl

/-! ## jumpIf -/

@[simp] theorem jumpIf_g1 (s : State) (f : Flag) :
    (s.jumpIf f).1.g1 = s.g1 := by
  unfold State.jumpIf
  split <;> simp

@[simp] theorem jumpIf_g2 (s : State) (f : Flag) :
    (s.jumpIf f).1.g2 = s.g2 := by
  unfold State.jumpIf
  split <;> simp

@[simp] theorem jumpIf_g3 (s : State) (f : Flag) :
    (s.jumpIf f).1.g3 = s.g3 := by
  unfold State.jumpIf
  split <;> simp

@[simp] theorem jumpIf_ct (s : State) (f : Flag) :
    (s.jumpIf f).1.ct = s.ct := by
  unfold State.jumpIf
  split <;> simp

@[simp] theorem jumpIf_cs (s : State) (f : Flag) :
    (s.jumpIf f).1.cs = s.cs := by
  unfold State.jumpIf
  split <;> simp

@[simp] theorem jumpIf_fl (s : State) (f : Flag) :
    (s.jumpIf f).1.fl = s.fl := by
  unfold State.jumpIf
  split <;> simp

@[simp] theorem jumpIf_sp (s : State) (f : Flag) :
    (s.jumpIf f).1.sp = s.sp := by
  unfold State.jumpIf
  split <;> simp

@[simp] theorem jumpIf_sr (s : State) (f : Flag) :
    (s.jumpIf f).1.sr = s.sr := by
  unfold State.jumpIf
  split <;> simp

@[simp] theorem jumpIf_code (s : State) (f : Flag) :
    (s.jumpIf f).1.code = s.code := by
  unfold State.jumpIf
  split <;> simp

@[simp] theorem jumpIf_input (s : State) (f : Flag) :
    (s.jumpIf f).1.input = s.input := by
  unfold State.jumpIf
  split <;> simp

@[simp] theorem jumpIf_general (s : State) (f : Flag) :
    (s.jumpIf f).1.general = s.general := by
  unfold State.jumpIf
  split <;> simp

@[simp] theorem jumpIf_stack (s : State) (f : Flag) :
    (s.jumpIf f).1.stack = s.stack := by
  unfold State.jumpIf
  split <;> simp

@[simp] theorem jumpIf_consoleIn (s : State) (f : Flag) :
    (s.jumpIf f).1.consoleIn = s.consoleIn := by
  unfold State.jumpIf
  split <;> simp

@[simp] theorem jumpIf_consoleOut (s : State) (f : Flag) :
    (s.jumpIf f).1.consoleOut = s.consoleOut := by
  unfold State.jumpIf
  split <;> simp

/-! ## The end of a cycle -/

@[simp] theorem endCycle_g1 (s : State) (f : Flow) (n : Nat) :
    (s.endCycle f n).g1 = s.g1 := by
  unfold State.endCycle State.advanceIP
  split <;> rfl

@[simp] theorem endCycle_g2 (s : State) (f : Flow) (n : Nat) :
    (s.endCycle f n).g2 = s.g2 := by
  unfold State.endCycle State.advanceIP
  split <;> rfl

@[simp] theorem endCycle_g3 (s : State) (f : Flow) (n : Nat) :
    (s.endCycle f n).g3 = s.g3 := by
  unfold State.endCycle State.advanceIP
  split <;> rfl

@[simp] theorem endCycle_ct (s : State) (f : Flow) (n : Nat) :
    (s.endCycle f n).ct = s.ct := by
  unfold State.endCycle State.advanceIP
  split <;> rfl

@[simp] theorem endCycle_cs (s : State) (f : Flow) (n : Nat) :
    (s.endCycle f n).cs = s.cs := by
  unfold State.endCycle State.advanceIP
  split <;> rfl

@[simp] theorem endCycle_fl (s : State) (f : Flow) (n : Nat) :
    (s.endCycle f n).fl = s.fl := by
  unfold State.endCycle State.advanceIP
  split <;> rfl

@[simp] theorem endCycle_sp (s : State) (f : Flow) (n : Nat) :
    (s.endCycle f n).sp = s.sp := by
  unfold State.endCycle State.advanceIP
  split <;> rfl

@[simp] theorem endCycle_sr (s : State) (f : Flow) (n : Nat) :
    (s.endCycle f n).sr = s.sr := by
  unfold State.endCycle State.advanceIP
  split <;> rfl

@[simp] theorem endCycle_status (s : State) (f : Flow) (n : Nat) :
    (s.endCycle f n).status = s.status := by
  unfold State.endCycle State.advanceIP
  split <;> rfl

@[simp] theorem endCycle_consoleIn (s : State) (f : Flow) (n : Nat) :
    (s.endCycle f n).consoleIn = s.consoleIn := by
  unfold State.endCycle State.advanceIP
  split <;> rfl

@[simp] theorem endCycle_consoleOut (s : State) (f : Flow) (n : Nat) :
    (s.endCycle f n).consoleOut = s.consoleOut := by
  unfold State.endCycle State.advanceIP
  split <;> rfl

@[simp] theorem endCycle_code (s : State) (f : Flow) (n : Nat) :
    (s.endCycle f n).code = s.code.write 0 0 := by
  unfold State.endCycle State.advanceIP
  split <;> rfl

@[simp] theorem endCycle_input (s : State) (f : Flow) (n : Nat) :
    (s.endCycle f n).input = s.input.write 0 0 := by
  unfold State.endCycle State.advanceIP
  split <;> rfl

@[simp] theorem endCycle_general (s : State) (f : Flow) (n : Nat) :
    (s.endCycle f n).general = s.general.write 0 0 := by
  unfold State.endCycle State.advanceIP
  split <;> rfl

@[simp] theorem endCycle_stack (s : State) (f : Flow) (n : Nat) :
    (s.endCycle f n).stack = s.stack.write 0 0 := by
  unfold State.endCycle State.advanceIP
  split <;> rfl

/-! ## The canonical form -/

theorem cellWrite_general_wf (s : State) (b : DataBank) (i w : Word) (h : s.general.wf) :
    (s.cellWrite b i w).general.wf := by
  unfold State.cellWrite
  split
  · exact h
  · cases b
    · exact write_wf _ _ _ h
    · exact h

/-- An operand write keeps the form of the general bank. -/
theorem writeC_general_wf (s : State) (o : Operand) (w : Word) (opc : Opcode) (h : s.general.wf) :
    (s.writeC o w opc).general.wf := by
  cases o
  · simpa [State.writeC] using h
  · exact cellWrite_general_wf s _ _ _ h
  · exact h

/-- A raw operand write keeps the form of the general bank. -/
theorem writeR_general_wf (s : State) (o : Operand) (w : Word) (opc : Opcode) (h : s.general.wf) :
    (s.writeR o w opc).general.wf := by
  cases o
  · simpa [State.writeR] using h
  · exact cellWrite_general_wf s _ _ _ h
  · exact h

/-- A push keeps the form of the stack bank. -/
theorem push_stack_wf (s : State) (w : Word) (h : s.stack.wf) : (s.push w).stack.wf := by
  unfold State.push
  split
  · simpa using h
  · simpa using write_wf _ _ _ h

/-- A pop keeps the form of the general bank. -/
theorem pop_general_wf (s : State) (d : Option Operand) (opc : Opcode) (h : s.general.wf) :
    (s.pop d opc).2.general.wf := by
  cases d with
  | none => simpa using h
  | some o =>
    unfold State.pop State.popDest
    split
    · exact writeC_general_wf _ _ _ _ h
    · simp only [reportZero_general, stickFlag_general]
      exact writeC_general_wf s o _ opc h

/-- The six pushes of a call keep the form of the stack bank. -/
theorem pushFrame_stack_wf (s : State) (n : Nat) (h : s.stack.wf) : (s.pushFrame n).stack.wf := by
  simp only [State.pushFrame, State.readC, push_g1, push_g2, push_g3]
  exact push_stack_wf _ _ (push_stack_wf _ _ (push_stack_wf _ _ (push_stack_wf _ _ (push_stack_wf _ _ (push_stack_wf _ _ h)))))

/-- A call keeps the form of the stack bank. -/
theorem enterCall_stack_wf (s : State) (p1 p2 p3 : Operand) (h : s.stack.wf) : (s.enterCall p1 p2 p3).stack.wf := by
  simp only [State.enterCall, State.loadParameters, clearFlags_stack]
  exact pushFrame_stack_wf s _ h

/-- A return keeps the form of the stack bank. -/
theorem returnValue_stack_wf (s : State) (opc : Opcode) (h : s.stack.wf) : (s.returnValue opc).stack.wf := by
  simp only [State.returnValue]
  refine push_stack_wf _ _ ?_
  simpa using h

/-- The end of a cycle gives the invariant to banks in canonical form (20_memory.md R47). -/
theorem endCycle_inv (s : State) (f : Flow) (n : Nat) (h : s.banksCanonical) : (s.endCycle f n).Inv := by
  refine ⟨⟨?_, ?_, ?_, ?_⟩, ?_, ?_, ?_, ?_⟩
  · simpa using write_wf _ _ _ h.1
  · simpa using write_wf _ _ _ h.2.1
  · simpa using write_wf _ _ _ h.2.2.1
  · simpa using write_wf _ _ _ h.2.2.2
  all_goals simp

end Sys2Proof.Machine
end

