-- ==== Sys2Proof/Laws/LoadPort.lean ====
section
/-! SUPPORT. What the load port leaves in a bank. -/

namespace Sys2Proof.Machine

/-- A block laid from an index on, without wrapping, is read back word by word, and every other cell is as before. -/
theorem loadFrom_read (ws : List Word) : ∀ (m : Memory) (a k : Word), a.toNat + ws.length ≤ 65536 →
    (m.loadFrom a ws).read k =
      if a.toNat ≤ k.toNat ∧ k.toNat < a.toNat + ws.length then ws.getD (k.toNat - a.toNat) 0
      else m.read k := by
  induction ws with
  | nil => intro m a k h; simp [Memory.loadFrom]
  | cons w ws ih =>
    intro m a k h
    simp only [List.length_cons] at h
    unfold Memory.loadFrom
    by_cases hz : ws = []
    · subst hz
      simp only [Memory.loadFrom, read_write, List.length_cons, List.length_nil]
      by_cases hk : k = a
      · subst hk; simp
      · have : k.toNat ≠ a.toNat := fun h => hk (BitVec.eq_of_toNat_eq h)
        rw [if_neg hk, if_neg (by omega)]
    · have hlen : 0 < ws.length := List.length_pos_iff.mpr hz
      have ha : (a + 1).toNat = a.toNat + 1 := by
        rw [BitVec.toNat_add]; simp; omega
      rw [ih _ _ _ (by omega), ha, read_write]
      by_cases hk : k = a
      · subst hk
        rw [if_neg (by omega), if_pos rfl, if_pos (by simp)]
        simp
      · have : k.toNat ≠ a.toNat := fun h => hk (BitVec.eq_of_toNat_eq h)
        rw [if_neg hk, List.length_cons]
        by_cases hc : a.toNat + 1 ≤ k.toNat ∧ k.toNat < a.toNat + 1 + ws.length
        · rw [if_pos hc, if_pos (by omega)]
          have : k.toNat - a.toNat = (k.toNat - (a.toNat + 1)) + 1 := by omega
          rw [this, List.getD_cons_succ]
        · rw [if_neg hc, if_neg (by omega)]

/-- All that loading one block can do (20_memory.md R58, R59): the block is put into its bank, or it is too long. -/
theorem loadBlock_cases (b : Block) (s : State) :
    (b.words.length ≤ 65534 ∧ loadBlock b s = .next (s.putBlock b)) ∨
      (65534 < b.words.length ∧ loadBlock b s = .refused .blockTooLong) := by
  unfold loadBlock
  by_cases h : b.words.length ≤ 65534
  · exact .inl ⟨h, if_pos h⟩
  · exact .inr ⟨Nat.lt_of_not_le h, if_neg h⟩

/-- Loading a block keeps the canonical form of a bank. -/
theorem loadFrom_wf (ws : List Word) : ∀ (m : Memory) (a : Word), m.wf → (m.loadFrom a ws).wf := by
  induction ws with
  | nil => intro m a h; exact h
  | cons w ws ih => intro m a h; exact ih _ _ (write_wf m a w h)

end Sys2Proof.Machine
end

