-- ==== Sys2Proof/Laws/PerInstr.lean ====
section
/-! SUPPORT. Statements about every instruction as syntax, one lemma per constructor. -/

namespace Sys2Proof.Laws.EncodedWords

/-- The encoding has as many words as the instruction's length, one to four of them, and its first word carries the opcode's
number (30_encoding.md R70, R86). -/
def Statement (i : Instr) : Prop :=
  (encode i).length = i.length ∧ 1 ≤ i.length ∧ i.length ≤ 4 ∧
    opcodeField ((encode i).headD 0) = numberOf i.opcode

theorem statement_of_any (i : Instr) : Statement i := by
  have h := wordCount_bounds i.operands (by rw [operands_length]; exact arityOf_le _)
  exact ⟨encode_length i, h.1, h.2, opcodeField_definitionWord i⟩

theorem inc (m : Mode) (o1 : Operand) : Statement (.inc m o1) := statement_of_any _

theorem dec (m : Mode) (o1 : Operand) : Statement (.dec m o1) := statement_of_any _

theorem add (m : Mode) (o1 o2 : Operand) : Statement (.add m o1 o2) := statement_of_any _

theorem sub (m : Mode) (o1 o2 : Operand) : Statement (.sub m o1 o2) := statement_of_any _

theorem mul (m : Mode) (o1 o2 : Operand) : Statement (.mul m o1 o2) := statement_of_any _

theorem div (m : Mode) (o1 o2 : Operand) : Statement (.div m o1 o2) := statement_of_any _

theorem adc (m : Mode) (o1 o2 : Operand) : Statement (.adc m o1 o2) := statement_of_any _

theorem sbc (m : Mode) (o1 o2 : Operand) : Statement (.sbc m o1 o2) := statement_of_any _

theorem and (o1 o2 : Operand) : Statement (.and o1 o2) := statement_of_any _

theorem or (o1 o2 : Operand) : Statement (.or o1 o2) := statement_of_any _

theorem xor (o1 o2 : Operand) : Statement (.xor o1 o2) := statement_of_any _

theorem not (o1 : Operand) : Statement (.not o1) := statement_of_any _

theorem shl (o1 o2 : Operand) : Statement (.shl o1 o2) := statement_of_any _

theorem shr (m : Mode) (o1 o2 : Operand) : Statement (.shr m o1 o2) := statement_of_any _

theorem rol (o1 o2 : Operand) : Statement (.rol o1 o2) := statement_of_any _

theorem ror (o1 o2 : Operand) : Statement (.ror o1 o2) := statement_of_any _

theorem bsw (o1 : Operand) : Statement (.bsw o1) := statement_of_any _

theorem cpy (o1 o2 : Operand) : Statement (.cpy o1 o2) := statement_of_any _

theorem mcp (o1 o2 o3 : Operand) : Statement (.mcp o1 o2 o3) := statement_of_any _

theorem icp (o1 o2 : Operand) : Statement (.icp o1 o2) := statement_of_any _

theorem cmp (m : Mode) (o1 o2 : Operand) : Statement (.cmp m o1 o2) := statement_of_any _

theorem swp (o1 o2 : Operand) : Statement (.swp o1 o2) := statement_of_any _

theorem rcf (m : Mode) (o1 o2 : Operand) : Statement (.rcf m o1 o2) := statement_of_any _

theorem rct (m : Mode) (o1 o2 : Operand) : Statement (.rct m o1 o2) := statement_of_any _

theorem jmp : Statement (.jmp) := statement_of_any _

theorem jz : Statement (.jz) := statement_of_any _

theorem je : Statement (.je) := statement_of_any _

theorem jl : Statement (.jl) := statement_of_any _

theorem jg : Statement (.jg) := statement_of_any _

theorem jc : Statement (.jc) := statement_of_any _

theorem ji : Statement (.ji) := statement_of_any _

theorem jse : Statement (.jse) := statement_of_any _

theorem jsf : Statement (.jsf) := statement_of_any _

theorem clz : Statement (.clz) := statement_of_any _

theorem clc : Statement (.clc) := statement_of_any _

theorem cla : Statement (.cla) := statement_of_any _

theorem push (o1 : Operand) : Statement (.push o1) := statement_of_any _

theorem pop (o1 : Operand) : Statement (.pop o1) := statement_of_any _

theorem call (o1 o2 o3 : Operand) : Statement (.call o1 o2 o3) := statement_of_any _

theorem retv : Statement (.retv) := statement_of_any _

theorem retz : Statement (.retz) := statement_of_any _

theorem rdc (o1 : Operand) : Statement (.rdc o1) := statement_of_any _

theorem wrc (o1 : Operand) : Statement (.wrc o1) := statement_of_any _

theorem halt : Statement (.halt) := statement_of_any _

theorem nop : Statement (.nop) := statement_of_any _

theorem cip (o1 : Operand) : Statement (.cip o1) := statement_of_any _

end Sys2Proof.Laws.EncodedWords
end

