-- ==== Sys2Proof/Laws/Stack.lean ====
section
/-! SUPPORT. The stack procedures: what one push and one discarding pop do to `SP`, to each stack cell and to each
flag (44_stack.md R180, R181), and what a call leaves outside its frame (45_call_return.md R190). -/

namespace Sys2Proof.Machine

/-! ## Push -/

theorem push_full (s : State) (w : Word) (h : s.sp = 0) : s.push w = s.stickFlag .sf true := by
  unfold State.push
  rw [if_pos h]

theorem push_sp (s : State) (w : Word) (h : s.sp ≠ 0) : (s.push w).sp = s.sp - 1 := by
  unfold State.push
  rw [if_neg h]
  simp only [reportZero_sp, stickFlag_sp]

theorem push_read (s : State) (w k : Word) (h : s.sp ≠ 0) :
    (s.push w).stack.read k = if k = s.sp - 1 then w else s.stack.read k := by
  unfold State.push
  rw [if_neg h]
  simp only [reportZero_stack, stickFlag_stack]
  exact read_write s.stack (s.sp - 1) k w

theorem push_flag (s : State) (w : Word) (f : Flag) (h : s.sp ≠ 0) :
    (s.push w).flag f =
      if f = .z then w == 0 else if f = .sf then s.sp - 1 == 0 || s.flag .sf else s.flag f := by
  unfold State.push
  rw [if_neg h]
  simp only [flag_reportZero, flag_stickFlag]
  cases f <;> rfl

/-! ## Pop without a destination -/

theorem drop_sp (s : State) (opc : Opcode) (h : s.sp ≠ 0xFFFF) : (s.drop opc).sp = s.sp + 1 := by
  unfold State.drop State.pop
  rw [if_neg h]
  simp only [reportZero_sp, stickFlag_sp, State.popDest]

theorem drop_flag (s : State) (opc : Opcode) (f : Flag) (h : s.sp ≠ 0xFFFF) :
    (s.drop opc).flag f =
      if f = .z then s.stack.read s.sp == 0
      else if f = .se then s.sp + 1 == 0xFFFF || s.flag .se else s.flag f := by
  unfold State.drop State.pop
  rw [if_neg h]
  simp only [flag_reportZero, flag_stickFlag]
  cases f <;> rfl

theorem drop_empty_sp (s : State) (opc : Opcode) (h : s.sp = 0xFFFF) : (s.drop opc).sp = s.sp := by
  unfold State.drop State.pop
  rw [if_pos h]
  simp only [State.popDest, assignFlag_sp, stickFlag_sp]

theorem drop_empty_flag (s : State) (opc : Opcode) (f : Flag) (h : s.sp = 0xFFFF) :
    (s.drop opc).flag f = if f = .z then true else if f = .se then true else s.flag f := by
  unfold State.drop State.pop
  rw [if_pos h]
  simp only [State.popDest, flag_assignFlag, flag_stickFlag]
  cases f <;> rfl

/-! ## The end of a call -/

/-- The flags are read from `FL` alone. -/
theorem flag_congr (s t : State) (f : Flag) (h : s.fl = t.fl) : s.flag f = t.flag f := by
  unfold State.flag
  rw [h]

@[simp] theorem endCycle_flag (s : State) (fl : Flow) (n : Nat) (f : Flag) : (s.endCycle fl n).flag f = s.flag f :=
  flag_congr _ _ f (endCycle_fl s fl n)

theorem endCycle_redirected_ip (s : State) (n : Nat) : (s.endCycle .redirected n).ip = s.ip := by
  simp [State.endCycle, State.advanceIP]

theorem endCycle_read (s : State) (fl : Flow) (n : Nat) (k : Word) (h : k ≠ 0) :
    (s.endCycle fl n).stack.read k = s.stack.read k := by
  rw [endCycle_stack, read_write_other _ _ _ _ h]

theorem enterCall_stack (s : State) (p1 p2 p3 : Operand) : (s.enterCall p1 p2 p3).stack = (s.pushFrame (wordCount [p1, p2, p3])).stack := by
  simp [State.enterCall, State.loadParameters]

theorem enterCall_sp (s : State) (p1 p2 p3 : Operand) : (s.enterCall p1 p2 p3).sp = (s.pushFrame (wordCount [p1, p2, p3])).sp := by
  simp [State.enterCall, State.loadParameters]

theorem enterCall_sr (s : State) (p1 p2 p3 : Operand) : (s.enterCall p1 p2 p3).sr = (s.pushFrame (wordCount [p1, p2, p3])).sp := by
  simp [State.enterCall, State.loadParameters]

theorem enterCall_cs (s : State) (p1 p2 p3 : Operand) : (s.enterCall p1 p2 p3).cs = s.ip := by
  simp [State.enterCall, State.loadParameters]

theorem enterCall_ip (s : State) (p1 p2 p3 : Operand) : (s.enterCall p1 p2 p3).ip = s.ct := by
  simp [State.enterCall, State.loadParameters]

theorem enterCall_ct (s : State) (p1 p2 p3 : Operand) : (s.enterCall p1 p2 p3).ct = 0 := by
  simp [State.enterCall, State.loadParameters]

theorem enterCall_fl (s : State) (p1 p2 p3 : Operand) : (s.enterCall p1 p2 p3).fl = 0 := by
  simp [State.enterCall, State.loadParameters]

end Sys2Proof.Machine
end

