-- ==== Sys2Proof/Laws/Values.lean ====
section
/-! SUPPORT. The value computations as bit-vector operations. -/

namespace Sys2Proof.Machine

/-- Reading a word as an integer of either variant and narrowing gives the word back. -/
theorem narrow_value (m : Mode) (w : Word) : narrow (value m w) = w := by
  cases m
  · simp [narrow, value]
  · simp [narrow, value]

theorem narrow_add (x y : Int) : narrow (x + y) = narrow x + narrow y := BitVec.ofInt_add x y

theorem narrow_mul (x y : Int) : narrow (x * y) = narrow x * narrow y := BitVec.ofInt_mul x y

theorem narrow_neg (x : Int) : narrow (-x) = -narrow x := by
  unfold narrow
  apply BitVec.eq_of_toInt_eq
  simp [BitVec.toInt_neg]

theorem narrow_sub (x y : Int) : narrow (x - y) = narrow x - narrow y := by
  rw [Int.sub_eq_add_neg, narrow_add, narrow_neg, BitVec.sub_eq_add_neg]

/-- The narrowed sum is the wrapping sum in both variants (40_arithmetic.md R108). -/
theorem narrow_value_add (m : Mode) (a b : Word) : narrow (value m a + value m b) = a + b := by
  rw [narrow_add, narrow_value, narrow_value]

/-- The narrowed difference is the wrapping difference in both variants (40_arithmetic.md R108). -/
theorem narrow_value_sub (m : Mode) (a b : Word) : narrow (value m a - value m b) = a - b := by
  rw [narrow_sub, narrow_value, narrow_value]

/-- The narrowed product is the wrapping product in both variants (40_arithmetic.md R108). -/
theorem narrow_value_mul (m : Mode) (a b : Word) : narrow (value m a * value m b) = a * b := by
  rw [narrow_mul, narrow_value, narrow_value]

/-- The two bytes exchanged, bit by bit. -/
theorem bswap16_getLsbD (w : Word) (j : Nat) :
    (bswap16 w).getLsbD j = if j < 8 then w.getLsbD (j + 8) else (decide (j < 16) && w.getLsbD (j - 8)) := by
  unfold bswap16
  simp only [BitVec.getLsbD_or, BitVec.getLsbD_shiftLeft, BitVec.getLsbD_ushiftRight]
  by_cases h : j < 8
  · simp [h, Nat.add_comm]
  · have h1 : w.getLsbD (8 + j) = false := BitVec.getLsbD_of_ge _ _ (by omega)
    simp [h, h1]

end Sys2Proof.Machine
end

