-- ==== Sys2Proof/Tests/Slice0.lean ====
section
/-! SUPPORT. The model's own tests, each one small, and the states that meet the hypotheses of the statements. -/

namespace Sys2Proof.Machine

/-- The state after one step with the words stored at `IP`, none where the step stops. -/
def after (ws : List Word) (s : State) : Option State :=
  match step (s.withCodeAtIP ws) with
  | .next t => some t
  | .fault _ => none
  | .refused _ => none

/-! ## Decoding: one word list for each constructor -/

/-- Words of vector A2 of 95_test_vectors.md, the first by its fields `d1 d2 d3 m opcode` (30_encoding.md R70). -/
theorem test_decode_inc :
    (decodeWords [0b00_00_00_0_000010000, 0x0010]).toOption =
      some (.inc .unsigned (.reg .g1), []) := by decide

/-- Words of vector A8 of 95_test_vectors.md, the first by its fields `d1 d2 d3 m opcode` (30_encoding.md R70). -/
theorem test_decode_dec :
    (decodeWords [0b00_00_00_0_000010001, 0x0010]).toOption =
      some (.dec .unsigned (.reg .g1), []) := by decide

/-- Words of vector A14 of 95_test_vectors.md, the first by its fields `d1 d2 d3 m opcode` (30_encoding.md R70). -/
theorem test_decode_add :
    (decodeWords [0b10_10_00_0_000010010, 0x0002, 0x0001]).toOption =
      some (.add .unsigned (.mem .general 0x0002) (.mem .general 0x0001), []) := by decide

/-- Words of vector A18 of 95_test_vectors.md, the first by its fields `d1 d2 d3 m opcode` (30_encoding.md R70). -/
theorem test_decode_sub :
    (decodeWords [0b00_00_00_0_000010011, 0x0120]).toOption =
      some (.sub .unsigned (.reg .g1) (.reg .g2), []) := by decide

/-- Words of vector A21 of 95_test_vectors.md, the first by its fields `d1 d2 d3 m opcode` (30_encoding.md R70). -/
theorem test_decode_mul :
    (decodeWords [0b00_00_00_0_000010100, 0x0120]).toOption =
      some (.mul .unsigned (.reg .g1) (.reg .g2), []) := by decide

/-- Words of vector A27 of 95_test_vectors.md, the first by its fields `d1 d2 d3 m opcode` (30_encoding.md R70). -/
theorem test_decode_div :
    (decodeWords [0b00_00_00_1_000010101, 0x0120]).toOption =
      some (.div .signed (.reg .g1) (.reg .g2), []) := by decide

/-- Words of vector A40 of 95_test_vectors.md, the first by its fields `d1 d2 d3 m opcode` (30_encoding.md R70). -/
theorem test_decode_adc :
    (decodeWords [0b00_00_00_0_000010110, 0x0120]).toOption =
      some (.adc .unsigned (.reg .g1) (.reg .g2), []) := by decide

/-- Words of vector A46 of 95_test_vectors.md, the first by its fields `d1 d2 d3 m opcode` (30_encoding.md R70). -/
theorem test_decode_sbc :
    (decodeWords [0b00_00_00_0_000010111, 0x0120]).toOption =
      some (.sbc .unsigned (.reg .g1) (.reg .g2), []) := by decide

/-- Words of vector B3 of 95_test_vectors.md, the first by its fields `d1 d2 d3 m opcode` (30_encoding.md R70). -/
theorem test_decode_and :
    (decodeWords [0b10_10_00_0_000100000, 0x0005, 0x0006]).toOption =
      some (.and (.mem .general 0x0005) (.mem .general 0x0006), []) := by decide

/-- Words of vector B6 of 95_test_vectors.md, the first by its fields `d1 d2 d3 m opcode` (30_encoding.md R70). -/
theorem test_decode_or :
    (decodeWords [0b00_00_00_0_000100001, 0x0120]).toOption =
      some (.or (.reg .g1) (.reg .g2), []) := by decide

/-- Words of vector B10 of 95_test_vectors.md, the first by its fields `d1 d2 d3 m opcode` (30_encoding.md R70). -/
theorem test_decode_xor :
    (decodeWords [0b00_00_00_0_000100010, 0x0110]).toOption =
      some (.xor (.reg .g1) (.reg .g1), []) := by decide

/-- Words of vector B12 of 95_test_vectors.md, the first by its fields `d1 d2 d3 m opcode` (30_encoding.md R70). -/
theorem test_decode_not :
    (decodeWords [0b00_00_00_0_000100011, 0x0010]).toOption =
      some (.not (.reg .g1), []) := by decide

/-- Words of vector B15 of 95_test_vectors.md, the first by its fields `d1 d2 d3 m opcode` (30_encoding.md R70). -/
theorem test_decode_shl :
    (decodeWords [0b10_10_00_0_000100100, 0x0005, 0x0006]).toOption =
      some (.shl (.mem .general 0x0005) (.mem .general 0x0006), []) := by decide

/-- Words of vector B25 of 95_test_vectors.md, the first by its fields `d1 d2 d3 m opcode` (30_encoding.md R70). -/
theorem test_decode_shr :
    (decodeWords [0b10_10_00_1_000100101, 0x0005, 0x0006]).toOption =
      some (.shr .signed (.mem .general 0x0005) (.mem .general 0x0006), []) := by decide

/-- Words of vector B40 of 95_test_vectors.md, the first by its fields `d1 d2 d3 m opcode` (30_encoding.md R70). -/
theorem test_decode_rol :
    (decodeWords [0b10_10_00_0_000100110, 0x0005, 0x0006]).toOption =
      some (.rol (.mem .general 0x0005) (.mem .general 0x0006), []) := by decide

/-- Words of vector B45 of 95_test_vectors.md, the first by its fields `d1 d2 d3 m opcode` (30_encoding.md R70). -/
theorem test_decode_ror :
    (decodeWords [0b10_10_00_0_000100111, 0x0005, 0x0006]).toOption =
      some (.ror (.mem .general 0x0005) (.mem .general 0x0006), []) := by decide

/-- Words of vector B48 of 95_test_vectors.md, the first by its fields `d1 d2 d3 m opcode` (30_encoding.md R70). -/
theorem test_decode_bsw :
    (decodeWords [0b00_00_00_0_000101000, 0x0010]).toOption =
      some (.bsw (.reg .g1), []) := by decide

/-- Words of vector M4 of 95_test_vectors.md, the first by its fields `d1 d2 d3 m opcode` (30_encoding.md R70). -/
theorem test_decode_cpy :
    (decodeWords [0b10_00_00_0_000110000, 0x0010, 0x0005]).toOption =
      some (.cpy (.mem .general 0x0005) (.reg .g1), []) := by decide

/-- Words of vector M18 of 95_test_vectors.md, the first by its fields `d1 d2 d3 m opcode` (30_encoding.md R70). -/
theorem test_decode_mcp :
    (decodeWords [0b00_00_00_0_000110001, 0x1230]).toOption =
      some (.mcp (.reg .g1) (.reg .g2) (.reg .g3), []) := by decide

/-- Words of vector M22 of 95_test_vectors.md, the first by its fields `d1 d2 d3 m opcode` (30_encoding.md R70). -/
theorem test_decode_icp :
    (decodeWords [0b00_10_00_0_000110010, 0x0010, 0x1234]).toOption =
      some (.icp (.reg .g1) (.mem .general 0x1234), []) := by decide

/-- Words of vector M29 of 95_test_vectors.md, the first by its fields `d1 d2 d3 m opcode` (30_encoding.md R70). -/
theorem test_decode_cmp :
    (decodeWords [0b00_00_00_0_000110011, 0x0120]).toOption =
      some (.cmp .unsigned (.reg .g1) (.reg .g2), []) := by decide

/-- Words of vector M44 of 95_test_vectors.md, the first by its fields `d1 d2 d3 m opcode` (30_encoding.md R70). -/
theorem test_decode_swp :
    (decodeWords [0b00_10_00_0_000110100, 0x0010, 0x0005]).toOption =
      some (.swp (.reg .g1) (.mem .general 0x0005), []) := by decide

/-- Words of vector M50 of 95_test_vectors.md, the first by its fields `d1 d2 d3 m opcode` (30_encoding.md R70). -/
theorem test_decode_rcf :
    (decodeWords [0b00_10_00_1_000110101, 0x0010, 0x0010]).toOption =
      some (.rcf .signed (.reg .g1) (.mem .general 0x0010), []) := by decide

/-- Words of vector M61 of 95_test_vectors.md, the first by its fields `d1 d2 d3 m opcode` (30_encoding.md R70). -/
theorem test_decode_rct :
    (decodeWords [0b10_00_00_1_000110110, 0x0010, 0x0010]).toOption =
      some (.rct .signed (.mem .general 0x0010) (.reg .g1), []) := by decide

/-- Words of vector J1 of 95_test_vectors.md, the first by its fields `d1 d2 d3 m opcode` (30_encoding.md R70). -/
theorem test_decode_jmp :
    (decodeWords [0b00_00_00_0_001000000]).toOption =
      some (.jmp, []) := by decide

/-- Words of vector J8 of 95_test_vectors.md, the first by its fields `d1 d2 d3 m opcode` (30_encoding.md R70). -/
theorem test_decode_jz :
    (decodeWords [0b00_00_00_0_001000001]).toOption =
      some (.jz, []) := by decide

/-- Words of vector J12 of 95_test_vectors.md, the first by its fields `d1 d2 d3 m opcode` (30_encoding.md R70). -/
theorem test_decode_je :
    (decodeWords [0b00_00_00_0_001000010]).toOption =
      some (.je, []) := by decide

/-- Words of vector J16 of 95_test_vectors.md, the first by its fields `d1 d2 d3 m opcode` (30_encoding.md R70). -/
theorem test_decode_jl :
    (decodeWords [0b00_00_00_0_001000011]).toOption =
      some (.jl, []) := by decide

/-- Words of vector J20 of 95_test_vectors.md, the first by its fields `d1 d2 d3 m opcode` (30_encoding.md R70). -/
theorem test_decode_jg :
    (decodeWords [0b00_00_00_0_001000100]).toOption =
      some (.jg, []) := by decide

/-- Words of vector J24 of 95_test_vectors.md, the first by its fields `d1 d2 d3 m opcode` (30_encoding.md R70). -/
theorem test_decode_jc :
    (decodeWords [0b00_00_00_0_001000101]).toOption =
      some (.jc, []) := by decide

/-- Words of vector J28 of 95_test_vectors.md, the first by its fields `d1 d2 d3 m opcode` (30_encoding.md R70). -/
theorem test_decode_ji :
    (decodeWords [0b00_00_00_0_001000110]).toOption =
      some (.ji, []) := by decide

/-- Words of vector J32 of 95_test_vectors.md, the first by its fields `d1 d2 d3 m opcode` (30_encoding.md R70). -/
theorem test_decode_jse :
    (decodeWords [0b00_00_00_0_001000111]).toOption =
      some (.jse, []) := by decide

/-- Words of vector J36 of 95_test_vectors.md, the first by its fields `d1 d2 d3 m opcode` (30_encoding.md R70). -/
theorem test_decode_jsf :
    (decodeWords [0b00_00_00_0_001001000]).toOption =
      some (.jsf, []) := by decide

/-- Words of vector J40 of 95_test_vectors.md, the first by its fields `d1 d2 d3 m opcode` (30_encoding.md R70). -/
theorem test_decode_clz :
    (decodeWords [0b00_00_00_0_001001001]).toOption =
      some (.clz, []) := by decide

/-- Words of vector J42 of 95_test_vectors.md, the first by its fields `d1 d2 d3 m opcode` (30_encoding.md R70). -/
theorem test_decode_clc :
    (decodeWords [0b00_00_00_0_001001010]).toOption =
      some (.clc, []) := by decide

/-- Words of vector J44 of 95_test_vectors.md, the first by its fields `d1 d2 d3 m opcode` (30_encoding.md R70). -/
theorem test_decode_cla :
    (decodeWords [0b00_00_00_0_001001011]).toOption =
      some (.cla, []) := by decide

/-- Words of vector K6 of 95_test_vectors.md, the first by its fields `d1 d2 d3 m opcode` (30_encoding.md R70). -/
theorem test_decode_push :
    (decodeWords [0b00_00_00_0_001010000, 0x0010]).toOption =
      some (.push (.reg .g1), []) := by decide

/-- Words of vector K17 of 95_test_vectors.md, the first by its fields `d1 d2 d3 m opcode` (30_encoding.md R70). -/
theorem test_decode_pop :
    (decodeWords [0b10_00_00_0_001010001, 0x0005]).toOption =
      some (.pop (.mem .general 0x0005), []) := by decide

/-- Words of vector L1 of 95_test_vectors.md, the first by its fields `d1 d2 d3 m opcode` (30_encoding.md R70). -/
theorem test_decode_call :
    (decodeWords [0b00_00_00_0_001100000, 0x2170]).toOption =
      some (.call (.reg .g2) (.reg .g1) (.reg .sp), []) := by decide

/-- Words of vector L14 of 95_test_vectors.md, the first by its fields `d1 d2 d3 m opcode` (30_encoding.md R70). -/
theorem test_decode_retv :
    (decodeWords [0b00_00_00_0_001100001]).toOption =
      some (.retv, []) := by decide

/-- Words of vector L17 of 95_test_vectors.md, the first by its fields `d1 d2 d3 m opcode` (30_encoding.md R70). -/
theorem test_decode_retz :
    (decodeWords [0b00_00_00_0_001100010]).toOption =
      some (.retz, []) := by decide

/-- Words of vector I3 of 95_test_vectors.md, the first by its fields `d1 d2 d3 m opcode` (30_encoding.md R70). -/
theorem test_decode_rdc :
    (decodeWords [0b10_00_00_0_001110000, 0x0005]).toOption =
      some (.rdc (.mem .general 0x0005), []) := by decide

/-- Words of vector I9 of 95_test_vectors.md, the first by its fields `d1 d2 d3 m opcode` (30_encoding.md R70). -/
theorem test_decode_wrc :
    (decodeWords [0b00_00_00_0_001110001, 0x0010]).toOption =
      some (.wrc (.reg .g1), []) := by decide

/-- Words of vector X1 of 95_test_vectors.md, the first by its fields `d1 d2 d3 m opcode` (30_encoding.md R70). -/
theorem test_decode_halt :
    (decodeWords [0b00_00_00_0_010000000]).toOption =
      some (.halt, []) := by decide

/-- Words of vector X3 of 95_test_vectors.md, the first by its fields `d1 d2 d3 m opcode` (30_encoding.md R70). -/
theorem test_decode_nop :
    (decodeWords [0b00_00_00_0_010000001]).toOption =
      some (.nop, []) := by decide

/-- Words of vector X5 of 95_test_vectors.md, the first by its fields `d1 d2 d3 m opcode` (30_encoding.md R70). -/
theorem test_decode_cip :
    (decodeWords [0b00_00_00_0_010000010, 0x0010]).toOption =
      some (.cip (.reg .g1), []) := by decide

/-! ## One step: at most two for each instruction -/

/-- Vector A2 of 95_test_vectors.md: ``INC %g1``. -/
theorem test_inc_a2 :
    (after [0x0010, 0x0010] { State.reset with g1 := 0xFFFF }).map (fun t => (t.g1, t.fl, t.ip)) =
      some (0x0000, 0x01, 0x0003) := by decide

/-- Vector A3 of 95_test_vectors.md: ``INC g:5``. -/
theorem test_inc_a3 :
    (after [0x8010, 0x0005] { State.reset with general := Memory.write [] 0x0005 0xFF00 }).map (fun t => (t.fl, t.ip, t.general.read 0x0005)) =
      some (0x00, 0x0003, 0x0001) := by decide

/-- Vector A8 of 95_test_vectors.md: ``DEC %g1``. -/
theorem test_dec_a8 :
    (after [0x0011, 0x0010] { State.reset with g1 := 0x0000 }).map (fun t => (t.g1, t.fl, t.ip)) =
      some (0xFFFF, 0x00, 0x0003) := by decide

/-- Vector A10 of 95_test_vectors.md: ``DEC g:1``. -/
theorem test_dec_a10 :
    (after [0x8011, 0x0001] { State.reset with general := Memory.write [] 0x0001 0x0500 }).map (fun t => (t.fl, t.ip, t.general.read 0x0001)) =
      some (0x00, 0x0003, 0x0400) := by decide

/-- Vector A14 of 95_test_vectors.md: ``ADD g:2,g:1``. -/
theorem test_add_a14 :
    (after [0xA012, 0x0002, 0x0001] { State.reset with general := Memory.write (Memory.write [] 0x0002 0x0A00) 0x0001 0x0500 }).map (fun t => (t.fl, t.ip, t.general.read 0x0002)) =
      some (0x00, 0x0004, 0x0F00) := by decide

/-- Vector A16 of 95_test_vectors.md: ``ADD.s %g1,%g2``. -/
theorem test_add_a16 :
    (after [0x0212, 0x0120] { State.reset with g1 := 0xFFFF, g2 := 0x0001, fl := 0x10 }).map (fun t => (t.g1, t.fl, t.ip)) =
      some (0x0000, 0x11, 0x0003) := by decide

/-- Vector A18 of 95_test_vectors.md: ``SUB %g1,%g2``. -/
theorem test_sub_a18 :
    (after [0x0013, 0x0120] { State.reset with g1 := 0x0003, g2 := 0x0005 }).map (fun t => (t.g1, t.fl, t.ip)) =
      some (0xFFFE, 0x00, 0x0003) := by decide

/-- Vector A20 of 95_test_vectors.md: ``SUB %g1,g:0``. -/
theorem test_sub_a20 :
    (after [0x2013, 0x0010, 0x0000] { State.reset with g1 := 0x0007 }).map (fun t => (t.fl, t.ip)) =
      some (0x00, 0x0004) := by decide

/-- Vector A21 of 95_test_vectors.md: ``MUL %g1,%g2``. -/
theorem test_mul_a21 :
    (after [0x0014, 0x0120] { State.reset with g1 := 0x012C, g2 := 0x012C }).map (fun t => (t.g1, t.fl, t.ip)) =
      some (0x5F90, 0x00, 0x0003) := by decide

/-- Vector A25 of 95_test_vectors.md: ``MUL.s %g1,%g2``. -/
theorem test_mul_a25 :
    (after [0x0214, 0x0120] { State.reset with g1 := 0xFFFE, g2 := 0x0003 }).map (fun t => (t.g1, t.fl, t.ip)) =
      some (0xFFFA, 0x00, 0x0003) := by decide

/-- Vector A27 of 95_test_vectors.md: ``DIV.s %g1,%g2``. -/
theorem test_div_a27 :
    (after [0x0215, 0x0120] { State.reset with g1 := 0xFFF9, g2 := 0x0002 }).map (fun t => (t.g1, t.fl, t.ip)) =
      some (0xFFFD, 0x00, 0x0003) := by decide

/-- Vector A39 of 95_test_vectors.md: ``DIV g:5,g:0``. -/
theorem test_div_a39 :
    (after [0xA015, 0x0005, 0x0000] { State.reset with general := Memory.write [] 0x0005 0x6400 }).map (fun t => (t.fl, t.ip, t.general.read 0x0005)) =
      some (0x21, 0x0004, 0x0000) := by decide

/-- Vector A40 of 95_test_vectors.md: ``ADC %g1,%g2``. -/
theorem test_adc_a40 :
    (after [0x0016, 0x0120] { State.reset with g1 := 0x7FFF, g2 := 0x0001 }).map (fun t => (t.g1, t.fl, t.ip)) =
      some (0x8000, 0x10, 0x0003) := by decide

/-- Vector A42 of 95_test_vectors.md: ``ADC %g1,%g2``. -/
theorem test_adc_a42 :
    (after [0x0016, 0x0120] { State.reset with g1 := 0xFFFF, g2 := 0xFFFF }).map (fun t => (t.g1, t.fl, t.ip)) =
      some (0xFFFE, 0x00, 0x0003) := by decide

/-- Vector A46 of 95_test_vectors.md: ``SBC %g1,%g2``. -/
theorem test_sbc_a46 :
    (after [0x0017, 0x0120] { State.reset with g1 := 0x0000, g2 := 0x0001 }).map (fun t => (t.g1, t.fl, t.ip)) =
      some (0xFFFF, 0x10, 0x0003) := by decide

/-- Vector A49 of 95_test_vectors.md: ``SBC %g1,%g1``. -/
theorem test_sbc_a49 :
    (after [0x0017, 0x0110] { State.reset with g1 := 0x9000 }).map (fun t => (t.g1, t.fl, t.ip)) =
      some (0x0000, 0x11, 0x0003) := by decide

/-- Vector B3 of 95_test_vectors.md: ``AND g:5,g:6``. -/
theorem test_and_b3 :
    (after [0xA020, 0x0005, 0x0006] { State.reset with general := Memory.write (Memory.write [] 0x0005 0x34F2) 0x0006 0xFF0F }).map (fun t => (t.fl, t.ip, t.general.read 0x0005)) =
      some (0x00, 0x0004, 0x3402) := by decide

/-- Vector B4 of 95_test_vectors.md: ``AND %g1,g:5``. -/
theorem test_and_b4 :
    (after [0x2020, 0x0010, 0x0005] { State.reset with g1 := 0x0FF0, general := Memory.write [] 0x0005 0x3C3C }).map (fun t => (t.g1, t.fl, t.ip)) =
      some (0x0C30, 0x00, 0x0004) := by decide

/-- Vector B6 of 95_test_vectors.md: ``OR %g1,%g2``. -/
theorem test_or_b6 :
    (after [0x0021, 0x0120] { State.reset with g1 := 0xF000, g2 := 0x000F }).map (fun t => (t.g1, t.fl, t.ip)) =
      some (0xF00F, 0x00, 0x0003) := by decide

/-- Vector B8 of 95_test_vectors.md: ``OR %g1,%fl``. -/
theorem test_or_b8 :
    (after [0x0021, 0x0160] { State.reset with g1 := 0x0100, fl := 0x11 }).map (fun t => (t.g1, t.fl, t.ip)) =
      some (0x0111, 0x10, 0x0003) := by decide

/-- Vector B10 of 95_test_vectors.md: ``XOR %g1,%g1``. -/
theorem test_xor_b10 :
    (after [0x0022, 0x0110] { State.reset with g1 := 0xAAAA }).map (fun t => (t.g1, t.fl, t.ip)) =
      some (0x0000, 0x01, 0x0003) := by decide

/-- Vector B9 of 95_test_vectors.md: ``XOR %g1,%g2``. -/
theorem test_xor_b9 :
    (after [0x0022, 0x0120] { State.reset with g1 := 0xAAAA, g2 := 0xFFFF }).map (fun t => (t.g1, t.fl, t.ip)) =
      some (0x5555, 0x00, 0x0003) := by decide

/-- Vector B12 of 95_test_vectors.md: ``NOT %g1``. -/
theorem test_not_b12 :
    (after [0x0023, 0x0010] { State.reset with g1 := 0x00FF }).map (fun t => (t.g1, t.fl, t.ip)) =
      some (0xFF00, 0x00, 0x0003) := by decide

/-- Vector B13 of 95_test_vectors.md: ``NOT g:5``. -/
theorem test_not_b13 :
    (after [0x8023, 0x0005] { State.reset with general := Memory.write [] 0x0005 0x3412 }).map (fun t => (t.fl, t.ip, t.general.read 0x0005)) =
      some (0x00, 0x0003, 0xCBED) := by decide

/-- Vector B15 of 95_test_vectors.md: ``SHL g:5,g:6``. -/
theorem test_shl_b15 :
    (after [0xA024, 0x0005, 0x0006] { State.reset with general := Memory.write (Memory.write [] 0x0005 0x8001) 0x0006 0x0001 }).map (fun t => (t.fl, t.ip, t.general.read 0x0005)) =
      some (0x00, 0x0004, 0x0002) := by decide

/-- Vector B23 of 95_test_vectors.md: ``SHL %g1,%g2``. -/
theorem test_shl_b23 :
    (after [0x0024, 0x0120] { State.reset with g1 := 0x0001, g2 := 0x0001 }).map (fun t => (t.g1, t.fl, t.ip)) =
      some (0x0000, 0x01, 0x0003) := by decide

/-- Vector B25 of 95_test_vectors.md: ``SHR.s g:5,g:6``. -/
theorem test_shr_b25 :
    (after [0xA225, 0x0005, 0x0006] { State.reset with general := Memory.write (Memory.write [] 0x0005 0x8001) 0x0006 0x0004 }).map (fun t => (t.fl, t.ip, t.general.read 0x0005)) =
      some (0x00, 0x0004, 0xF800) := by decide

/-- Vector B31 of 95_test_vectors.md: ``SHR.s g:5,g:6``. -/
theorem test_shr_b31 :
    (after [0xA225, 0x0005, 0x0006] { State.reset with general := Memory.write (Memory.write [] 0x0005 0x8001) 0x0006 0x0300 }).map (fun t => (t.fl, t.ip, t.general.read 0x0005)) =
      some (0x00, 0x0004, 0xFFFF) := by decide

/-- Vector B40 of 95_test_vectors.md: ``ROL g:5,g:6``. -/
theorem test_rol_b40 :
    (after [0xA026, 0x0005, 0x0006] { State.reset with general := Memory.write (Memory.write [] 0x0005 0x1234) 0x0006 0xFFFF }).map (fun t => (t.fl, t.ip, t.general.read 0x0005)) =
      some (0x00, 0x0004, 0x091A) := by decide

/-- Vector B42 of 95_test_vectors.md: ``ROL %g1,%g2``. -/
theorem test_rol_b42 :
    (after [0x0026, 0x0120] { State.reset with g1 := 0x0080, g2 := 0x0100 }).map (fun t => (t.g1, t.fl, t.ip)) =
      some (0x0100, 0x00, 0x0003) := by decide

/-- Vector B45 of 95_test_vectors.md: ``ROR g:5,g:6``. -/
theorem test_ror_b45 :
    (after [0xA027, 0x0005, 0x0006] { State.reset with general := Memory.write (Memory.write [] 0x0005 0x1234) 0x0006 0x0014 }).map (fun t => (t.fl, t.ip, t.general.read 0x0005)) =
      some (0x00, 0x0004, 0x4123) := by decide

/-- Vector B47 of 95_test_vectors.md: ``ROR %g1,%g2``. -/
theorem test_ror_b47 :
    (after [0x0027, 0x0120] { State.reset with g1 := 0x0100, g2 := 0x0100 }).map (fun t => (t.g1, t.fl, t.ip)) =
      some (0x0080, 0x00, 0x0003) := by decide

/-- Vector B48 of 95_test_vectors.md: ``BSW %g1``. -/
theorem test_bsw_b48 :
    (after [0x0028, 0x0010] { State.reset with g1 := 0x1234 }).map (fun t => (t.g1, t.fl, t.ip)) =
      some (0x3412, 0x00, 0x0003) := by decide

/-- Vector B51 of 95_test_vectors.md: ``BSW g:5``. -/
theorem test_bsw_b51 :
    (after [0x8028, 0x0005] { State.reset with general := Memory.write [] 0x0005 0x3412 }).map (fun t => (t.fl, t.ip, t.general.read 0x0005)) =
      some (0x00, 0x0003, 0x1234) := by decide

/-- Vector M4 of 95_test_vectors.md: ``CPY g:5,%g1``. -/
theorem test_cpy_m4 :
    (after [0x8030, 0x0010, 0x0005] { State.reset with g1 := 0x1234 }).map (fun t => (t.fl, t.ip, t.general.read 0x0005)) =
      some (0x00, 0x0004, 0x3412) := by decide

/-- Vector M8 of 95_test_vectors.md: ``CPY %fl,%g1``. -/
theorem test_cpy_m8 :
    (after [0x0030, 0x0610] { State.reset with g1 := 0x00FF, fl := 0x10 }).map (fun t => (t.fl, t.ip)) =
      some (0x10, 0x0003) := by decide

/-- Vector M18 of 95_test_vectors.md: ``MCP %g1,%g2,%g3``. -/
theorem test_mcp_m18 :
    (after [0x0031, 0x1230] { State.reset with g1 := 0x0001, g2 := 0x0006, g3 := 0x0003 }).map (fun t => (t.g1, t.fl, t.ip)) =
      some (0x0002, 0x00, 0x0003) := by decide

/-- Vector M19 of 95_test_vectors.md: ``MCP %g1,%g2,g:5``. -/
theorem test_mcp_m19 :
    (after [0x0831, 0x0120, 0x0005] { State.reset with g2 := 0x0FF0, general := Memory.write [] 0x0005 0x3C3C }).map (fun t => (t.g1, t.fl, t.ip)) =
      some (0x0C30, 0x00, 0x0004) := by decide

/-- Vector M22 of 95_test_vectors.md: ``ICP %g1,#0x1234``. -/
theorem test_icp_m22 :
    (after [0x2032, 0x0010, 0x1234] State.reset).map (fun t => (t.g1, t.fl, t.ip)) =
      some (0x3412, 0x00, 0x0004) := by decide

/-- Vector F18 of 95_test_vectors.md: ``ICP %g1,%g2``. -/
theorem test_icp_f18 :
    (after [0x0032, 0x0120] { State.reset with g1 := 0x0005, g2 := 0x0006, fl := 0x12 }).map (fun t => (t.fl, t.ip, t.status)) =
      some (0x12, 0x0001, .fatalIllegalOperandKind) := by decide

/-- Vector M29 of 95_test_vectors.md: ``CMP %g1,%g2``. -/
theorem test_cmp_m29 :
    (after [0x0033, 0x0120] { State.reset with g1 := 0x0005, g2 := 0x0005, fl := 0xFF }).map (fun t => (t.fl, t.ip)) =
      some (0xF3, 0x0003) := by decide

/-- Vector M33 of 95_test_vectors.md: ``CMP.s %g1,%g2``. -/
theorem test_cmp_m33 :
    (after [0x0233, 0x0120] { State.reset with g1 := 0xFFFF, g2 := 0x0001 }).map (fun t => (t.fl, t.ip)) =
      some (0x04, 0x0003) := by decide

/-- Vector M44 of 95_test_vectors.md: ``SWP %g1,g:5``. -/
theorem test_swp_m44 :
    (after [0x2034, 0x0010, 0x0005] { State.reset with g1 := 0x1234, general := Memory.write [] 0x0005 0xCDAB }).map (fun t => (t.g1, t.fl, t.ip, t.general.read 0x0005)) =
      some (0xABCD, 0x00, 0x0004, 0x3412) := by decide

/-- Vector M47 of 95_test_vectors.md: ``SWP %ct,%g1``. -/
theorem test_swp_m47 :
    (after [0x0034, 0x0410] { State.reset with g1 := 0x1234, ct := 0x0040 }).map (fun t => (t.g1, t.ct, t.fl, t.ip)) =
      some (0x0000, 0x1234, 0x00, 0x0003) := by decide

/-- Vector M50 of 95_test_vectors.md: ``RCF.s %g1,g:0x10``. -/
theorem test_rcf_m50 :
    (after [0x2235, 0x0010, 0x0010] { State.reset with g1 := 0x1234, ct := 0x0003 }).map (fun t => (t.fl, t.ip, t.general.read 0x000D)) =
      some (0x00, 0x0004, 0x3412) := by decide

/-- Vector M53 of 95_test_vectors.md: ``RCF %g1,g:0xFFFF``. -/
theorem test_rcf_m53 :
    (after [0x2035, 0x0010, 0xFFFF] { State.reset with g1 := 0x1234, ct := 0x0002 }).map (fun t => (t.fl, t.ip, t.general.read 0x0001)) =
      some (0x00, 0x0004, 0x3412) := by decide

/-- Vector M61 of 95_test_vectors.md: ``RCT.s g:0x10,%g1``. -/
theorem test_rct_m61 :
    (after [0x8236, 0x0010, 0x0010] { State.reset with g1 := 0x1234, ct := 0x0003 }).map (fun t => (t.fl, t.ip, t.general.read 0x000D)) =
      some (0x00, 0x0004, 0x3412) := by decide

/-- Vector M63 of 95_test_vectors.md: ``RCT %g2,%g1``. -/
theorem test_rct_m63 :
    (after [0x0036, 0x0210] { State.reset with g1 := 0x1234, g2 := 0x0007, ct := 0x0003, fl := 0x01 }).map (fun t => (t.fl, t.ip)) =
      some (0x01, 0x0003) := by decide

/-- Vector J1 of 95_test_vectors.md: ``JMP``. -/
theorem test_jmp_j1 :
    (after [0x0040] { State.reset with ct := 0x0040 }).map (fun t => (t.fl, t.ip)) =
      some (0x00, 0x0040) := by decide

/-- Vector J2 of 95_test_vectors.md: ``JMP``. -/
theorem test_jmp_j2 :
    (after [0x0040] { State.reset with ct := 0x0000 }).map (fun t => (t.fl, t.ip, t.status)) =
      some (0x00, 0x0001, .haltedByJumpToZero) := by decide

/-- Vector J8 of 95_test_vectors.md: ``JZ``. -/
theorem test_jz_j8 :
    (after [0x0041] { State.reset with ct := 0x0040, fl := 0x01 }).map (fun t => (t.fl, t.ip)) =
      some (0x01, 0x0040) := by decide

/-- Vector J9 of 95_test_vectors.md: ``JZ``. -/
theorem test_jz_j9 :
    (after [0x0041] { State.reset with ct := 0x0040, fl := 0xFE }).map (fun t => (t.fl, t.ip)) =
      some (0xFE, 0x0002) := by decide

/-- Vector J12 of 95_test_vectors.md: ``JE``. -/
theorem test_je_j12 :
    (after [0x0042] { State.reset with ct := 0x0040, fl := 0x02 }).map (fun t => (t.fl, t.ip)) =
      some (0x02, 0x0040) := by decide

/-- Vector J13 of 95_test_vectors.md: ``JE``. -/
theorem test_je_j13 :
    (after [0x0042] { State.reset with ct := 0x0040, fl := 0xFD }).map (fun t => (t.fl, t.ip)) =
      some (0xFD, 0x0002) := by decide

/-- Vector J16 of 95_test_vectors.md: ``JL``. -/
theorem test_jl_j16 :
    (after [0x0043] { State.reset with ct := 0x0040, fl := 0x04 }).map (fun t => (t.fl, t.ip)) =
      some (0x04, 0x0040) := by decide

/-- Vector J17 of 95_test_vectors.md: ``JL``. -/
theorem test_jl_j17 :
    (after [0x0043] { State.reset with ct := 0x0040, fl := 0xFB }).map (fun t => (t.fl, t.ip)) =
      some (0xFB, 0x0002) := by decide

/-- Vector J20 of 95_test_vectors.md: ``JG``. -/
theorem test_jg_j20 :
    (after [0x0044] { State.reset with ct := 0x0040, fl := 0x08 }).map (fun t => (t.fl, t.ip)) =
      some (0x08, 0x0040) := by decide

/-- Vector J21 of 95_test_vectors.md: ``JG``. -/
theorem test_jg_j21 :
    (after [0x0044] { State.reset with ct := 0x0040, fl := 0xF7 }).map (fun t => (t.fl, t.ip)) =
      some (0xF7, 0x0002) := by decide

/-- Vector J24 of 95_test_vectors.md: ``JC``. -/
theorem test_jc_j24 :
    (after [0x0045] { State.reset with ct := 0x0040, fl := 0x10 }).map (fun t => (t.fl, t.ip)) =
      some (0x10, 0x0040) := by decide

/-- Vector J25 of 95_test_vectors.md: ``JC``. -/
theorem test_jc_j25 :
    (after [0x0045] { State.reset with ct := 0x0040, fl := 0xEF }).map (fun t => (t.fl, t.ip)) =
      some (0xEF, 0x0002) := by decide

/-- Vector J28 of 95_test_vectors.md: ``JI``. -/
theorem test_ji_j28 :
    (after [0x0046] { State.reset with ct := 0x0040, fl := 0x20 }).map (fun t => (t.fl, t.ip)) =
      some (0x20, 0x0040) := by decide

/-- Vector J29 of 95_test_vectors.md: ``JI``. -/
theorem test_ji_j29 :
    (after [0x0046] { State.reset with ct := 0x0040, fl := 0xDF }).map (fun t => (t.fl, t.ip)) =
      some (0xDF, 0x0002) := by decide

/-- Vector J32 of 95_test_vectors.md: ``JSE``. -/
theorem test_jse_j32 :
    (after [0x0047] { State.reset with ct := 0x0040, fl := 0x40 }).map (fun t => (t.fl, t.ip)) =
      some (0x40, 0x0040) := by decide

/-- Vector J33 of 95_test_vectors.md: ``JSE``. -/
theorem test_jse_j33 :
    (after [0x0047] { State.reset with ct := 0x0040, fl := 0xBF }).map (fun t => (t.fl, t.ip)) =
      some (0xBF, 0x0002) := by decide

/-- Vector J36 of 95_test_vectors.md: ``JSF``. -/
theorem test_jsf_j36 :
    (after [0x0048] { State.reset with ct := 0x0040, fl := 0x80 }).map (fun t => (t.fl, t.ip)) =
      some (0x80, 0x0040) := by decide

/-- Vector J37 of 95_test_vectors.md: ``JSF``. -/
theorem test_jsf_j37 :
    (after [0x0048] { State.reset with ct := 0x0040, fl := 0x7F }).map (fun t => (t.fl, t.ip)) =
      some (0x7F, 0x0002) := by decide

/-- Vector J40 of 95_test_vectors.md: ``CLZ``. -/
theorem test_clz_j40 :
    (after [0x0049] { State.reset with fl := 0xFF }).map (fun t => (t.fl, t.ip)) =
      some (0xFE, 0x0002) := by decide

/-- Vector J42 of 95_test_vectors.md: ``CLC``. -/
theorem test_clc_j42 :
    (after [0x004A] { State.reset with fl := 0xFF }).map (fun t => (t.fl, t.ip)) =
      some (0xEF, 0x0002) := by decide

/-- Vector J44 of 95_test_vectors.md: ``CLA``. -/
theorem test_cla_j44 :
    (after [0x004B] { State.reset with fl := 0xFF }).map (fun t => (t.fl, t.ip)) =
      some (0x00, 0x0002) := by decide

/-- Vector K6 of 95_test_vectors.md: ``PUSH %g1``. -/
theorem test_push_k6 :
    (after [0x0050, 0x0010] { State.reset with g1 := 0x1234, sp := 0x0001 }).map (fun t => (t.fl, t.sp, t.ip)) =
      some (0x80, 0x0000, 0x0003) := by decide

/-- Vector K9 of 95_test_vectors.md: ``PUSH %sp``. -/
theorem test_push_k9 :
    (after [0x0050, 0x0070] { State.reset with sp := 0x8000 }).map (fun t => (t.fl, t.sp, t.ip, t.stack.read 0x7FFF)) =
      some (0x00, 0x7FFF, 0x0003, 0x8000) := by decide

/-- Vector K17 of 95_test_vectors.md: ``POP g:5``. -/
theorem test_pop_k17 :
    (after [0x8051, 0x0005] { State.reset with sp := 0xFFFD, stack := Memory.write [] 0xFFFD 0x1234 }).map (fun t => (t.fl, t.sp, t.ip, t.general.read 0x0005)) =
      some (0x00, 0xFFFE, 0x0003, 0x3412) := by decide

/-- Vector K19 of 95_test_vectors.md: ``POP %sp``. -/
theorem test_pop_k19 :
    (after [0x0051, 0x0070] { State.reset with sp := 0x8000, stack := Memory.write [] 0x8000 0x1234 }).map (fun t => (t.fl, t.sp, t.ip)) =
      some (0x00, 0x1235, 0x0003) := by decide

/-- Vector L1 of 95_test_vectors.md: ``CALL %g2,%g1,%sp``. -/
theorem test_call_l1 :
    (after [0x0060, 0x2170] { State.reset with g1 := 0x0001, g2 := 0x0002, g3 := 0x0003, ct := 0x0020, cs := 0x0099, fl := 0x12 }).map (fun t => (t.g3, t.fl, t.sr, t.ip, t.stack.read 0xFFFD, t.stack.read 0xFFF9)) =
      some (0xFFF9, 0x00, 0xFFF9, 0x0020, 0x0012, 0x0002) := by decide

/-- Vector L2 of 95_test_vectors.md: ``CALL %g2,%g1,%sp``. -/
theorem test_call_l2 :
    (after [0x0060, 0x2170] { State.reset with g1 := 0x0001, g2 := 0x0002, g3 := 0x0003, ct := 0x0000, cs := 0x0099, fl := 0x12 }).map (fun t => (t.fl, t.ip)) =
      some (0x12, 0x0003) := by decide

/-- Vector L14 of 95_test_vectors.md: ``RETV``. -/
theorem test_retv_l14 :
    (after [0x0061] { State.reset with g1 := 0x002A, ct := 0x002A, cs := 0x0004, sp := 0xFFF9, sr := 0xFFF9, ip := 0x000F, stack := Memory.write (Memory.write (Memory.write [] 0xFFF9 0x0004) 0xFFFD 0x0001) 0xFFFE 0x0000 }).map (fun t => (t.ct, t.fl, t.sp, t.ip, t.stack.read 0xFFFE)) =
      some (0x0000, 0x40, 0xFFFE, 0x0008, 0x002A) := by decide

/-- Vector L18 of 95_test_vectors.md: ``RETV``. -/
theorem test_retv_l18 :
    (after [0x0061] { State.reset with ct := 0x0007, cs := 0x0004, sp := 0x0010, sr := 0x0000, ip := 0x0009 }).map (fun t => (t.ct, t.fl, t.sp, t.ip, t.stack.read 0x0005)) =
      some (0x0000, 0x00, 0x0005, 0x0004, 0x0007) := by decide

/-- Vector L17 of 95_test_vectors.md: ``RETZ``. -/
theorem test_retz_l17 :
    (after [0x0062] { State.reset with ct := 0x0077, cs := 0x0004, sp := 0xFFF9, sr := 0xFFF9, ip := 0x0009, stack := Memory.write (Memory.write (Memory.write (Memory.write (Memory.write (Memory.write [] 0xFFF9 0x0004) 0xFFFA 0x0033) 0xFFFB 0x0022) 0xFFFC 0x0011) 0xFFFD 0x0011) 0xFFFE 0x0000 }).map (fun t => (t.ct, t.fl, t.sp, t.ip)) =
      some (0x0000, 0x41, 0xFFFE, 0x0008) := by decide

/-- Vector L13 of 95_test_vectors.md: ``RETZ``. -/
theorem test_retz_l13 :
    (after [0x0062] { State.reset with fl := 0x10 }).map (fun t => (t.fl, t.sp, t.ip)) =
      some (0x51, 0xFFFE, 0x0000) := by decide

/-- Vector I3 of 95_test_vectors.md: ``RDC g:5``. -/
theorem test_rdc_i3 :
    (after [0x8070, 0x0005] { State.reset with consoleIn := [0xFF] }).map (fun t => (t.fl, t.ip, t.general.read 0x0005, t.consoleIn.length)) =
      some (0x00, 0x0003, 0xFF00, 0) := by decide

/-- Vector I6 of 95_test_vectors.md: ``RDC %g1``. -/
theorem test_rdc_i6 :
    (after [0x0070, 0x0010] { State.reset with g1 := 0x0007, fl := 0x10, consoleIn := [0x100, 0x41] }).map (fun t => (t.fl, t.ip, t.consoleIn.length)) =
      some (0x11, 0x0003, 1) := by decide

/-- Vector I9 of 95_test_vectors.md: ``WRC %g1``. -/
theorem test_wrc_i9 :
    (after [0x0071, 0x0010] { State.reset with g1 := 0x0041 }).map (fun t => (t.fl, t.ip, t.consoleOut)) =
      some (0x00, 0x0003, [0x01]) := by decide

/-- Vector I11 of 95_test_vectors.md: ``WRC g:5``. -/
theorem test_wrc_i11 :
    (after [0x8071, 0x0005] { State.reset with general := Memory.write [] 0x0005 0x0A00 }).map (fun t => (t.fl, t.ip, t.consoleOut)) =
      some (0x00, 0x0003, [0x0A]) := by decide

/-- Vector X1 of 95_test_vectors.md: ``HALT``. -/
theorem test_halt_x1 :
    (after [0x0080] { State.reset with fl := 0x5A }).map (fun t => (t.fl, t.ip, t.status)) =
      some (0x5A, 0x0001, .haltedByHalt) := by decide

/-- Vector X3 of 95_test_vectors.md: ``NOP``. -/
theorem test_nop_x3 :
    (after [0x0081] { State.reset with fl := 0x5A }).map (fun t => (t.fl, t.ip)) =
      some (0x5A, 0x0002) := by decide

/-- Vector X5 of 95_test_vectors.md: ``CIP %g1``. -/
theorem test_cip_x5 :
    (after [0x0082, 0x0010] { State.reset with ip := 0x1234 }).map (fun t => (t.g1, t.fl, t.ip)) =
      some (0x1234, 0x00, 0x1236) := by decide

/-- Vector X7 of 95_test_vectors.md: ``CIP %ct``. -/
theorem test_cip_x7 :
    (after [0x0082, 0x0040] { State.reset with ip := 0x0020 }).map (fun t => (t.ct, t.fl, t.ip)) =
      some (0x0020, 0x00, 0x0022) := by decide

/-! ## Ill-formed terms -/

theorem test_wellFormed_refuses_literal_one :
    Instr.wellFormed (.inc .unsigned (.imm 1)) = false := by decide

theorem test_wellFormed_refuses_literal_two :
    Instr.wellFormed (.add .unsigned (.reg .g1) (.imm 1)) = false := by decide

theorem test_wellFormed_refuses_literal_three :
    Instr.wellFormed (.call (.reg .g1) (.reg .g2) (.imm 1)) = false := by decide

theorem test_wellFormed_refuses_icp_bank :
    Instr.wellFormed (.icp (.reg .g1) (.mem .input 1)) = false := by decide

theorem test_wellFormed_accepts_icp_cell :
    Instr.wellFormed (.icp (.mem .input 1) (.mem .general 1)) = true := by decide

/-! ## Decoding at its edges -/

/-- Vector F16: an unassigned opcode is rejected with its number (30_encoding.md R73). -/
theorem test_decode_rejects_unassigned :
    decodeWords [0xFFFF] = .error (.unrecognizedOpcode 0x1FF) := by rfl

/-- A stream that ends inside the instruction. -/
theorem test_decode_rejects_truncated :
    decodeWords [0x0010] = .error .truncated := by rfl

/-- Image bytes, least significant first (20_memory.md R51 c). -/
theorem test_decode_bytes :
    decodeBytes [0x80, 0x00, 0x81, 0x00] = .ok (.halt, [0x0081]) := by rfl

/-- Vector E1: the low bit of a register descriptor is ignored (30_encoding.md R74). -/
theorem test_decode_ignores_register_low_bit :
    (decodeWords [0x4010, 0x0010]).toOption = some (.inc .unsigned (.reg .g1), []) := by decide

/-- Vector E9: the unused nibbles of the selector word are ignored (30_encoding.md R79). -/
theorem test_decode_ignores_selector_nibbles :
    (decodeWords [0x0012, 0xF12F]).toOption = some (.add .unsigned (.reg .g1) (.reg .g2), []) := by decide

/-- Vector E15: the bank bit of `ICP`'s literal is ignored (42_data_movement.md R142). -/
theorem test_decode_ignores_literal_bank :
    decodeWords [0x3032, 0x0010, 0x0500] = decodeWords [0x2032, 0x0010, 0x0500] := by rfl

/-- Vector E7: register code 9 is the null register (30_encoding.md R80). -/
theorem test_decode_unassigned_register :
    (decodeWords [0x0012, 0x0190]).toOption = some (.add .unsigned (.reg .g1) (.reg .null), []) := by decide

/-- Vector E13: the encoder's words (30_encoding.md R77 to R81). -/
theorem test_encode_mixed_operands :
    encode (.mcp (.reg .g1) (.mem .general 5) (.reg .g3)) = [0x2031, 0x0130, 0x0005] := by decide

/-- A table word: the second word is bits 31 to 16. -/
theorem test_decodeTableWord :
    decodeTableWord 48 0x000100020000A012 = some (.add .unsigned (.mem .general 0) (.mem .general 2)) := by decide

/-- The words that `withFetchWord` stores are the next instruction. -/
theorem test_withFetchWord :
    (match step (State.reset.withFetchWord 16 0x0080) with
      | .next t => t.status
      | .fault _ => .running
      | .refused _ => .running) = .haltedByHalt := by decide

/-! ## The cycle at its edges -/

/-- Vector F1: an unassigned opcode changes nothing but the status (60_exceptions.md R222). -/
theorem test_step_unassigned :
    (after [0x0000] { State.reset with fl := 0x12 }).map (fun t => (t.fl, t.ip, t.status)) =
      some (0x12, 0x0001, .fatalUnrecognizedOpcode) := by decide

/-- Vector E16: the words of an instruction are taken past the end of `CODE`, from index 0 on (30_encoding.md R86). -/
theorem test_step_wraps :
    (after [0xA012] { State.reset with ip := 0xFFFE }).map (fun t => (t.fl, t.ip)) = some (0x01, 0x0001) := by decide

theorem test_step_of_halted_machine :
    step { State.reset with status := .haltedByHalt } = .fault .halted := by rfl

theorem test_step_of_blocked_read :
    step (State.reset.withCodeAtIP [0x0070, 0x0010]) = .fault .consoleBlocked := by rfl

/-- The image of 95_test_vectors.md S1. -/
theorem test_image_of_halts :
    (parseImage [0x6D, 0x43, 0x54, 0x46, 2, 5, 0, 0x80, 0, 0x80, 0, 0x80, 0, 0x80, 0, 0x80, 0]).toOption =
      some [{ bank := .code, words := [0x80, 0x80, 0x80, 0x80, 0x80] }] := by decide

theorem test_image_compressed :
    (parseImage [0x6D, 0x43, 0x54, 0x5A]) = .error .compressedImage := by rfl

theorem test_image_truncated :
    (parseImage [0x6D, 0x43, 0x54, 0x46, 2, 1, 0, 0x80]) = .error .blockTruncated := by rfl

/-! ## States that meet the hypotheses of the statements

Each theorem shows the hypotheses of the statement its name ends in, met together; where the statement has clauses, each
clause, at the ends of its range. -/

/-- What a state shows of itself in a witness: running, and what is in the registers a clause asks about. -/
def running (s : State) : Bool := s.status == .running

/-- The state with one instruction at `IP`. -/
def holding (ws : List Word) : State := State.reset.withCodeAtIP ws

theorem witness_LoadPortFillsBankFromOne :
    ({ bank := .code, words := [] } : Block).words.length ≤ 65534 ∧
      ({ bank := .code, words := List.replicate 65534 1 } : Block).words.length ≤ 65534 :=
  ⟨by decide, Nat.le_of_eq (List.length_replicate)⟩

/-- A repeat with another bank between, with nothing between, and a list of all three banks once. -/
theorem witness_RepeatedBlockIsRefused :
    let c : Block := { bank := .code, words := [7] }
    let i : Block := { bank := .input, words := [] }
    let g : Block := { bank := .general, words := [8] }
    (∀ b ∈ [c, i, g], b.words.length ≤ 65534) ∧ ¬ ([c, i, c].map Block.bank).Nodup ∧ ¬ ([g, i, i].map Block.bank).Nodup ∧
      ([c, i, g].map Block.bank).Nodup := by decide

theorem witness_StandardImageParses :
    ∀ b ∈ [({ bank := .code, words := [0x0080] } : Block), { bank := .general, words := [] }], b.words.length ≤ 65534 := by
  decide

/-- The null cell, and the first and the last cell. -/
theorem witness_OperandAccessesFollowTables : (0 : Word) = 0 ∧ (0x0001 : Word) ≠ 0 ∧ (0xFFFF : Word) ≠ 0 := by decide

theorem witness_CellsKeepBothConventions : (0x0001 : Word) ≠ 0 ∧ (0xFFFF : Word) ≠ 0 ∧ (0x0002 : Word) ≠ 0x0001 := by
  decide

theorem witness_DecodeInvertsEncode :
    Instr.wellFormed (.call (.mem .general 0xFFFF) (.reg .null) (.mem .input 0)) = true ∧ Instr.wellFormed .halt = true := by
  decide

theorem witness_DecodedInstructionsAreWellFormed :
    decodeWords [0x0081, 0x0080] = .ok (.nop, [0x0080]) ∧
      decodeWords [0xA860, 1, 2, 3] = .ok (.call (.mem .general 1) (.mem .general 2) (.mem .general 3), []) :=
  ⟨rfl, rfl⟩

theorem witness_DefinitionWordTellsLength :
    decodeWindow 0x0010 0x0010 0 0 = some (.inc .unsigned (.reg .g1)) ∧
      decodeWindow 0x0010 0x0020 5 6 = some (.inc .unsigned (.reg .g2)) := by decide

/-- The first clause: `SHL` with the mode bit set and clear, the third descriptor and the unused selector nibbles different. -/
theorem witness_IgnoredBitsDecodeAlike_selector :
    opcodeField 0x0024 = numberOf .shl ∧ opcodeField 0x0E24 = numberOf .shl ∧
      (usesMode .shl = true → modeField 0x0024 = modeField 0x0E24) ∧
      usedKinds 0x0024 (arityOf .shl) = usedKinds 0x0E24 (arityOf .shl) ∧
      0 < (usedKinds 0x0024 (arityOf .shl)).countP Kind.isReg ∧
      ∀ k, 1 ≤ k → k ≤ 2 → selectorCode 0x0120 k = selectorCode 0xF12F k :=
  ⟨by decide, by decide, by decide, by decide, by decide, fun k h1 h2 => by
    match k, h1, h2 with
    | 1, _, _ => decide
    | 2, _, _ => decide⟩

/-- The second clause: `JMP`, and `ADD` with two cells. -/
theorem witness_IgnoredBitsDecodeAlike_plain :
    opcodeField 0x0040 = numberOf .jmp ∧ opcodeField 0xFE40 = numberOf .jmp ∧
      (usesMode .jmp = true → modeField 0x0040 = modeField 0xFE40) ∧
      usedKinds 0x0040 (arityOf .jmp) = usedKinds 0xFE40 (arityOf .jmp) ∧
      (usedKinds 0x0040 (arityOf .jmp)).countP Kind.isReg = 0 ∧
      usedKinds 0xA012 (arityOf .add) = usedKinds 0xAC12 (arityOf .add) ∧
      (usedKinds 0xA012 (arityOf .add)).countP Kind.isReg = 0 := by decide

theorem witness_StepRunsDecodedInstruction :
    let s := holding [0x0012, 0x0120]
    s.status = .running ∧
      decodeWords [s.code.read s.ip, s.code.read (s.ip + 1), s.code.read (s.ip + 2), s.code.read (s.ip + 3)] =
        .ok (.add .unsigned (.reg .g1) (.reg .g2), [0, 0]) :=
  ⟨rfl, rfl⟩

theorem witness_UnassignedOpcodeIsFatal :
    (holding [0xFFFF]).status = .running ∧
      (opcodeField ((holding [0xFFFF]).code.read (holding [0xFFFF]).ip)).toNat ∉ assignedOpcodes := by decide

/-- One state for each of the five statuses a step of a running machine leaves. -/
theorem witness_StatusTellsWhyRunEnded :
    [holding [0x0081], holding [0x0080], holding [0x0040], holding [0x0000], holding [0x0032, 0x0120]].map
        (fun s => (running s, match step s with
          | .next t => t.status.code
          | .fault _ => 9
          | .refused _ => 9)) =
      [(true, 0), (true, 1), (true, 2), (true, 3), (true, 4)] := by decide

/-- The two stops. -/
theorem witness_StepStopsOnlyHaltedOrBlocked :
    ({ State.reset with status := .haltedByHalt } : State).status ≠ .running ∧
      (holding [0x0070, 0x0010]).status = .running ∧ (holding [0x0070, 0x0010]).consoleIn = [] ∧
      (holding [0x0070, 0x0010]).decodeAt 1 = some (.rdc (.reg .g1)) := by decide

/-- The reset state meets the one hypothesis of these statements, for every operand: `IncAndDecResults`, `AddAndSubResults`, `MulResult`,
`AdcAndSbcResults`, `AndOrXorResults`, `NotAndBswResults`, `ShlResult`, `ShrResult`, `RolAndRorResults`,
`CpyAndMcpResults`, `IcpWritesLiteralRaw`, `CmpResult`, `SwpResult`, `RelativeCopyResults`, `FlagClearResults`,
`ReturnResults`, `WrcResult`, `MiscResults`. -/
theorem witness_running : State.reset.status = .running := by rfl

/-- A divisor of zero, and the divisors 1 and 0xFFFF. -/
theorem witness_DivResult :
    running State.reset ∧ State.reset.readC (.reg .g2) = 0 ∧
      ({ State.reset with g2 := 1 } : State).readC (.reg .g2) ≠ 0 ∧
      ({ State.reset with g2 := 0xFFFF } : State).readC (.reg .g2) ≠ 0 := by decide

theorem witness_IcpRegisterSourceIsFatal :
    (match exec (.icp (.reg .g1) (.reg .g2)) State.reset with
      | .next t => t.status
      | .fault _ => .running
      | .refused _ => .running) = .fatalIllegalOperandKind ∧ State.reset.status = .running := by decide

theorem witness_JmpResult :
    running State.reset ∧ State.reset.ct = 0 ∧ ({ State.reset with ct := 1 } : State).ct ≠ 0 ∧
      ({ State.reset with ct := 0xFFFF } : State).ct ≠ 0 := by decide

/-- Every conditional jump with its flag clear, and set with a zero and a non-zero target. -/
theorem witness_ConditionalJumpResults :
    ∀ p ∈ conditionalJumps, State.reset.flag p.2 = false ∧ ({ State.reset with fl := 0xFF } : State).flag p.2 = true ∧
      ({ State.reset with fl := 0xFF } : State).ct = 0 ∧ ({ State.reset with fl := 0xFF, ct := 1 } : State).ct ≠ 0 ∧
      ({ State.reset with fl := 0xFF, ct := 1 } : State).flag p.2 = true := by decide

/-- A full stack, and the stacks next to full and empty. -/
theorem witness_PushResult :
    running State.reset ∧ ({ State.reset with sp := 0 } : State).sp = 0 ∧ ({ State.reset with sp := 1 } : State).sp ≠ 0 ∧
      State.reset.sp ≠ 0 := by decide

/-- An empty stack, and the stacks next to empty and full, with the destinations `SP` and `G1`. -/
theorem witness_PopResult :
    running State.reset ∧ State.reset.sp = 0xFFFF ∧ ({ State.reset with sp := 0xFFFE } : State).sp ≠ 0xFFFF ∧
      ({ State.reset with sp := 0 } : State).sp ≠ 0xFFFF ∧
      (0x0001 : Word) = (if Operand.reg .sp = .reg .sp then (0 : Word) + 1 else 0xFFFE + 1) ∧
      (0xFFFF : Word) = (if Operand.reg .g1 = .reg .sp then (0 : Word) + 1 else 0xFFFE + 1) := by decide

theorem witness_PushThenPopRestores :
    running { State.reset with sp := 2 } ∧ 2 ≤ ({ State.reset with sp := 2 } : State).sp.toNat ∧
      Operand.reg .g1 ≠ .reg .sp ∧ targetOf (.reg .g1) = some (.reg .g1) ∧
      targetOf (.mem .general 1) = some (.cell .general 1) := by decide

theorem witness_CallResult :
    running State.reset ∧ State.reset.ct = 0 ∧ ({ State.reset with ct := 0x0009 } : State).ct ≠ 0 := by decide

theorem witness_CallFrameLayout :
    let s := { State.reset with ct := 9, sp := 7 }
    s.status = .running ∧ s.ct ≠ 0 ∧ 7 ≤ s.sp.toNat ∧ (1 : Word) ≠ 0 ∧ s.sp.toNat ≤ (7 : Word).toNat := by decide

/-- The callee's state is the state the call leaves, at the smallest `SP` of the hypothesis and at the empty stack, where the return
sets `SE`. -/
theorem witness_ReturnResumesAfterCall :
    let low := { State.reset with ct := 9, sp := 7 }
    let empty := { State.reset with ct := 9, sp := 0xFFFF }
    (low.status = .running ∧ low.ct ≠ 0 ∧ 7 ≤ low.sp.toNat ∧
      ∃ t, exec (.call (.reg .g1) (.reg .g2) (.reg .g3)) low = .next t ∧ t.status = .running) ∧
    (empty.status = .running ∧ empty.ct ≠ 0 ∧ 7 ≤ empty.sp.toNat ∧
      ∃ t, exec (.call (.reg .g1) (.reg .g2) (.reg .g3)) empty = .next t ∧ t.status = .running) :=
  ⟨⟨rfl, by decide, by decide, _, rfl, by decide⟩, rfl, by decide, by decide, _, rfl, by decide⟩

/-- The codes 0 and 255, accepted, and 256, not accepted. -/
theorem witness_RdcResult :
    let s : Nat → State := fun c => { State.reset with consoleIn := [c] }
    (s 0).status = .running ∧ (s 0).consoleIn = [0] ∧ (s 255).consoleIn = [255] ∧ 255 ≤ 255 ∧
      (s 256).consoleIn = [256] ∧ 255 < 256 := by decide

theorem witness_RdcWithoutInputBlocks : State.reset.consoleIn = [] := by rfl

/-- A step that emits a byte, from a state that meets the invariant; its next state serves every statement about `step s = .next t`. -/
theorem witness_StepKeepsInvariant :
    (holding [0x0071, 0x0010]).Inv ∧ ∃ t, step (holding [0x0071, 0x0010]) = .next t ∧ t.consoleOut.length = 1 :=
  ⟨⟨⟨by decide, by decide, by decide, by decide⟩, by decide, by decide, by decide, by decide⟩, _, rfl, by decide⟩

theorem witness_OutputIsNeverReadBack :
    ∃ t, step (holding [0x0071, 0x0010]) = .next t ∧ t.consoleOut = [0] := ⟨_, rfl, by decide⟩

theorem witness_CodeAndInputNeverChange :
    (∃ t, step (holding [0x0081]) = .next t) ∧ (0x0001 : Word) ≠ 0 ∧ (0xFFFF : Word) ≠ 0 := ⟨⟨_, rfl⟩, by decide⟩

/-- A push, for the clause on `GENERAL`, and a copy, for the clause on `STACK`. -/
theorem witness_BanksChangeOnlyByTheirOpcodes :
    (∃ t, exec (.push (.reg .g1)) State.reset = .next t) ∧
      Instr.opcode (.push (.reg .g1)) ∈ [Opcode.push, .call, .retv, .retz] ∧
      (∃ t, exec (.cpy (.mem .general 1) (.reg .sp)) State.reset = .next t) ∧
      Instr.opcode (.cpy (.mem .general 1) (.reg .sp)) ∉ [Opcode.push, .call, .retv, .retz] :=
  ⟨⟨_, rfl⟩, by decide, ⟨_, rfl⟩, by decide⟩

theorem witness_CallSiteAndSnapshotOnlyByCall :
    (∃ t, exec .retv State.reset = .next t) ∧ Instr.opcode .retv ≠ .call := ⟨⟨_, rfl⟩, by decide⟩

/-- One instruction that moves each flag each way, and one for the last clause. -/
theorem witness_FlagsMoveOnlyByTheirOpcodes :
    [ (Instr.adc .unsigned (.reg .sp) (.reg .g1), { State.reset with sp := 0x7FFF, g1 := 1 }, Flag.c)
    , (.clc, { State.reset with fl := 0x10 }, .c)
    , (.div .unsigned (.reg .g1) (.reg .g2), State.reset, .i)
    , (.cla, { State.reset with fl := 0x20 }, .i)
    , (.pop (.reg .g1), State.reset, .se)
    , (.cla, { State.reset with fl := 0x40 }, .se)
    , (.push (.reg .g1), { State.reset with sp := 0 }, .sf)
    , (.cla, { State.reset with fl := 0x80 }, .sf) ].map
        (fun c => (c.2.1.flag c.2.2, match exec c.1 c.2.1 with
          | .next t => t.flag c.2.2
          | .fault _ => c.2.1.flag c.2.2
          | .refused _ => c.2.1.flag c.2.2)) =
      [(false, true), (true, false), (false, true), (true, false), (false, true), (true, false), (false, true), (true, false)] ∧
    (∃ t, exec .nop State.reset = .next t) ∧ Instr.opcode .nop ∈ [Opcode.nop] :=
  ⟨by decide, ⟨_, rfl⟩, by decide⟩

/-- An instruction of either kind: one that goes on, and one that blocks. -/
theorem witness_CallTargetIsHidden :
    readsCallTarget (.inc .unsigned (.reg .ct)) = false ∧ (∃ t, exec (.inc .unsigned (.reg .ct)) State.reset = .next t) ∧
      readsCallTarget (.rdc (.reg .ct)) = false ∧ exec (.rdc (.reg .ct)) State.reset = .fault .consoleBlocked :=
  ⟨by decide, ⟨_, rfl⟩, by decide, rfl⟩

end Sys2Proof.Machine
end

