-- ==== Sys2Proof/Proofs/Canon.lean ====
section
/-! The byte-order conversion `canon` (00_scope.md R3) as a permutation of the sixteen bits. Whatever acts on each bit by
itself commutes with a permutation, and this one is its own inverse. -/

namespace Sys2Proof.Machine

/-- `canon` moves each bit by half a word; the index wraps at the word's end. -/
theorem canon_getLsbD (w : Word) {j : Nat} (hj : j < 16) : (canon w).getLsbD j = w.getLsbD ((j + 8) % 16) := by
  unfold canon
  rw [bswap16_getLsbD]
  by_cases hlow : j < 8
  · have hidx : (j + 8) % 16 = j + 8 := by omega
    rw [if_pos hlow, hidx]
  · have hidx : (j + 8) % 16 = j - 8 := by omega
    simp [hlow, hj, hidx]

theorem canon_eq_append (w : Word) : canon w = w.extractLsb' 0 8 ++ w.extractLsb' 8 8 := by
  refine BitVec.eq_of_getLsbD_eq fun j hj => ?_
  rw [canon_getLsbD w hj, BitVec.getLsbD_append]
  by_cases hlow : j < 8
  · have hidx : (j + 8) % 16 = 8 + j := by omega
    simp [hlow, hidx]
  · have hidx : (j + 8) % 16 = j - 8 := by omega
    have hbyte : j - 8 < 8 := by omega
    simp [hlow, hidx, hbyte]

@[simp] theorem canon_canon (w : Word) : canon (canon w) = w := by
  refine BitVec.eq_of_getLsbD_eq fun j hj => ?_
  have hback : ((j + 8) % 16 + 8) % 16 = j := by omega
  rw [canon_getLsbD _ hj, canon_getLsbD _ (Nat.mod_lt _ (by decide)), hback]

@[simp] theorem canon_zero : canon 0 = 0 := rfl

theorem canon_injective : Function.Injective canon :=
  Function.Involutive.injective canon_canon

@[simp] theorem canon_eq_zero_iff (w : Word) : canon w = 0 ↔ w = 0 :=
  canon_injective.eq_iff' canon_zero

theorem canon_and (v w : Word) : canon (v &&& w) = canon v &&& canon w := by
  refine BitVec.eq_of_getLsbD_eq fun j hj => ?_
  simp only [BitVec.getLsbD_and, canon_getLsbD _ hj]

theorem canon_or (v w : Word) : canon (v ||| w) = canon v ||| canon w := by
  refine BitVec.eq_of_getLsbD_eq fun j hj => ?_
  simp only [BitVec.getLsbD_or, canon_getLsbD _ hj]

theorem canon_xor (v w : Word) : canon (v ^^^ w) = canon v ^^^ canon w := by
  refine BitVec.eq_of_getLsbD_eq fun j hj => ?_
  simp only [BitVec.getLsbD_xor, canon_getLsbD _ hj]

/-- The complement also bounds the index, so both positions have to lie in the word. -/
theorem canon_not (w : Word) : canon (~~~w) = ~~~(canon w) := by
  refine BitVec.eq_of_getLsbD_eq fun j hj => ?_
  have hmoved : (j + 8) % 16 < 16 := Nat.mod_lt _ (by decide)
  simp only [BitVec.getLsbD_not, canon_getLsbD _ hj, hj, hmoved]

/-- With the parameter `CANON` at `bswap16` (00_scope.md R3) the two functions are one. -/
theorem canon_bswap16 (w : Word) : canon (bswap16 w) = bswap16 (canon w) := rfl

/-- Settles O7: `canon` as a permutation of the bits, one lemma for each property of 00_scope.md R3. -/
theorem canonProperties : Obligations.CanonProperties := fun v w =>
  ⟨canon_eq_append w, canon_canon w, canon_eq_zero_iff w, canon_and v w, canon_or v w, canon_xor v w, canon_not w,
    canon_bswap16 w⟩

end Sys2Proof.Machine
end

