-- ==== Sys2Proof/Proofs/CallTarget.lean ====
section
/-! The true value of `CT` as a secret (10_state.md R12). Two runs whose states differ in `CT` alone read the same operands,
since a register operand that names `CT` reads 0 (20_memory.md R48); every operation they share keeps them so. -/

namespace Sys2Proof.Machine

/-- The two states differ in `CT` at most. -/
def SameButCT (s t : State) : Prop := ∃ c : Word, t = { s with ct := c }

/-- Two runs of an instruction end alike: in states that differ in `CT` at most, or in the same fault. -/
inductive EndsAlike : Host.Outcome State Fault Refusal → Host.Outcome State Fault Refusal → Prop
  | next {s t : State} (h : SameButCT s t) : EndsAlike (.next s) (.next t)
  | fault (f : Fault) : EndsAlike (.fault f) (.fault f)

theorem EndsAlike.of_next {s : State} {x : Host.Outcome State Fault Refusal} (h : EndsAlike (.next s) x) :
    ∃ t, x = .next t ∧ SameButCT s t := by
  cases h with
  | next h => exact ⟨_, rfl, h⟩

theorem EndsAlike.of_fault {f : Fault} {x : Host.Outcome State Fault Refusal} (h : EndsAlike (.fault f) x) :
    x = .fault f := by
  cases h
  rfl

namespace SameButCT

variable {s t : State}

/-! ## What the two runs read -/

theorem regRead (h : SameButCT s t) (r : Reg) : t.regRead r = s.regRead r := by
  obtain ⟨c, rfl⟩ := h
  cases r <;> rfl

theorem cellRead (h : SameButCT s t) (b : DataBank) (i : Word) : t.cellRead b i = s.cellRead b i := by
  obtain ⟨c, rfl⟩ := h
  rfl

theorem readC (h : SameButCT s t) (o : Operand) : t.readC o = s.readC o := by
  cases o with
  | reg r => exact h.regRead r
  | mem b i => simp only [State.readC, h.cellRead]
  | imm v => rfl

theorem readR (h : SameButCT s t) (o : Operand) : t.readR o = s.readR o := by
  cases o with
  | reg r => exact congrArg canon (h.regRead r)
  | mem b i => exact h.cellRead b i
  | imm v => rfl

theorem sp (h : SameButCT s t) : t.sp = s.sp := by
  obtain ⟨c, rfl⟩ := h
  rfl

theorem ip (h : SameButCT s t) : t.ip = s.ip := by
  obtain ⟨c, rfl⟩ := h
  rfl

theorem stack (h : SameButCT s t) : t.stack = s.stack := by
  obtain ⟨c, rfl⟩ := h
  rfl

theorem consoleIn (h : SameButCT s t) : t.consoleIn = s.consoleIn := by
  obtain ⟨c, rfl⟩ := h
  rfl

/-! ## Flags, registers and streams -/

theorem assignFlag (h : SameButCT s t) (f : Flag) (b : Bool) : SameButCT (s.assignFlag f b) (t.assignFlag f b) := by
  obtain ⟨c, rfl⟩ := h
  exact ⟨c, rfl⟩

theorem stickFlag (h : SameButCT s t) (f : Flag) (b : Bool) : SameButCT (s.stickFlag f b) (t.stickFlag f b) := by
  cases b with
  | false => exact h
  | true => exact h.assignFlag f true

theorem reportZero (h : SameButCT s t) (v : Word) : SameButCT (s.reportZero v) (t.reportZero v) :=
  h.assignFlag .z (v == 0)

theorem clearFlags (h : SameButCT s t) : SameButCT s.clearFlags t.clearFlags := by
  obtain ⟨c, rfl⟩ := h
  exact ⟨c, rfl⟩

theorem setStatus (h : SameButCT s t) (x : HaltStatus) : SameButCT { s with status := x } { t with status := x } := by
  obtain ⟨c, rfl⟩ := h
  exact ⟨c, rfl⟩

theorem setSP (h : SameButCT s t) (p : Word) : SameButCT { s with sp := p } { t with sp := p } := by
  obtain ⟨c, rfl⟩ := h
  exact ⟨c, rfl⟩

theorem setTop (h : SameButCT s t) (p : Word) (m : Memory) :
    SameButCT { s with sp := p, stack := m } { t with sp := p, stack := m } := by
  obtain ⟨c, rfl⟩ := h
  exact ⟨c, rfl⟩

theorem setConsoleIn (h : SameButCT s t) (l : List Nat) :
    SameButCT { s with consoleIn := l } { t with consoleIn := l } := by
  obtain ⟨c, rfl⟩ := h
  exact ⟨c, rfl⟩

theorem consoleWrite (h : SameButCT s t) (b : Byte) : SameButCT (s.consoleWrite b) (t.consoleWrite b) := by
  obtain ⟨c, rfl⟩ := h
  exact ⟨c, rfl⟩

/-! ## Operand writes -/

/-- A write to `CT` puts the same word in both runs. -/
theorem regWrite (h : SameButCT s t) (r : Reg) (v : Word) (opc : Opcode) :
    SameButCT (s.regWrite r v opc) (t.regWrite r v opc) := by
  obtain ⟨c, rfl⟩ := h
  cases r with
  | ct => exact ⟨v, rfl⟩
  | cs =>
    simp only [State.regWrite]
    split
    · exact ⟨c, rfl⟩
    · exact ⟨c, rfl⟩
  | fl =>
    simp only [State.regWrite]
    split
    · exact ⟨c, rfl⟩
    · exact ⟨c, rfl⟩
  | null | g1 | g2 | g3 | sp => exact ⟨c, rfl⟩

theorem cellWrite (h : SameButCT s t) (b : DataBank) (i w : Word) :
    SameButCT (s.cellWrite b i w) (t.cellWrite b i w) := by
  obtain ⟨c, rfl⟩ := h
  unfold State.cellWrite
  split
  · exact ⟨c, rfl⟩
  · cases b with
    | general => exact ⟨c, rfl⟩
    | input => exact ⟨c, rfl⟩

theorem writeC (h : SameButCT s t) (o : Operand) (opc : Opcode) {v w : Word} (hv : w = v) :
    SameButCT (s.writeC o v opc) (t.writeC o w opc) := by
  subst hv
  cases o with
  | reg r => exact h.regWrite r w opc
  | mem b i => exact h.cellWrite b i (canon w)
  | imm _ => exact h

theorem writeR (h : SameButCT s t) (o : Operand) (opc : Opcode) {v w : Word} (hv : w = v) :
    SameButCT (s.writeR o v opc) (t.writeR o w opc) := by
  subst hv
  cases o with
  | reg r => exact h.regWrite r (canon w) opc
  | mem b i => exact h.cellWrite b i w
  | imm _ => exact h

theorem resultC (h : SameButCT s t) (o : Operand) (opc : Opcode) {v w : Word} (hv : w = v) :
    SameButCT (s.resultC o v opc) (t.resultC o w opc) := by
  subst hv
  exact (h.writeC o opc rfl).reportZero w

theorem resultR (h : SameButCT s t) (o : Operand) (opc : Opcode) {v w : Word} (hv : w = v) :
    SameButCT (s.resultR o v opc) (t.resultR o w opc) := by
  subst hv
  exact (h.writeR o opc rfl).reportZero w

theorem reportCarry (h : SameButCT s t) {a b x y : Word} (ha : b = a) (hx : y = x) :
    SameButCT (s.reportCarry a x) (t.reportCarry b y) := by
  subst ha hx
  exact h.stickFlag .c _

theorem acceptChar (h : SameButCT s t) (o : Operand) (k : Nat) : SameButCT (s.acceptChar o k) (t.acceptChar o k) := by
  unfold State.acceptChar
  split
  · exact h.assignFlag .z true
  · exact (h.writeC o .rdc rfl).reportZero _

/-! ## The stack procedures -/

theorem push (h : SameButCT s t) {v w : Word} (hv : w = v) : SameButCT (s.push v) (t.push w) := by
  subst hv
  unfold State.push
  rw [h.sp, h.stack]
  split
  · exact h.stickFlag .sf true
  · exact ((h.setTop _ _).stickFlag .sf _).reportZero w

theorem popTo (h : SameButCT s t) (o : Operand) (opc : Opcode) :
    SameButCT (s.pop (some o) opc).2 (t.pop (some o) opc).2 := by
  unfold State.pop
  rw [h.sp, h.stack]
  split
  · exact ((h.stickFlag .se true).assignFlag .z true).writeC o opc rfl
  · have hdest : SameButCT (s.popDest (some o) (s.stack.read s.sp) opc) (t.popDest (some o) (s.stack.read s.sp) opc) :=
      h.writeC o opc rfl
    simp only [hdest.sp]
    exact ((hdest.setSP _).stickFlag .se _).reportZero _

/-! ## The end of a cycle -/

theorem zeroSentinels (h : SameButCT s t) : SameButCT s.zeroSentinels t.zeroSentinels := by
  obtain ⟨c, rfl⟩ := h
  exact ⟨c, rfl⟩

theorem advanceIP (h : SameButCT s t) (fl : Flow) (n : Nat) : SameButCT (s.advanceIP fl n) (t.advanceIP fl n) := by
  obtain ⟨c, rfl⟩ := h
  unfold State.advanceIP
  split
  · exact ⟨c, rfl⟩
  · exact ⟨c, rfl⟩

theorem complete (h : SameButCT s t) (os : List Operand) :
    EndsAlike (Sys2Proof.Machine.complete os s) (Sys2Proof.Machine.complete os t) :=
  .next (h.zeroSentinels.advanceIP .advance (wordCount os))

end SameButCT

/-- An instruction that does not look at the true value of `CT` ends alike from states that differ there alone: its operands
read the same words, and each operation it is made of keeps the states alike. -/
theorem exec_endsAlike {s t : State} (i : Instr) (hi : readsCallTarget i = false) (h : SameButCT s t) :
    EndsAlike (exec i s) (exec i t) := by
  cases i with
  | inc _ o1 | dec _ o1 | add _ o1 _ | sub _ o1 _ | mul _ o1 _ | cpy o1 _ | mcp o1 _ _ =>
    exact (h.resultC o1 _ (by simp only [h.readC])).complete _
  | div m o1 o2 =>
    simp only [exec, execDiv, h.readC]
    split
    · exact (((h.writeC o1 .div rfl).assignFlag .i true).assignFlag .z true).complete _
    · exact (h.resultC o1 .div rfl).complete _
  | adc _ o1 _ | sbc _ o1 _ =>
    simp only [exec, execAdc, execSbc, h.readC]
    exact ((h.resultC o1 _ rfl).reportCarry rfl rfl).complete _
  | and o1 _ | or o1 _ | xor o1 _ | not o1 | shl o1 _ | shr _ o1 _ | rol o1 _ | ror o1 _ | bsw o1 =>
    exact (h.resultR o1 _ (by simp only [h.readR])).complete _
  | icp o1 o2 =>
    cases o2 with
    | mem b i => exact (h.resultR o1 .icp rfl).complete _
    | reg _ | imm _ => exact .next (h.setStatus .fatalIllegalOperandKind)
  | cmp m o1 o2 =>
    simp only [exec, execCmp, h.readC]
    exact ((((h.assignFlag .e _).assignFlag .l _).assignFlag .g _).stickFlag .z _).complete _
  | swp o1 o2 =>
    simp only [exec, execSwp, h.readC]
    exact (((h.writeC o1 .swp rfl).writeC o2 .swp rfl).reportZero _).complete _
  | clz => exact (h.assignFlag .z false).complete _
  | clc => exact (h.assignFlag .c false).complete _
  | cla => exact h.clearFlags.complete _
  | push o1 => exact (h.push (h.readC o1)).complete _
  | pop o1 => exact (h.popTo o1 .pop).complete _
  | rdc o1 =>
    simp only [exec, execRdc, h.consoleIn]
    cases s.consoleIn with
    | nil => exact .fault .consoleBlocked
    | cons k ks => exact ((h.setConsoleIn ks).acceptChar o1 k).complete _
  | wrc o1 =>
    simp only [exec, execWrc, h.readC]
    exact (h.consoleWrite _).complete _
  | halt => exact (h.setStatus .haltedByHalt).complete _
  | nop => exact h.complete _
  | cip o1 => exact (h.resultC o1 .cip h.ip).complete _
  | jmp | jz | je | jl | jg | jc | ji | jse | jsf | call _ _ _ | retv | retz | rcf _ _ _ | rct _ _ _ =>
    exact Bool.noConfusion hi

/-- Settles O57: from a state and its copy with another `CT` the instruction ends alike. -/
theorem callTargetIsHidden : Obligations.CallTargetIsHidden := by
  intro i s c hi
  have hends : EndsAlike (exec i s) (exec i { s with ct := c }) := exec_endsAlike i hi ⟨c, rfl⟩
  constructor
  · intro t ht
    rw [ht] at hends
    obtain ⟨_, ht', d, rfl⟩ := hends.of_next
    exact ⟨_, ht', rfl⟩
  · intro f hf
    rw [hf] at hends
    exact hends.of_fault

end Sys2Proof.Machine
end

