-- ==== Sys2Proof/Proofs/Permissions.lean ====
section
/-! What an instruction may move of `CS`, `SR` and the flags (10_state.md R13, R16, R22). The permissions of an opcode make a
reflexive and transitive relation on states; each operation of an instruction stays within them, so the instruction does. -/

namespace Sys2Proof.Machine

/-- The table of 10_state.md R22: whether an opcode may bring a flag to a value it did not have. -/
def mayMoveFlag (opc : Opcode) : Flag → Bool → Bool
  | .z, _ => decide (opc ∉ [Opcode.wrc, .jmp, .jz, .je, .jl, .jg, .jc, .ji, .jse, .jsf, .clc, .halt, .nop])
  | .e, _ | .l, _ | .g, _ => decide (opc ∈ [Opcode.cmp, .cla, .call])
  | .c, true => decide (opc ∈ [Opcode.adc, .sbc])
  | .c, false => decide (opc ∈ [Opcode.clc, .cla, .call])
  | .i, true => decide (opc ∈ [Opcode.div])
  | .se, true => decide (opc ∈ [Opcode.pop, .retv, .retz])
  | .sf, true => decide (opc ∈ [Opcode.push, .call, .retv, .retz])
  | .i, false | .se, false | .sf, false => decide (opc ∈ [Opcode.cla, .call])

/-- From `s` to `t` nothing moved but what the opcode may move: `CS` and `SR` under `CALL` only, each flag by the table. -/
structure Within (opc : Opcode) (s t : State) : Prop where
  cs : opc ≠ .call → t.cs = s.cs
  sr : opc ≠ .call → t.sr = s.sr
  flag : ∀ f, t.flag f = s.flag f ∨ mayMoveFlag opc f (t.flag f) = true

/-- Every next state the outcome can be stays within the opcode's permissions. -/
def EndsWithin (opc : Opcode) (s : State) (x : Host.Outcome State Fault Refusal) : Prop :=
  ∀ t, x = .next t → Within opc s t

namespace Within

variable {opc : Opcode} {s t u : State}

theorem refl (s : State) : Within opc s s := ⟨fun _ => rfl, fun _ => rfl, fun _ => .inl rfl⟩

theorem trans (h : Within opc s t) (k : Within opc t u) : Within opc s u where
  cs hc := (k.cs hc).trans (h.cs hc)
  sr hc := (k.sr hc).trans (h.sr hc)
  flag f := by
    rcases k.flag f with hk | hk
    · rw [hk]
      exact h.flag f
    · exact .inr hk

/-- An operation that leaves `CS`, `SR` and `FL` alone needs no permission. -/
theorem of_same (hcs : t.cs = s.cs) (hsr : t.sr = s.sr) (hfl : t.fl = s.fl) : Within opc s t :=
  ⟨fun _ => hcs, fun _ => hsr, fun f => .inl (flag_congr t s f hfl)⟩

/-! ## What the table then says of a flag -/

theorem mayMove_of_moved (h : Within opc s t) {f : Flag} {b : Bool} (ht : t.flag f = b) (hs : s.flag f = !b) :
    mayMoveFlag opc f b = true := by
  rcases h.flag f with hkept | hmay
  · rw [ht, hs] at hkept
    exact absurd hkept.symm (Bool.not_ne_self b)
  · rwa [ht] at hmay

theorem flag_kept (h : Within opc s t) {f : Flag} (hno : ∀ b, mayMoveFlag opc f b = false) : t.flag f = s.flag f :=
  (h.flag f).resolve_right (by simp [hno])

/-! ## Flags -/

theorem assignFlag (h : Within opc s t) (f : Flag) (b : Bool) (hm : mayMoveFlag opc f b = true := by rfl) :
    Within opc s (t.assignFlag f b) := by
  refine h.trans ⟨fun _ => rfl, fun _ => rfl, fun k => ?_⟩
  rw [flag_assignFlag]
  split
  next hk => exact .inr (hk ▸ hm)
  next => exact .inl rfl

theorem stickFlag (h : Within opc s t) (f : Flag) (b : Bool) (hm : mayMoveFlag opc f true = true := by rfl) :
    Within opc s (t.stickFlag f b) := by
  cases b with
  | false => exact h
  | true => exact h.assignFlag f true hm

theorem reportZero (h : Within opc s t) (v : Word) (hz : ∀ b, mayMoveFlag opc .z b = true := by exact fun _ => rfl) :
    Within opc s (t.reportZero v) :=
  h.assignFlag .z (v == 0) (hz _)

/-- An opcode that may clear every flag may leave `FL` at 0. -/
theorem of_fl_zero (hcs : opc ≠ .call → t.cs = s.cs) (hsr : opc ≠ .call → t.sr = s.sr) (hfl : t.fl = 0)
    (hm : ∀ f, mayMoveFlag opc f false = true) : Within opc s t := by
  refine ⟨hcs, hsr, fun f => .inr ?_⟩
  have hclear : t.flag f = false := (flag_congr t t.clearFlags f hfl).trans (flag_clearFlags t f)
  rw [hclear]
  exact hm f

/-! ## Registers and operand writes -/

theorem setSP (h : Within opc s t) (p : Word) : Within opc s { t with sp := p } :=
  h.trans (of_same rfl rfl rfl)

theorem setIP (h : Within opc s t) (p : Word) : Within opc s { t with ip := p } :=
  h.trans (of_same rfl rfl rfl)

theorem setCT (h : Within opc s t) (p : Word) : Within opc s { t with ct := p } :=
  h.trans (of_same rfl rfl rfl)

theorem writeC (h : Within opc s t) (o : Operand) (v : Word) (ho : ordinary opc := by exact ⟨rfl, rfl⟩) :
    Within opc s (t.writeC o v opc) :=
  h.trans (of_same (writeC_cs t o v opc ho) (writeC_sr t o v opc) (writeC_fl t o v opc ho))

theorem writeR (h : Within opc s t) (o : Operand) (v : Word) (ho : ordinary opc := by exact ⟨rfl, rfl⟩) :
    Within opc s (t.writeR o v opc) :=
  h.trans (of_same (writeR_cs t o v opc ho) (writeR_sr t o v opc) (writeR_fl t o v opc ho))

/-! ## The stack procedures -/

theorem push (h : Within opc s t) (v : Word) (hsf : mayMoveFlag opc .sf true = true := by rfl)
    (hz : ∀ b, mayMoveFlag opc .z b = true := by exact fun _ => rfl) : Within opc s (t.push v) := by
  unfold State.push
  split
  · exact h.stickFlag .sf true hsf
  · have htop : Within opc s { t with sp := t.sp - 1, stack := t.stack.write (t.sp - 1) v } :=
      h.trans (of_same rfl rfl rfl)
    exact (htop.stickFlag .sf _ hsf).reportZero v hz

theorem popDest (h : Within opc s t) (d : Option Operand) (v : Word) (hd : d = none ∨ ordinary opc) :
    Within opc s (t.popDest d v opc) := by
  cases d with
  | none => exact h
  | some o => exact h.writeC o v (hd.resolve_left (by simp))

theorem pop (h : Within opc s t) (d : Option Operand) (hd : d = none ∨ ordinary opc)
    (hse : mayMoveFlag opc .se true = true := by rfl)
    (hz : ∀ b, mayMoveFlag opc .z b = true := by exact fun _ => rfl) : Within opc s (t.pop d opc).2 := by
  unfold State.pop
  split
  · exact ((h.stickFlag .se true hse).assignFlag .z true (hz true)).popDest d 0 hd
  · exact (((h.popDest d _ hd).setSP _).stickFlag .se _ hse).reportZero _ hz

theorem drop (h : Within opc s t) (hse : mayMoveFlag opc .se true = true)
    (hz : ∀ b, mayMoveFlag opc .z b = true) : Within opc s (t.drop opc) :=
  h.pop none (.inl rfl) hse hz

theorem returnValue (h : Within opc s t) (hse : mayMoveFlag opc .se true = true := by rfl)
    (hsf : mayMoveFlag opc .sf true = true := by rfl)
    (hz : ∀ b, mayMoveFlag opc .z b = true := by exact fun _ => rfl) : Within opc s (t.returnValue opc) := by
  have hlength := ((h.reportZero t.ct hz).setSP t.sr).pop none (.inl rfl) hse hz
  have hframe (ip : Word) := (((((hlength.setIP ip).drop hse hz).drop hse hz).drop hse hz).drop hse hz).drop hse hz
  exact ((hframe _).push _ hsf hz).setCT 0

/-! ## The ends of an instruction -/

theorem relCopy (h : Within opc s t) (o : Operand) (m : Mode) (v : Word) (ho : ordinary opc := by exact ⟨rfl, rfl⟩)
    (hz : ∀ b, mayMoveFlag opc .z b = true := by exact fun _ => rfl) : Within opc s (t.relCopy o m v opc) := by
  unfold State.relCopy
  split
  · exact h
  · exact (h.writeC _ v ho).reportZero v hz

theorem acceptChar (h : Within .rdc s t) (o : Operand) (k : Nat) : Within .rdc s (t.acceptChar o k) := by
  unfold State.acceptChar
  split
  · exact h.assignFlag .z true
  · exact (h.writeC o _).reportZero _

theorem endCycle (h : Within opc s t) (fl : Flow) (n : Nat) : EndsWithin opc s (.next (t.endCycle fl n)) := by
  rintro _ ⟨⟩
  exact h.trans (of_same (endCycle_cs t fl n) (endCycle_sr t fl n) (endCycle_fl t fl n))

theorem complete (h : Within opc s t) {os : List Operand} : EndsWithin opc s (Sys2Proof.Machine.complete os t) :=
  h.endCycle .advance _

end Within

/-- A jump, taken or not, moves `IP` or the halt status. -/
theorem jumpIf_endsWithin (opc : Opcode) (s : State) (f : Flag) : EndsWithin opc s (completeFlow (s.jumpIf f)) :=
  (Within.of_same (jumpIf_cs s f) (jumpIf_sr s f) (jumpIf_fl s f)).endCycle _ _

/-- Every instruction stays within its opcode's permissions: its operations do, one after the other. -/
theorem exec_endsWithin (i : Instr) (s : State) : EndsWithin i.opcode s (exec i s) := by
  have h {opc : Opcode} : Within opc s s := Within.refl s
  cases i with
  | inc _ o1 | dec _ o1 | add _ o1 _ | sub _ o1 _ | mul _ o1 _ | cpy o1 _ | mcp o1 _ _ | cip o1 =>
    exact ((h.writeC o1 _).reportZero _).complete
  | div m o1 o2 =>
    simp only [exec, execDiv]
    split
    · exact (((h.writeC o1 0).assignFlag .i true).assignFlag .z true).complete
    · exact ((h.writeC o1 _).reportZero _).complete
  | adc _ o1 _ | sbc _ o1 _ => exact (((h.writeC o1 _).reportZero _).stickFlag .c _).complete
  | and o1 _ | or o1 _ | xor o1 _ | not o1 | shl o1 _ | shr _ o1 _ | rol o1 _ | ror o1 _ | bsw o1 =>
    exact ((h.writeR o1 _).reportZero _).complete
  | icp o1 o2 =>
    cases o2 with
    | mem b i => exact ((h.writeR o1 i).reportZero i).complete
    | reg _ | imm _ =>
      rintro _ ⟨⟩
      exact .of_same rfl rfl rfl
  | cmp m o1 o2 =>
    exact ((((h.assignFlag .e _).assignFlag .l _).assignFlag .g _).stickFlag .z _).complete
  | swp o1 o2 => exact (((h.writeC o1 _).writeC o2 _).reportZero _).complete
  | rcf m o1 o2 => exact (h.relCopy o2 m _).complete
  | rct m o1 o2 => exact (h.relCopy o1 m _).complete
  | jmp => exact (Within.of_same (jump_cs s) (jump_sr s) (jump_fl s)).endCycle _ _
  | jz | je | jl | jg | jc | ji | jse | jsf => exact jumpIf_endsWithin _ s _
  | clz => exact (h.assignFlag .z false).complete
  | clc => exact (h.assignFlag .c false).complete
  | cla =>
    have hclear : Within .cla s s.clearFlags :=
      .of_fl_zero (fun _ => rfl) (fun _ => rfl) rfl (fun f => by cases f <;> rfl)
    exact hclear.complete
  | push o1 => exact (h.push _).complete
  | pop o1 => exact (h.pop (some o1) (.inr ⟨rfl, rfl⟩)).complete
  | call p1 p2 p3 =>
    simp only [exec, execCall]
    split
    · exact h.complete
    · have hcall : Within .call s (s.enterCall p1 p2 p3) :=
        .of_fl_zero (absurd rfl) (absurd rfl) (enterCall_fl s p1 p2 p3) (fun f => by cases f <;> rfl)
      exact hcall.endCycle _ _
  | retv => exact h.returnValue.endCycle _ _
  | retz => exact (h.setCT 0).returnValue.endCycle _ _
  | rdc o1 =>
    simp only [exec, execRdc]
    cases s.consoleIn with
    | nil => rintro _ ⟨⟩
    | cons k ks =>
      have hread : Within .rdc s { s with consoleIn := ks } := .of_same rfl rfl rfl
      exact (hread.acceptChar o1 k).complete
  | wrc o1 =>
    have hwrite (b : Byte) : Within .wrc s (s.consoleWrite b) := .of_same rfl rfl rfl
    exact (hwrite _).complete
  | halt =>
    have hhalt : Within .halt s (s.halt .haltedByHalt) := .of_same rfl rfl rfl
    exact hhalt.complete
  | nop => exact h.complete

/-- Settles O55: no opcode but `CALL` has the permission. -/
theorem callSiteAndSnapshotOnlyByCall : Obligations.CallSiteAndSnapshotOnlyByCall := by
  intro i s t hexec hcall
  have hw := exec_endsWithin i s t hexec
  exact ⟨hw.cs hcall, hw.sr hcall⟩

/-- Settles O56: each clause is a row of the table `mayMoveFlag`. -/
theorem flagsMoveOnlyByTheirOpcodes : Obligations.FlagsMoveOnlyByTheirOpcodes := by
  intro i s t hexec
  have hw := exec_endsWithin i s t hexec
  refine ⟨fun hno => ?elg, ?c1, ?c0, ?i1, ?i0, ?se1, ?se0, ?sf1, ?sf0, fun hkeep => ?z⟩
  case elg =>
    exact ⟨hw.flag_kept fun _ => decide_eq_false hno, hw.flag_kept fun _ => decide_eq_false hno,
      hw.flag_kept fun _ => decide_eq_false hno⟩
  case z => exact hw.flag_kept fun _ => decide_eq_false (not_not_intro hkeep)
  case i1 => exact fun ht hs => List.mem_singleton.mp (of_decide_eq_true (hw.mayMove_of_moved ht hs))
  all_goals exact fun ht hs => of_decide_eq_true (hw.mayMove_of_moved ht hs)

end Sys2Proof.Machine
end

