-- ==== Sys2Proof/Proofs/Reset.lean ====
section
/-! What the reset state holds (10_state.md R34). -/

namespace Sys2Proof.Machine

theorem reset_flag (f : Flag) : State.reset.flag f = false :=
  flag_clearFlags State.reset f

theorem reset_bank (b : Bank) : State.reset.bank b = [] := by
  cases b <;> rfl

/-- Settles O1: the fields are the record's, the flags those of a zero `FL`, and an empty bank reads 0. -/
theorem resetLeavesStatedValues : Obligations.ResetLeavesStatedValues := by
  refine ⟨rfl, rfl, rfl, rfl, rfl, rfl, rfl, reset_flag, rfl, rfl, rfl, fun b i => ?_⟩
  rw [reset_bank, read_nil]

end Sys2Proof.Machine
end

