-- ==== Sys2Proof/Proofs/Operands.lean ====
section
/-! How operands reach registers and cells (20_memory.md R40 to R48). The laws of one access stand first: what it does to a
register, to cell 0, to a cell of GENERAL and to one of INPUT; the statements are these laws put together. -/

namespace Sys2Proof.Machine

/-! ## The register gates (20_memory.md R48) -/

theorem mayWriteFL_iff (opc : Opcode) : mayWriteFL opc = true ↔ opc ∈ [Opcode.call, .retv, .retz] := by
  simp [mayWriteFL, or_assoc]

theorem mayWriteCS_iff (opc : Opcode) : mayWriteCS opc = true ↔ opc = .call := by
  simp [mayWriteCS]

theorem regRead_fl_toNat (s : State) : (s.regRead .fl).toNat = s.fl.toNat :=
  BitVec.toNat_setWidth_of_le (by decide)

theorem regWrite_fl (s : State) (w : Word) (opc : Opcode) :
    s.regWrite .fl w opc = if opc ∈ [Opcode.call, .retv, .retz] then { s with fl := w.setWidth 8 } else s := by
  simp only [State.regWrite, mayWriteFL_iff, BitVec.setWidth_eq_extractLsb' (by decide : 8 ≤ 16)]

theorem regWrite_cs (s : State) (w : Word) (opc : Opcode) :
    s.regWrite .cs w opc = if opc = .call then { s with cs := w } else s := by
  simp only [State.regWrite, mayWriteCS_iff]

/-- Settles O8: the gates of `FL` and `CS` by their lemmas, the other registers by their equations. -/
theorem registerGates : Obligations.RegisterGates := fun s w opc =>
  ⟨⟨rfl, rfl, regRead_fl_toNat s, rfl, rfl, rfl, rfl, rfl⟩, rfl, regWrite_fl s w opc, regWrite_cs s w opc,
    rfl, rfl, rfl, rfl, rfl⟩

/-! ## Cell 0 and the input bank (20_memory.md R44 to R46) -/

@[simp] theorem cellRead_zero (s : State) (b : DataBank) : s.cellRead b 0 = 0 := rfl

@[simp] theorem cellWrite_zero (s : State) (b : DataBank) (w : Word) : s.cellWrite b 0 w = s := rfl

@[simp] theorem cellWrite_inputBank (s : State) (i w : Word) : s.cellWrite .input i w = s := by
  unfold State.cellWrite
  split
  · rfl
  · rfl

/-! ## The other cells -/

theorem cellRead_of_ne (s : State) (b : DataBank) {i : Word} (hi : i ≠ 0) :
    s.cellRead b i = (s.bank (bankOf b)).read i := by
  unfold State.cellRead
  rw [if_neg hi]
  cases b with
  | general => rfl
  | input => rfl

theorem cellWrite_general_of_ne (s : State) {i : Word} (w : Word) (hi : i ≠ 0) :
    s.cellWrite .general i w = { s with general := s.general.write i w } :=
  if_neg hi

/-- `canon 0 = 0`, so the case of cell 0 needs no branch of its own (20_memory.md R46). -/
theorem readC_mem (s : State) (b : DataBank) (i : Word) : s.readC (.mem b i) = canon (s.cellRead b i) := by
  by_cases hi : i = 0
  · rw [hi, cellRead_zero, canon_zero]
    rfl
  · exact if_neg hi

theorem readR_mem (s : State) (b : DataBank) (i : Word) : s.readR (.mem b i) = s.cellRead b i := rfl

theorem writeC_mem (s : State) (b : DataBank) (i v : Word) (opc : Opcode) :
    s.writeC (.mem b i) v opc = s.cellWrite b i (canon v) := rfl

theorem writeR_mem (s : State) (b : DataBank) (i v : Word) (opc : Opcode) :
    s.writeR (.mem b i) v opc = s.cellWrite b i v := rfl

/-- Settles O9: an access of a cell is one of its stored word, up to `canon`. -/
theorem operandAccessesFollowTables : Obligations.OperandAccessesFollowTables := by
  intro s r b i v w opc
  simp only [readC_mem, readR_mem, writeC_mem, writeR_mem]
  refine ⟨⟨rfl, rfl, rfl, rfl⟩, ⟨rfl, rfl, rfl, rfl⟩, fun hzero => ?_, fun hi => ?_⟩
  · subst hzero
    exact ⟨canon_zero, rfl, rfl, rfl⟩
  · rw [cellRead_of_ne s b hi, cellWrite_general_of_ne s _ hi, cellWrite_general_of_ne s _ hi]
    exact ⟨rfl, rfl, rfl, rfl, cellWrite_inputBank s i _, cellWrite_inputBank s i v⟩

/-! ## Read after write (20_memory.md R42 to R45) -/

theorem cellRead_cellWrite_same (s : State) {i : Word} (w : Word) (hi : i ≠ 0) :
    (s.cellWrite .general i w).cellRead .general i = w := by
  rw [cellWrite_general_of_ne s w hi, cellRead_of_ne _ .general hi]
  exact read_write_same s.general i w

theorem cellWrite_general_read (s : State) {i : Word} (w j : Word) (hi : i ≠ 0) :
    (s.cellWrite .general i w).general.read j = if j = i then w else s.general.read j := by
  rw [cellWrite_general_of_ne s w hi]
  exact read_write s.general i j w

/-- Settles O10: the stored word comes back, and each convention puts one `canon` between it and the engine's value. -/
theorem cellsKeepBothConventions : Obligations.CellsKeepBothConventions := by
  intro s i w opc b
  simp only [readC_mem, readR_mem, writeC_mem, writeR_mem]
  refine ⟨fun hi => ?_, cellWrite_inputBank s i _, cellWrite_inputBank s i w, rfl, rfl, canon_zero, rfl⟩
  simp only [cellRead_cellWrite_same s _ hi, cellWrite_general_read s _ _ hi, canon_canon, if_true, true_and]
  intro j hj
  simp only [if_neg hj, and_self]

end Sys2Proof.Machine
end

