-- ==== Sys2Proof/Proofs/LoadPort.lean ====
section
/-! The load port and the image (20_memory.md R58 to R60). A block is laid into one bank from index 1 on; a list of blocks is
loaded if no bank occurs twice in it; and the parser undoes, block by block, what `imageBytes` writes. -/

namespace Sys2Proof.Machine

/-! ## One block (20_memory.md R58) -/

theorem putBlock_bank (s : State) (b : Block) (c : Bank) :
    (s.putBlock b).bank c = if c = bankOfLoad b.bank then (s.bank c).loadFrom 1 b.words else s.bank c := by
  obtain ⟨bank, words⟩ := b
  cases bank <;> cases c <;> rfl

/-- A block that fits never reaches the index that would wrap to cell 0. -/
theorem putBlock_read (s : State) (b : Block) (c : Bank) (k : Word) (hlen : b.words.length ≤ 65534) :
    ((s.putBlock b).bank c).read k =
      if c = bankOfLoad b.bank ∧ 1 ≤ k.toNat ∧ k.toNat ≤ b.words.length then b.words.getD (k.toNat - 1) 0
      else (s.bank c).read k := by
  rw [putBlock_bank]
  by_cases hc : c = bankOfLoad b.bank
  · have hone : (1 : Word).toNat = 1 := rfl
    rw [if_pos hc, loadFrom_read b.words _ 1 k (by omega), hone]
    simp only [hc, true_and, Nat.lt_one_add_iff]
  · rw [if_neg hc, if_neg (fun h => hc h.1)]

/-- What a block leaves alone outside the banks. -/
theorem putBlock_frame (s : State) (b : Block) :
    (s.putBlock b).x = s.x ∧ (s.putBlock b).fl = s.fl ∧ (s.putBlock b).ip = s.ip ∧ (s.putBlock b).status = s.status ∧
      (s.putBlock b).consoleIn = s.consoleIn ∧ (s.putBlock b).consoleOut = s.consoleOut := by
  obtain ⟨bank, words⟩ := b
  cases bank <;> exact ⟨rfl, rfl, rfl, rfl, rfl, rfl⟩

theorem loadBlock_of_short (b : Block) (s : State) (hlen : b.words.length ≤ 65534) :
    loadBlock b s = .next (s.putBlock b) :=
  if_pos hlen

/-- Settles O4: the cells by `putBlock_read`, everything else by the frame. -/
theorem loadPortFillsBankFromOne : Obligations.LoadPortFillsBankFromOne := by
  intro b s hlen
  obtain ⟨hx, hfl, hip, hstatus, hin, hout⟩ := putBlock_frame s b
  refine ⟨s.putBlock b, loadBlock_of_short b s hlen,
    view_eq (fun p => ?_) (fun f => flag_congr _ s f hfl) hip hstatus hin hout⟩
  cases p with
  | reg r => exact congrFun hx r
  | cell c k => exact putBlock_read s b c k hlen

/-! ## A list of blocks (20_memory.md R59) -/

theorem loadAll_cons_of_seen {seen : List LoadBank} {b : Block} (bs : List Block) (s : State) (hseen : b.bank ∈ seen) :
    loadAll seen (b :: bs) s = .refused .blockRepeated :=
  if_pos (List.contains_iff_mem.mpr hseen)

theorem loadAll_cons_of_fresh {seen : List LoadBank} {b : Block} (bs : List Block) (s : State)
    (hfresh : b.bank ∉ seen) (hlen : b.words.length ≤ 65534) :
    loadAll seen (b :: bs) s = loadAll (b.bank :: seen) bs (s.putBlock b) := by
  rw [loadAll, if_neg (fun h => hfresh (List.contains_iff_mem.mp h)), loadBlock_of_short b s hlen]

/-- The load succeeds exactly when the banks loaded already and those still to come are all different. -/
theorem loadAll_eq (bs : List Block) (hlen : ∀ b ∈ bs, b.words.length ≤ 65534) (seen : List LoadBank) (s : State)
    (hseen : seen.Nodup) :
    loadAll seen bs s =
      if (seen ++ bs.map Block.bank).Nodup then .next (bs.foldl State.putBlock s) else .refused .blockRepeated := by
  induction bs generalizing seen s with
  | nil =>
    rw [List.map_nil, List.append_nil, if_pos hseen]
    rfl
  | cons b bs ih =>
    obtain ⟨hb, hbs⟩ := List.forall_mem_cons.mp hlen
    have hmiddle : (seen ++ (b :: bs).map Block.bank).Nodup ↔ (b.bank :: seen ++ bs.map Block.bank).Nodup :=
      List.nodup_middle
    by_cases hmem : b.bank ∈ seen
    · have hrepeat : ¬ (b.bank :: seen ++ bs.map Block.bank).Nodup := fun h =>
        (List.nodup_cons.mp h).1 (List.mem_append_left _ hmem)
      rw [loadAll_cons_of_seen bs s hmem, if_neg (fun h => hrepeat (hmiddle.mp h))]
    · rw [loadAll_cons_of_fresh bs s hmem hb, ih hbs _ _ (List.nodup_cons.mpr ⟨hmem, hseen⟩)]
      simp only [hmiddle, List.foldl_cons]

/-- Settles O5: at the start no bank has been loaded. -/
theorem repeatedBlockIsRefused : Obligations.RepeatedBlockIsRefused := by
  intro bs s hlen
  have hload := loadAll_eq bs hlen [] s List.nodup_nil
  exact ⟨fun hrepeat => hload.trans (if_neg hrepeat), fun hnodup => hload.trans (if_pos hnodup)⟩

/-! ## The image (20_memory.md R60) -/

theorem imageWords_length (ws : List Word) : (ws.flatMap imageWord).length = 2 * ws.length := by
  induction ws with
  | nil => rfl
  | cons w ws ih =>
    rw [List.flatMap_cons, List.length_append, ih, List.length_cons]
    show 2 + 2 * ws.length = _
    omega

/-- A word is read back from its two bytes. -/
theorem append_bytes (w : Word) : (w.extractLsb' 8 8 ++ w.extractLsb' 0 8 : Word) = w :=
  parts_of_bits (n := 8) (m := 8) w

theorem wordsOfBytes_imageWords (ws : List Word) : wordsOfBytes (ws.flatMap imageWord) = ws := by
  induction ws with
  | nil => rfl
  | cons w ws ih => exact congrArg₂ List.cons (append_bytes w) ih

theorem loadBankOf_typeByte (bank : LoadBank) : loadBankOf (typeByte bank) = some bank := by
  cases bank <;> rfl

/-- One block's bytes are parsed as that block; what follows them is left to the rest of the parse. -/
theorem parseBlocks_blockBytes (b : Block) (hlen : b.words.length ≤ 65534) {fuel : Nat} {rest : List Byte}
    {bs : List Block} (hrest : parseBlocks fuel rest = .ok bs) :
    parseBlocks (fuel + 1) (blockBytes b ++ rest) = .ok (b :: bs) := by
  have hcount : (BitVec.ofNat 16 b.words.length).toNat = b.words.length := Nat.mod_eq_of_lt (by omega)
  have hshort : ¬ Config.maxBlockWords < b.words.length := Nat.not_lt.mpr hlen
  have hpayload := imageWords_length b.words
  simp only [blockBytes, imageWord, List.cons_append, List.nil_append, parseBlocks, loadBankOf_typeByte, append_bytes, hcount]
  rw [if_neg hshort, if_neg (by rw [List.length_append]; omega), ← hpayload, List.drop_left, List.take_left, hrest,
    wordsOfBytes_imageWords]

/-- Any fuel of at least one unit a block is enough. -/
theorem parseBlocks_imageBlocks (bs : List Block) (hlen : ∀ b ∈ bs, b.words.length ≤ 65534) (fuel : Nat)
    (hfuel : bs.length ≤ fuel) : parseBlocks fuel (bs.flatMap blockBytes) = .ok bs := by
  induction bs generalizing fuel with
  | nil => cases fuel <;> rfl
  | cons b bs ih =>
    obtain ⟨hb, hbs⟩ := List.forall_mem_cons.mp hlen
    obtain ⟨fuel, rfl⟩ : ∃ n, fuel = n + 1 := Nat.exists_eq_add_one.mpr (Nat.lt_of_lt_of_le (Nat.succ_pos _) hfuel)
    exact parseBlocks_blockBytes b hb (ih hbs fuel (Nat.le_of_succ_le_succ hfuel))

/-- A block takes at least its type byte. -/
theorem length_le_imageBlocks (bs : List Block) : bs.length ≤ (bs.flatMap blockBytes).length := by
  induction bs with
  | nil => exact Nat.le_refl 0
  | cons b bs ih =>
    have hpos : 1 ≤ (blockBytes b).length := Nat.le_add_left 1 _
    rw [List.flatMap_cons, List.length_append, List.length_cons]
    omega

theorem parseImage_standard (rest : List Byte) :
    parseImage ([0x6D, 0x43, 0x54, 0x46] ++ rest) = parseBlocks rest.length rest := rfl

/-- Settles O6: the signature is the standard one, and the parser has the fuel for every block behind it. -/
theorem standardImageParses : Obligations.StandardImageParses := fun bs hlen =>
  (parseImage_standard _).trans (parseBlocks_imageBlocks bs hlen _ (length_le_imageBlocks bs))

end Sys2Proof.Machine
end

