-- ==== Sys2Proof/Proofs/Banks.lean ====
section
/-! Which banks an instruction may change (20_memory.md R49, R54, R61), and the invariant that the end of a cycle restores (R47).
A meaning stores to cells in one of two ways: by operand writes, which reach GENERAL alone, or by pushes, which reach STACK
alone; the cycle then ends by zeroing cell 0. A fatal condition changes no bank. -/

namespace Sys2Proof.Machine

/-- Whether the opcode stores to STACK (44_stack.md R182, 45_call_return.md R190 to R192). -/
def writesStack (opc : Opcode) : Bool := decide (opc ∈ [Opcode.push, .call, .retv, .retz])

/-- What an opcode may do to the banks from `s` to `t`: CODE and INPUT stay, GENERAL under a stack writer and STACK under any
other opcode stay, and the canonical form is kept. -/
structure BanksWithin (opc : Opcode) (s t : State) : Prop where
  code : t.code = s.code
  input : t.input = s.input
  general : writesStack opc = true → t.general = s.general
  stack : writesStack opc = false → t.stack = s.stack
  general_wf : s.general.wf → t.general.wf
  stack_wf : s.stack.wf → t.stack.wf

/-- How an instruction can end: a cycle completed after a change of the banks within the opcode's permission, the fatal
condition, or a fault. -/
inductive EndsCycle (opc : Opcode) (s : State) : Host.Outcome State Fault Refusal → Prop
  | cycle {t : State} {fl : Flow} {n : Nat} (h : BanksWithin opc s t) : EndsCycle opc s (.next (t.endCycle fl n))
  | fatal (cause : HaltStatus) : EndsCycle opc s (.next (s.raiseFatal cause))
  | fault (f : Fault) : EndsCycle opc s (.fault f)

namespace BanksWithin

variable {opc : Opcode} {s t : State}

/-- Operations on registers, flags, status and streams need no permission. -/
theorem of_same (hcode : t.code = s.code := by simp) (hinput : t.input = s.input := by simp)
    (hgeneral : t.general = s.general := by simp) (hstack : t.stack = s.stack := by simp) : BanksWithin opc s t :=
  ⟨hcode, hinput, fun _ => hgeneral, fun _ => hstack, fun h => hgeneral ▸ h, fun h => hstack ▸ h⟩

/-- Operand writes under an opcode that is no stack writer. -/
theorem of_operands (hwf : s.general.wf → t.general.wf) (hopc : writesStack opc = false := by rfl)
    (hcode : t.code = s.code := by simp) (hinput : t.input = s.input := by simp)
    (hstack : t.stack = s.stack := by simp) : BanksWithin opc s t :=
  ⟨hcode, hinput, fun h => absurd hopc (by simp [h]), fun _ => hstack, hwf, fun h => hstack ▸ h⟩

/-- Pushes under a stack writer. -/
theorem of_stack (hwf : s.stack.wf → t.stack.wf) (hopc : writesStack opc = true := by rfl)
    (hcode : t.code = s.code := by simp) (hinput : t.input = s.input := by simp)
    (hgeneral : t.general = s.general := by simp) : BanksWithin opc s t :=
  ⟨hcode, hinput, fun _ => hgeneral, fun h => absurd hopc (by simp [h]), fun h => hgeneral ▸ h, hwf⟩

theorem banksCanonical (h : BanksWithin opc s t) (hs : s.banksCanonical) : t.banksCanonical := by
  obtain ⟨hcode, hinput, hgeneral, hstack⟩ := hs
  exact ⟨h.code ▸ hcode, h.input ▸ hinput, h.general_wf hgeneral, h.stack_wf hstack⟩

end BanksWithin

/-! ## The canonical form under the remaining operations -/

theorem relCopy_general_wf (s : State) (o : Operand) (m : Mode) (v : Word) (opc : Opcode) (h : s.general.wf) :
    (s.relCopy o m v opc).general.wf := by
  unfold State.relCopy
  split
  · exact h
  · exact writeC_general_wf s _ v opc h

theorem acceptChar_general_wf (s : State) (o : Operand) (c : Nat) (h : s.general.wf) :
    (s.acceptChar o c).general.wf := by
  unfold State.acceptChar
  split
  · exact h
  · exact writeC_general_wf s o _ .rdc h

/-! ## Every instruction -/

/-- A conditional jump, taken or not, changes no bank. -/
theorem jumpIf_endsCycle (opc : Opcode) (s : State) (f : Flag) : EndsCycle opc s (completeFlow (s.jumpIf f)) :=
  .cycle .of_same

/-- Every instruction ends within its opcode's permission. -/
theorem exec_endsCycle (i : Instr) (s : State) : EndsCycle i.opcode s (exec i s) := by
  cases i with
  | inc _ o1 | dec _ o1 | add _ o1 _ | sub _ o1 _ | mul _ o1 _ | cpy o1 _ | mcp o1 _ _ | cip o1 =>
    exact .cycle (.of_operands (writeC_general_wf s o1 _ _))
  | div m o1 o2 =>
    simp only [exec, execDiv]
    split
    · exact .cycle (.of_operands (writeC_general_wf s o1 _ _))
    · exact .cycle (.of_operands (writeC_general_wf s o1 _ _))
  | adc _ o1 _ | sbc _ o1 _ =>
    simp only [exec, execAdc, execSbc, State.reportCarry]
    exact .cycle (.of_operands (by rw [stickFlag_general]; exact writeC_general_wf s o1 _ _))
  | and o1 _ | or o1 _ | xor o1 _ | not o1 | shl o1 _ | shr _ o1 _ | rol o1 _ | ror o1 _ | bsw o1 =>
    exact .cycle (.of_operands (writeR_general_wf s o1 _ _))
  | icp o1 o2 =>
    cases o2 with
    | mem b i => exact .cycle (.of_operands (writeR_general_wf s o1 i _))
    | reg _ | imm _ => exact .fatal .fatalIllegalOperandKind
  | swp o1 o2 =>
    exact .cycle (.of_operands fun h => writeC_general_wf _ o2 _ _ (writeC_general_wf s o1 _ _ h))
  | rcf m _ o | rct m o _ => exact .cycle (.of_operands (relCopy_general_wf s o m _ _))
  | pop o1 => exact .cycle (.of_operands (pop_general_wf s (some o1) _))
  | rdc o1 =>
    simp only [exec, execRdc]
    cases s.consoleIn with
    | nil => exact .fault .consoleBlocked
    | cons k ks => exact .cycle (.of_operands (acceptChar_general_wf { s with consoleIn := ks } o1 k))
  | cmp _ _ _ | clz | clc | cla | wrc _ | halt | nop | jmp => exact .cycle .of_same
  | jz | je | jl | jg | jc | ji | jse | jsf => exact jumpIf_endsCycle _ s _
  | push o1 => exact .cycle (.of_stack (push_stack_wf s _))
  | call p1 p2 p3 =>
    simp only [exec, execCall]
    split
    · exact .cycle .of_same
    · exact .cycle (.of_stack (enterCall_stack_wf s p1 p2 p3))
  | retv => exact .cycle (.of_stack (returnValue_stack_wf s .retv))
  | retz => exact .cycle (.of_stack (returnValue_stack_wf { s with ct := 0 } .retz))

/-- A step ends as the instruction it runs does. A halted machine and an unrecognized opcode end it as any opcode may; `NOP`
stands for one. -/
theorem step_endsCycle (s : State) : ∃ opc, EndsCycle opc s (step s) := by
  unfold step
  split
  · cases s.decodeAt s.ip with
    | none => exact ⟨.nop, .fatal .fatalUnrecognizedOpcode⟩
    | some i => exact ⟨i.opcode, exec_endsCycle i s⟩
  · exact ⟨.nop, .fault .halted⟩

/-! ## The obligations -/

/-- Settles O52: a completed cycle zeroes cell 0 of canonical banks, and a fatal condition changes none. -/
theorem stepKeepsInvariant : Obligations.StepKeepsInvariant := by
  intro s t hinv hstep
  obtain ⟨opc, hends⟩ := step_endsCycle s
  rw [hstep] at hends
  cases hends with
  | cycle h =>
    obtain ⟨hbanks, -⟩ := hinv
    exact endCycle_inv _ _ _ (h.banksCanonical hbanks)
  | fatal cause => exact hinv

/-- Settles O53: no opcode has a permission for CODE or INPUT. -/
theorem codeAndInputNeverChange : Obligations.CodeAndInputNeverChange := by
  intro s t k hstep hk
  obtain ⟨opc, hends⟩ := step_endsCycle s
  rw [hstep] at hends
  cases hends with
  | cycle h =>
    rw [endCycle_code, endCycle_input, h.code, h.input]
    exact ⟨read_write_other _ 0 k 0 hk, read_write_other _ 0 k 0 hk⟩
  | fatal cause => exact ⟨rfl, rfl⟩

/-- Settles O54: STACK is left to the stack writers, and GENERAL to the others. -/
theorem banksChangeOnlyByTheirOpcodes : Obligations.BanksChangeOnlyByTheirOpcodes := by
  intro i s t k hexec hk
  have hends := exec_endsCycle i s
  rw [hexec] at hends
  cases hends with
  | cycle h =>
    rw [endCycle_stack, endCycle_general, read_write_other _ 0 k 0 hk, read_write_other _ 0 k 0 hk]
    exact ⟨fun hno => by rw [h.stack (decide_eq_false hno)], fun hyes => by rw [h.general (decide_eq_true hyes)]⟩
  | fatal cause => exact ⟨fun _ => rfl, fun _ => rfl⟩

end Sys2Proof.Machine
end

