-- ==== Sys2Proof/Proofs/Encoding.lean ====
section
/-! The decoder and the encoder (30_encoding.md sections 1 to 5). Decoding a window is said once as an equation: the opcode of the
number, the mode bit, and the operands resolved by their kinds. The kinds alone then tell the length, and what is resolved
depends on the used nibbles of the selector word and the used index words alone. -/

namespace Sys2Proof

open Sys2Proof.Machine (usesMode)

/-! ## A window, decoded -/

/-- The operands that the three words after the definition word resolve to (30_encoding.md R82). -/
def windowOperands (a b c : Word) (ks : List Kind) : List Operand :=
  resolve a (ks.countP Kind.isReg) ks (if 0 < ks.countP Kind.isReg then [b, c] else [a, b, c])

/-- The instruction of an opcode, a mode and the list of its operands. -/
def buildFrom (op : Opcode) (m : Mode) (os : List Operand) : Instr :=
  buildInstr op m (os.getD 0 (.reg .null)) (os.getD 1 (.reg .null)) (os.getD 2 (.reg .null))

theorem decodeWindow_of_number {op : Opcode} {w : Word} (h : opcodeField w = numberOf op) (a b c : Word) :
    decodeWindow w a b c =
      some (buildFrom op (modeField w) (windowOperands a b c (usedKinds w (arityOf op)))) := by
  unfold decodeWindow
  rw [h, rowOfNumber_numberOf]
  rfl

theorem number_of_mem_opMap : ∀ row ∈ opMap, row.number = numberOf row.opcode := by decide

theorem exists_number_of_decodeWindow {w a b c : Word} {i : Instr} (h : decodeWindow w a b c = some i) :
    ∃ op, opcodeField w = numberOf op := by
  unfold decodeWindow at h
  split at h
  next => cases h
  next row hrow =>
    have hnumber : row.number = opcodeField w := by simpa using List.find?_some hrow
    exact ⟨row.opcode, hnumber ▸ number_of_mem_opMap row (List.mem_of_find?_eq_some hrow)⟩

theorem decodeWindow_eq_some_iff {w a b c : Word} {i : Instr} :
    decodeWindow w a b c = some i ↔ ∃ op, opcodeField w = numberOf op ∧
      i = buildFrom op (modeField w) (windowOperands a b c (usedKinds w (arityOf op))) := by
  constructor
  · intro h
    obtain ⟨op, hop⟩ := exists_number_of_decodeWindow h
    rw [decodeWindow_of_number hop] at h
    exact ⟨op, hop, (Option.some.inj h).symm⟩
  · rintro ⟨op, hop, rfl⟩
    exact decodeWindow_of_number hop a b c

theorem numberOf_injective : Function.Injective numberOf := by
  intro op op' h
  have hrows := rowOfNumber_numberOf op
  rw [h, rowOfNumber_numberOf op'] at hrows
  exact (congrArg OpRow.opcode (Option.some.inj hrows)).symm

theorem usedKinds_length (w : Word) (op : Opcode) : (usedKinds w (arityOf op)).length = arityOf op := by
  simp [usedKinds, descriptors, arityOf_le op]

/-! ## A stream, decoded -/

theorem decodeWords_cons_eq_ok_iff {w : Word} {ws rest : List Word} {i : Instr} :
    decodeWords (w :: ws) = .ok (i, rest) ↔
      decodeWindow w (ws.getD 0 0) (ws.getD 1 0) (ws.getD 2 0) = some i ∧ i.length ≤ ws.length + 1 ∧
        ws.drop (i.length - 1) = rest := by
  cases hd : decodeWindow w (ws.getD 0 0) (ws.getD 1 0) (ws.getD 2 0) with
  | none => simp only [decodeWords, hd, reduceCtorEq, false_and]
  | some j =>
    simp only [decodeWords, hd, Option.some.injEq]
    constructor
    · intro h
      split at h
      next hle =>
        cases h
        exact ⟨rfl, hle, rfl⟩
      next => cases h
    · rintro ⟨rfl, hle, rfl⟩
      exact if_pos hle

/-! ## Kinds and operands, one at a time -/

@[simp] theorem isReg_reg : Kind.isReg .reg = true := rfl

@[simp] theorem isReg_mem (b : DataBank) : Kind.isReg (.mem b) = false := rfl

@[simp] theorem countP_isReg_reg (ks : List Kind) :
    (Kind.reg :: ks).countP Kind.isReg = ks.countP Kind.isReg + 1 :=
  List.countP_cons_of_pos rfl

@[simp] theorem countP_isReg_mem (b : DataBank) (ks : List Kind) :
    (Kind.mem b :: ks).countP Kind.isReg = ks.countP Kind.isReg :=
  List.countP_cons_of_neg (by simp)

theorem registerCodes_reg (r : Reg) (os : List Operand) :
    registerCodes (.reg r :: os) = codeOfReg r :: registerCodes os := rfl

theorem registerCodes_mem (b : DataBank) (i : Word) (os : List Operand) :
    registerCodes (.mem b i :: os) = registerCodes os := rfl

theorem indexWords_reg (r : Reg) (os : List Operand) : indexWords (.reg r :: os) = indexWords os := rfl

theorem indexWords_mem (b : DataBank) (i : Word) (os : List Operand) :
    indexWords (.mem b i :: os) = i :: indexWords os := rfl

theorem resolve_reg (s : Word) (rem : Nat) (ks : List Kind) (ws : List Word) :
    resolve s (rem + 1) (.reg :: ks) ws = .reg (regOfCode (selectorCode s (rem + 1))) :: resolve s rem ks ws := rfl

theorem resolve_mem (s : Word) (rem : Nat) (b : DataBank) (ks : List Kind) (ws : List Word) :
    resolve s rem (.mem b :: ks) ws = .mem b (ws.headD 0) :: resolve s rem ks ws.tail := rfl

/-! ## What is resolved -/

/-- Only the nibbles of the register operands and the words of the memory operands are looked at. -/
theorem resolve_congr {s s' : Word} (ks : List Kind) {ws ws' : List Word}
    (hs : ∀ k, 1 ≤ k → k ≤ ks.countP Kind.isReg → selectorCode s k = selectorCode s' k)
    (hw : ∀ k, k + ks.countP Kind.isReg < ks.length → ws.getD k 0 = ws'.getD k 0) :
    resolve s (ks.countP Kind.isReg) ks ws = resolve s' (ks.countP Kind.isReg) ks ws' := by
  induction ks generalizing ws ws' with
  | nil => rfl
  | cons kind ks ih =>
    rw [List.length_cons] at hw
    cases kind with
    | reg =>
      rw [countP_isReg_reg] at hs hw ⊢
      rw [resolve_reg, resolve_reg, hs _ (by omega) le_rfl,
        ih (fun k h1 hk => hs k h1 (by omega)) (fun k hk => hw k (by omega))]
    | mem b =>
      have hle : ks.countP Kind.isReg ≤ ks.length := List.countP_le_length
      rw [countP_isReg_mem] at hs hw ⊢
      have hindex : ws.headD 0 = ws'.headD 0 := by
        simpa [List.headD_eq_head?_getD, List.head?_eq_getElem?] using hw 0 (by omega)
      have htail (k : Nat) (hk : k + ks.countP Kind.isReg < ks.length) : ws.tail.getD k 0 = ws'.tail.getD k 0 := by
        simpa using hw (k + 1) (by omega)
      rw [resolve_mem, resolve_mem, hindex, ih hs htail]

theorem resolve_wellFormed (s : Word) (rem : Nat) (ks : List Kind) (ws : List Word) :
    (resolve s rem ks ws).all Operand.wellFormed = true := by
  induction ks generalizing rem ws with
  | nil => rfl
  | cons kind ks ih => cases kind <;> simpa [resolve, Operand.wellFormed] using ih _ _

theorem resolve_length (s : Word) (rem : Nat) (ks : List Kind) (ws : List Word) :
    (resolve s rem ks ws).length = ks.length := by
  induction ks generalizing rem ws with
  | nil => rfl
  | cons kind ks ih => cases kind <;> simp [resolve, ih]

theorem resolve_any_isReg (s : Word) (rem : Nat) (ks : List Kind) (ws : List Word) :
    (resolve s rem ks ws).any Operand.isReg = ks.any Kind.isReg := by
  induction ks generalizing rem ws with
  | nil => rfl
  | cons kind ks ih => cases kind <;> simp [resolve, Operand.isReg, ih]

theorem resolve_countP_isMem (s : Word) (rem : Nat) (ks : List Kind) (ws : List Word) :
    (resolve s rem ks ws).countP Operand.isMem = ks.countP (fun k => !k.isReg) := by
  induction ks generalizing rem ws with
  | nil => rfl
  | cons kind ks ih => cases kind <;> simp [resolve, Operand.isMem, List.countP_cons, ih]

/-! ## The operands of a built instruction -/

/-- The operands as an instruction keeps them: the literal of `ICP` without its bank bit. -/
def plainSlots (op : Opcode) (os : List Operand) : List Operand :=
  if op = .icp then os.modify 1 literalOperand else os

theorem buildInstr_opcode (op : Opcode) (m : Mode) (o1 o2 o3 : Operand) : (buildInstr op m o1 o2 o3).opcode = op := by
  cases op <;> rfl

theorem buildInstr_operands (op : Opcode) (m : Mode) (o1 o2 o3 : Operand) :
    (buildInstr op m o1 o2 o3).operands = plainSlots op ([o1, o2, o3].take (arityOf op)) := by
  cases op <;> rfl

theorem buildInstr_literalPlain (op : Opcode) (m : Mode) (o1 o2 o3 : Operand) :
    (buildInstr op m o1 o2 o3).literalPlain = true := by
  cases op
  case icp => cases o2 <;> rfl
  all_goals rfl

/-- An opcode that ignores the mode bit builds the same instruction from both modes (30_encoding.md R72). -/
theorem buildInstr_mode_congr {op : Opcode} {m m' : Mode} (h : usesMode op = true → m = m') (o1 o2 o3 : Operand) :
    buildInstr op m o1 o2 o3 = buildInstr op m' o1 o2 o3 := by
  by_cases huses : usesMode op = true
  · rw [h huses]
  · cases op
    case inc | dec | add | sub | mul | div | adc | sbc | shr | cmp | rcf | rct => exact absurd rfl huses
    all_goals rfl

theorem take_slots {os : List Operand} (d : Operand) (h : os.length ≤ 3) :
    [os.getD 0 d, os.getD 1 d, os.getD 2 d].take os.length = os := by
  match os, h with
  | [], _ | [_], _ | [_, _], _ | [_, _, _], _ => rfl

theorem buildFrom_operands {op : Opcode} {os : List Operand} (m : Mode) (h : os.length = arityOf op) :
    (buildFrom op m os).operands = plainSlots op os := by
  rw [buildFrom, buildInstr_operands, ← h, take_slots _ (h ▸ arityOf_le op)]

theorem literalOperand_wellFormed (o : Operand) : (literalOperand o).wellFormed = o.wellFormed := by
  cases o <;> rfl

theorem plainSlots_all_wellFormed {os : List Operand} (op : Opcode) (h : os.all Operand.wellFormed = true) :
    (plainSlots op os).all Operand.wellFormed = true := by
  unfold plainSlots
  split
  · match os, h with
    | [], _ => rfl
    | [_], h => exact h
    | _ :: _ :: _, h => simpa [literalOperand_wellFormed] using h
  · exact h

/-! ## The length -/

/-- The length that the kinds of the used operands tell (30_encoding.md R87). -/
def kindsLength (ks : List Kind) : Nat :=
  1 + (if ks.any Kind.isReg then 1 else 0) + ks.countP (fun k => !k.isReg)

theorem wordCount_resolve (s : Word) (rem : Nat) (ks : List Kind) (ws : List Word) :
    wordCount (resolve s rem ks ws) = kindsLength ks := by
  rw [wordCount, resolve_any_isReg, resolve_countP_isMem, kindsLength]

theorem literalOperand_isReg (o : Operand) : (literalOperand o).isReg = o.isReg := by
  cases o <;> rfl

theorem literalOperand_isMem (o : Operand) : (literalOperand o).isMem = o.isMem := by
  cases o <;> rfl

theorem wordCount_plainSlots (op : Opcode) (os : List Operand) : wordCount (plainSlots op os) = wordCount os := by
  unfold plainSlots
  split
  · match os with
    | [] | [_] => rfl
    | _ :: _ :: _ => simp [wordCount, List.countP_cons, literalOperand_isReg, literalOperand_isMem]
  · rfl

theorem instr_length_bounds (i : Instr) : 1 ≤ i.length ∧ i.length ≤ 4 :=
  wordCount_bounds i.operands (operands_length i ▸ arityOf_le i.opcode)

/-! ## What decoding a window says of the instruction -/

theorem windowOperands_length (w a b c : Word) (op : Opcode) :
    (windowOperands a b c (usedKinds w (arityOf op))).length = arityOf op :=
  (resolve_length _ _ _ _).trans (usedKinds_length w op)

/-- The definition word tells the opcode and the length. -/
theorem opcode_length_of_decodeWindow {w a b c : Word} {i : Instr} (h : decodeWindow w a b c = some i) :
    opcodeField w = numberOf i.opcode ∧ i.length = kindsLength (usedKinds w (arityOf i.opcode)) := by
  obtain ⟨op, hop, rfl⟩ := decodeWindow_eq_some_iff.mp h
  have hopcode : (buildFrom op (modeField w) (windowOperands a b c (usedKinds w (arityOf op)))).opcode = op :=
    buildInstr_opcode ..
  rw [hopcode, Instr.length, buildFrom_operands _ (windowOperands_length ..), wordCount_plainSlots]
  exact ⟨hop, wordCount_resolve ..⟩

theorem wellFormed_of_decodeWindow {w a b c : Word} {i : Instr} (h : decodeWindow w a b c = some i) :
    i.wellFormed = true := by
  obtain ⟨op, hop, rfl⟩ := decodeWindow_eq_some_iff.mp h
  rw [Instr.wellFormed, buildFrom_operands _ (windowOperands_length ..), Bool.and_eq_true]
  exact ⟨plainSlots_all_wellFormed op (resolve_wellFormed ..), buildInstr_literalPlain ..⟩

/-! ## The encoder's words, resolved -/

/-- The words of an instruction after its definition word. -/
def operandWords (os : List Operand) : List Word :=
  (if os.any Operand.isReg then [selectorWord (registerCodes os)] else []) ++ indexWords os

theorem encode_eq (i : Instr) : encode i = definitionWord i :: operandWords i.operands := rfl

/-- Induction over the operands of a program, of which none is the internal literal (30_encoding.md R83). -/
theorem programOperands_induction {motive : (os : List Operand) → os.all Operand.wellFormed = true → Prop}
    (nil : motive [] rfl)
    (reg : ∀ r os (h : os.all Operand.wellFormed = true), motive os h → motive (.reg r :: os) h)
    (mem : ∀ b i os (h : os.all Operand.wellFormed = true), motive os h → motive (.mem b i :: os) h)
    (os : List Operand) (h : os.all Operand.wellFormed = true) : motive os h := by
  induction os with
  | nil => exact nil
  | cons o os ih =>
    cases o with
    | reg r => exact reg r os h (ih h)
    | mem b i => exact mem b i os h (ih h)
    | imm v => cases h

theorem registerCodes_length {os : List Operand} (h : os.all Operand.wellFormed = true) :
    (registerCodes os).length = (os.map Operand.kind).countP Kind.isReg := by
  induction os, h using programOperands_induction with
  | nil => rfl
  | reg r os _ ih => rw [registerCodes_reg, List.map_cons, Operand.kind, countP_isReg_reg, List.length_cons, ih]
  | mem b i os _ ih => rw [registerCodes_mem, List.map_cons, Operand.kind, countP_isReg_mem, ih]

theorem indexWords_length_add {os : List Operand} (h : os.all Operand.wellFormed = true) :
    (indexWords os).length + (os.map Operand.kind).countP Kind.isReg = (os.map Operand.kind).length := by
  induction os, h using programOperands_induction with
  | nil => rfl
  | reg r os _ ih =>
    rw [indexWords_reg, List.map_cons, Operand.kind, countP_isReg_reg, List.length_cons, ← ih, Nat.add_assoc]
  | mem b i os _ ih =>
    rw [indexWords_mem, List.map_cons, Operand.kind, countP_isReg_mem, List.length_cons, List.length_cons, ← ih,
      Nat.add_right_comm]

theorem any_isReg_iff {os : List Operand} (h : os.all Operand.wellFormed = true) :
    os.any Operand.isReg = true ↔ 0 < (os.map Operand.kind).countP Kind.isReg := by
  induction os, h using programOperands_induction with
  | nil => simp
  | reg r os _ ih => simp [Operand.isReg, Operand.kind]
  | mem b i os _ ih => simpa [Operand.isReg, Operand.kind] using ih

/-- Each register operand finds its own nibble of the selector word, each memory operand its own index word. -/
theorem resolve_selectorWord {os : List Operand} (hwf : os.all Operand.wellFormed = true)
    (hlen : (os.map Operand.kind).length ≤ 3) :
    resolve (selectorWord (registerCodes os)) ((os.map Operand.kind).countP Kind.isReg) (os.map Operand.kind)
      (indexWords os) = os := by
  induction os, hwf using programOperands_induction with
  | nil => rfl
  | reg r os hos ih =>
    rw [List.map_cons, List.length_cons] at hlen
    have hcodes := registerCodes_length hos
    have hcount := indexWords_length_add hos
    have hselect : selectorCode (selectorWord (codeOfReg r :: registerCodes os))
        ((os.map Operand.kind).countP Kind.isReg + 1) = codeOfReg r :=
      hcodes ▸ selectorCode_cons (codeOfReg r) (registerCodes os) (by omega)
    have hlower := resolve_congr (os.map Operand.kind) (ws := indexWords os)
      (fun k h1 hk => selectorCode_tail (codeOfReg r) (registerCodes os) k h1 (hcodes ▸ hk)) (fun _ _ => rfl)
    rw [registerCodes_reg, indexWords_reg, List.map_cons, Operand.kind, countP_isReg_reg, resolve_reg, hselect,
      regOfCode_codeOfReg, hlower, ih (by omega)]
  | mem b i os hos ih =>
    rw [List.map_cons, List.length_cons] at hlen
    rw [registerCodes_mem, indexWords_mem, List.map_cons, Operand.kind, countP_isReg_mem, resolve_mem]
    exact congrArg (Operand.mem b i :: ·) (ih (by omega))

/-- The words the encoder writes for operands resolve to them, whatever follows. -/
theorem windowOperands_operandWords {os : List Operand} (hwf : os.all Operand.wellFormed = true)
    (hlen : (os.map Operand.kind).length ≤ 3) {ws rest : List Word} (hws : ws = operandWords os ++ rest) :
    windowOperands (ws.getD 0 0) (ws.getD 1 0) (ws.getD 2 0) (os.map Operand.kind) = os := by
  have hcount := indexWords_length_add hwf
  have hindex (k : Nat) (hk : k + (os.map Operand.kind).countP Kind.isReg < (os.map Operand.kind).length) :
      (indexWords os ++ rest).getD k 0 = (indexWords os).getD k 0 :=
    List.getD_append _ _ _ _ (by omega)
  refine Eq.trans ?_ (resolve_selectorWord hwf hlen)
  rw [windowOperands]
  by_cases hreg : 0 < (os.map Operand.kind).countP Kind.isReg
  · have hstream : ws = selectorWord (registerCodes os) :: (indexWords os ++ rest) := by
      rw [hws, operandWords, if_pos ((any_isReg_iff hwf).mpr hreg)]
      rfl
    subst hstream
    rw [if_pos hreg]
    refine resolve_congr _ (fun _ _ _ => rfl) (fun k hk => Eq.trans ?_ (hindex k hk))
    have hshort : k < 2 := by omega
    interval_cases k <;> rfl
  · have hstream : ws = indexWords os ++ rest := by
      rw [hws, operandWords, if_neg (mt (any_isReg_iff hwf).mp hreg)]
      rfl
    subst hstream
    rw [if_neg hreg]
    refine resolve_congr _ (fun k h1 hk => absurd (h1.trans hk) hreg) (fun k hk => Eq.trans ?_ (hindex k hk))
    have hshort : k < 3 := by omega
    interval_cases k <;> rfl

theorem decodeWindow_encode {i : Instr} (hwf : i.wellFormed = true) (rest : List Word) :
    decodeWindow (definitionWord i) ((operandWords i.operands ++ rest).getD 0 0)
      ((operandWords i.operands ++ rest).getD 1 0) ((operandWords i.operands ++ rest).getD 2 0) = some i := by
  rw [Instr.wellFormed, Bool.and_eq_true] at hwf
  obtain ⟨hoperands, hplain⟩ := hwf
  have hlen : (i.operands.map Operand.kind).length ≤ 3 := by
    rw [List.length_map, operands_length]
    exact arityOf_le i.opcode
  rw [decodeWindow_of_number (opcodeField_definitionWord i), usedKinds_definitionWord, modeField_definitionWord,
    windowOperands_operandWords hoperands hlen rfl, buildFrom, buildInstr_self i _ _ _ hplain]

/-! ## Ignored bits -/

/-- Definition words of one opcode with the same kinds, and the same mode bit where it is used, decode alike when the words after
them resolve alike. -/
theorem decodeWindow_congr {op : Opcode} {w w' a b c a' b' c' : Word} (h : opcodeField w = numberOf op)
    (h' : opcodeField w' = numberOf op) (hmode : usesMode op = true → modeField w = modeField w')
    (hkinds : usedKinds w (arityOf op) = usedKinds w' (arityOf op))
    (hoperands : windowOperands a b c (usedKinds w (arityOf op)) = windowOperands a' b' c' (usedKinds w (arityOf op))) :
    decodeWindow w a b c = decodeWindow w' a' b' c' := by
  rw [decodeWindow_of_number h, decodeWindow_of_number h', ← hkinds, ← hoperands, buildFrom,
    buildInstr_mode_congr hmode, buildFrom]

/-- With a register operand, the selector word counts by the nibbles it is asked for. -/
theorem windowOperands_selector_congr {s s' : Word} (a b : Word) {ks : List Kind} (hreg : 0 < ks.countP Kind.isReg)
    (hs : ∀ k, 1 ≤ k → k ≤ ks.countP Kind.isReg → selectorCode s k = selectorCode s' k) :
    windowOperands s a b ks = windowOperands s' a b ks := by
  rw [windowOperands, windowOperands, if_pos hreg, if_pos hreg]
  exact resolve_congr ks hs (fun _ _ => rfl)

/-- `ICP` with a cell as its second operand: the bank of that cell is dropped (30_encoding.md R85 d). -/
theorem decodeWindow_icp {w : Word} {k : Kind} {bank : DataBank} (h : opcodeField w = numberOf .icp)
    (hk : usedKinds w 2 = [k, .mem bank]) (a b c : Word) :
    decodeWindow w a b c = some (buildFrom .icp .unsigned (windowOperands a b c [k, .mem .general])) := by
  have harity : arityOf .icp = 2 := rfl
  rw [decodeWindow_of_number h, harity, hk]
  cases k <;> rfl

/-- The two definition words of `ICP` that differ in the bank bit of the literal. -/
theorem icpWords_opcodeField (d : BitVec 2) :
    opcodeField (d ++ (0b10000000110010 : BitVec 14)) = numberOf .icp ∧
      opcodeField (d ++ (0b11000000110010 : BitVec 14)) = numberOf .icp := by
  revert d
  decide

theorem icpWords_usedKinds (d : BitVec 2) :
    usedKinds (d ++ (0b10000000110010 : BitVec 14)) 2 = [kindOf d, .mem .general] ∧
      usedKinds (d ++ (0b11000000110010 : BitVec 14)) 2 = [kindOf d, .mem .input] := by
  revert d
  decide

end Sys2Proof

namespace Sys2Proof.Machine

/-- Settles O12: the words behind the definition word resolve to the operands, and they are as many as the length says. -/
theorem decodeInvertsEncode : Obligations.DecodeInvertsEncode := by
  intro i rest hwf
  have hlength : (operandWords i.operands).length + 1 = i.length := encode_length i
  rw [encode_eq, List.cons_append, decodeWords_cons_eq_ok_iff]
  refine ⟨decodeWindow_encode hwf rest, by rw [List.length_append]; omega, ?_⟩
  rw [← hlength, Nat.add_sub_cancel, List.drop_left]

/-- Settles O13: every operand that decoding resolves is well-formed, and the words it takes are the first ones. -/
theorem decodedInstructionsAreWellFormed : Obligations.DecodedInstructionsAreWellFormed := by
  intro ws rest i h
  cases ws with
  | nil => cases h
  | cons w ws =>
    obtain ⟨hwindow, -, hrest⟩ := decodeWords_cons_eq_ok_iff.mp h
    obtain ⟨hpos, hle⟩ := instr_length_bounds i
    refine ⟨wellFormed_of_decodeWindow hwindow, hpos, hle, ?_⟩
    obtain ⟨n, hn⟩ := Nat.exists_eq_add_of_le' hpos
    rw [← hrest, hn, Nat.add_sub_cancel, List.take_succ_cons, List.cons_append, List.take_append_drop]

/-- Settles O14: the opcode is that of the number, and the length that of the kinds. -/
theorem definitionWordTellsLength : Obligations.DefinitionWordTellsLength := by
  intro w a b c a' b' c' i j hi hj
  obtain ⟨hnumber, hlength⟩ := opcode_length_of_decodeWindow hi
  obtain ⟨hnumber', hlength'⟩ := opcode_length_of_decodeWindow hj
  have hopcode : i.opcode = j.opcode := numberOf_injective (hnumber.symm.trans hnumber')
  exact ⟨by rw [hlength, hlength', hopcode], hopcode⟩

/-- Settles O15: an opcode drops a mode it does not use, unused nibbles are never looked at, and the bank of `ICP`'s literal is
dropped. -/
theorem ignoredBitsDecodeAlike : Obligations.IgnoredBitsDecodeAlike := by
  refine ⟨?selector, ?plain, rfl, ?literal⟩
  case selector =>
    intro op w w' s s' a b h h' hmode hkinds hreg hs
    exact decodeWindow_congr h h' hmode hkinds (windowOperands_selector_congr a b hreg hs)
  case plain =>
    intro op w w' a b c h h' hmode hkinds _
    exact decodeWindow_congr h h' hmode hkinds rfl
  case literal =>
    intro d a b c
    obtain ⟨hgeneral, hinput⟩ := icpWords_opcodeField d
    obtain ⟨hkinds, hkinds'⟩ := icpWords_usedKinds d
    rw [decodeWindow_icp hgeneral hkinds, decodeWindow_icp hinput hkinds']

/-- Settles O11: each word list is decoded, or written, by evaluation. -/
theorem workedEncodingsDecode : Obligations.WorkedEncodingsDecode :=
  ⟨rfl, rfl, rfl, rfl, rfl, rfl, rfl, rfl, rfl, rfl, rfl⟩

end Sys2Proof.Machine
end

