-- ==== Sys2Proof/Proofs/Stops.lean ====
section
/-! How a step ends (30_encoding.md R88). Every instruction completes but one, `RDC` with no character waiting, which blocks; a
step runs the instruction at `IP` of a running machine, so it stops for a halted machine and for that read only. -/

namespace Sys2Proof.Machine

/-! ## Every instruction -/

/-- An instruction that completes, or a read with no character waiting (46_io.md R203). -/
theorem exec_completes_or_blocks (i : Instr) (s : State) :
    (∃ t, exec i s = .next t) ∨
      exec i s = .fault .consoleBlocked ∧ s.consoleIn = [] ∧ ∃ o, i = .rdc o := by
  cases i with
  | rdc o =>
    cases hin : s.consoleIn with
    | nil => exact .inr ⟨by simp only [exec, execRdc, hin], rfl, o, rfl⟩
    | cons k ks => exact .inl ⟨_, by simp only [exec, execRdc, hin]; rfl⟩
  | div m o1 o2 =>
    simp only [exec, execDiv]
    split
    · exact .inl ⟨_, rfl⟩
    · exact .inl ⟨_, rfl⟩
  | icp o1 o2 => cases o2 <;> exact .inl ⟨_, rfl⟩
  | call p1 p2 p3 =>
    simp only [exec, execCall]
    split
    · exact .inl ⟨_, rfl⟩
    · exact .inl ⟨_, rfl⟩
  | _ => exact .inl ⟨_, rfl⟩

theorem exec_rdc_blocked (o : Operand) {s : State} (h : s.consoleIn = []) :
    exec (.rdc o) s = .fault .consoleBlocked := by
  simp only [exec, execRdc, h]

theorem exec_eq_blocked_iff (i : Instr) (s : State) :
    exec i s = .fault .consoleBlocked ↔ s.consoleIn = [] ∧ ∃ o, i = .rdc o := by
  constructor
  · intro h
    rcases exec_completes_or_blocks i s with ⟨t, ht⟩ | ⟨-, hwhy⟩
    · rw [ht] at h
      cases h
    · exact hwhy
  · rintro ⟨hin, o, rfl⟩
    exact exec_rdc_blocked o hin

theorem exec_ne_halted (i : Instr) (s : State) : exec i s ≠ .fault .halted := by
  rcases exec_completes_or_blocks i s with ⟨t, ht⟩ | ⟨hblocked, -⟩
  · simp [ht]
  · simp [hblocked]

theorem exec_ne_refused (i : Instr) (s : State) (r : Refusal) : exec i s ≠ .refused r := by
  rcases exec_completes_or_blocks i s with ⟨t, ht⟩ | ⟨hblocked, -⟩
  · simp [ht]
  · simp [hblocked]

/-! ## A step -/

theorem step_of_halted {s : State} (h : s.status ≠ .running) : step s = .fault .halted := if_neg h

theorem step_of_decoded {s : State} {i : Instr} (h : s.status = .running) (hi : s.decodeAt s.ip = some i) :
    step s = exec i s := by
  rw [step, if_pos h, hi]

theorem step_of_unrecognized {s : State} (h : s.status = .running) (hi : s.decodeAt s.ip = none) :
    step s = .next (s.raiseFatal .fatalUnrecognizedOpcode) := by
  rw [step, if_pos h, hi]

/-- Settles O16: the stream of the four words decodes as the window at `IP`. -/
theorem stepRunsDecodedInstruction : Obligations.StepRunsDecodedInstruction := by
  intro s i rest hrunning hdecode
  obtain ⟨hwindow, -, -⟩ := decodeWords_cons_eq_ok_iff.mp hdecode
  exact step_of_decoded hrunning hwindow

/-- Settles O19, by what can be at `IP`: nothing to run, an unrecognized opcode, or an instruction. -/
theorem stepStopsOnlyHaltedOrBlocked : Obligations.StepStopsOnlyHaltedOrBlocked := by
  intro s
  by_cases hrunning : s.status = .running
  · cases hi : s.decodeAt s.ip with
    | none => simp [step_of_unrecognized hrunning hi, hrunning]
    | some i => simp [step_of_decoded hrunning hi, hrunning, exec_ne_halted, exec_eq_blocked_iff, exec_ne_refused]
  · simp [step_of_halted hrunning, hrunning]

end Sys2Proof.Machine
end

