-- ==== Sys2Proof/Proofs/Arithmetic.lean ====
section
/-! The arithmetic instructions (40_arithmetic.md). Each meaning computes an exact integer and reduces it; the equations of `exec`
say the reduced result as a bit-vector operation on the words read. Only the equation of `DIV` still names the variant. -/

namespace Sys2Proof.Machine

/-! ## The values computed -/

/-- Stepping up by one is the same word in both variants (40_arithmetic.md R108). -/
theorem narrow_value_add_one (m : Mode) (a : Word) : narrow (value m a + 1) = a + 1 := by
  rw [narrow_add, narrow_value]
  rfl

/-- Stepping down by one is the same word in both variants (40_arithmetic.md R108). -/
theorem narrow_value_sub_one (m : Mode) (a : Word) : narrow (value m a - 1) = a - 1 := by
  rw [narrow_sub, narrow_value]
  rfl

theorem quotient_unsigned (a b : Word) : quotient .unsigned a b = a / b :=
  (BitVec.ofInt_natCast 16 (a.toNat / b.toNat)).trans BitVec.udiv_def.symm

/-- The exact quotient of -32768 by -1 is out of range; narrowing and `sdiv` wrap it alike (40_arithmetic.md R105, R109). -/
theorem quotient_signed (a b : Word) : quotient .signed a b = a.sdiv b := by
  apply BitVec.eq_of_toInt_eq
  rw [BitVec.toInt_sdiv]
  exact BitVec.toInt_ofInt _

/-! ## The ends of an instruction -/

/-- The sign bit is bit 15, so the carry report compares the most significant bits (40_arithmetic.md R106). -/
theorem view_reportCarry (s : State) (before after : Word) :
    (s.reportCarry before after).view = s.view.stick .c (before.msb != after.msb) := by
  rw [State.reportCarry, view_stickFlag, BitVec.msb_eq_getLsbD_last, BitVec.msb_eq_getLsbD_last]

@[simp] theorem reportCarry_status (s : State) (before after : Word) :
    (s.reportCarry before after).status = s.status := by
  simp [State.reportCarry]

/-- An instruction that ends in a canonical result finishes with it stored and reported in `Z`. -/
theorem finishes_of_resultC {i : Instr} {n : BitVec 9} {s : State} {o : Operand} {r : Word} {opc : Opcode}
    (hn : numberOf i.opcode = n) (he : exec i s = complete i.operands (s.resultC o r opc)) (ho : ordinary opc)
    (hr : s.status = .running) : Finishes i n s ((s.view.storeC o r).report r) := by
  rw [← view_resultC s o r opc ho]
  exact finishes_of_complete i n s _ hn he ((resultC_status s o r opc).trans hr)

/-- With the carry report after it, `C` is also set if the sign bit differs between the word given and the result. -/
theorem finishes_of_resultC_reportCarry {i : Instr} {n : BitVec 9} {s : State} {o : Operand} {a r : Word} {opc : Opcode}
    (hn : numberOf i.opcode = n) (he : exec i s = complete i.operands ((s.resultC o r opc).reportCarry a r))
    (ho : ordinary opc) (hr : s.status = .running) :
    Finishes i n s (((s.view.storeC o r).report r).stick .c (a.msb != r.msb)) := by
  rw [← view_resultC s o r opc ho, ← view_reportCarry]
  exact finishes_of_complete i n s _ hn he (by simpa using hr)

/-! ## What each instruction computes -/

theorem exec_inc (m : Mode) (o : Operand) (s : State) :
    exec (.inc m o) s = complete [o] (s.resultC o (s.readC o + 1) .inc) := by
  simp only [exec, execInc, narrow_value_add_one]

theorem exec_dec (m : Mode) (o : Operand) (s : State) :
    exec (.dec m o) s = complete [o] (s.resultC o (s.readC o - 1) .dec) := by
  simp only [exec, execDec, narrow_value_sub_one]

theorem exec_add (m : Mode) (o1 o2 : Operand) (s : State) :
    exec (.add m o1 o2) s = complete [o1, o2] (s.resultC o1 (s.readC o1 + s.readC o2) .add) := by
  simp only [exec, execAdd, narrow_value_add]

theorem exec_sub (m : Mode) (o1 o2 : Operand) (s : State) :
    exec (.sub m o1 o2) s = complete [o1, o2] (s.resultC o1 (s.readC o1 - s.readC o2) .sub) := by
  simp only [exec, execSub, narrow_value_sub]

theorem exec_mul (m : Mode) (o1 o2 : Operand) (s : State) :
    exec (.mul m o1 o2) s = complete [o1, o2] (s.resultC o1 (s.readC o1 * s.readC o2) .mul) := by
  simp only [exec, execMul, narrow_value_mul]

theorem exec_adc (m : Mode) (o1 o2 : Operand) (s : State) :
    exec (.adc m o1 o2) s = complete [o1, o2]
      ((s.resultC o1 (s.readC o1 + s.readC o2) .adc).reportCarry (s.readC o1) (s.readC o1 + s.readC o2)) := by
  simp only [exec, execAdc, narrow_value_add]

theorem exec_sbc (m : Mode) (o1 o2 : Operand) (s : State) :
    exec (.sbc m o1 o2) s = complete [o1, o2]
      ((s.resultC o1 (s.readC o1 - s.readC o2) .sbc).reportCarry (s.readC o1) (s.readC o1 - s.readC o2)) := by
  simp only [exec, execSbc, narrow_value_sub]

theorem exec_div_of_zero (m : Mode) (o1 : Operand) {o2 : Operand} {s : State} (h : s.readC o2 = 0) :
    exec (.div m o1 o2) s =
      complete [o1, o2] (((s.writeC o1 0 .div).assignFlag .i true).assignFlag .z true) :=
  if_pos h

theorem exec_div_of_ne (m : Mode) (o1 : Operand) {o2 : Operand} {s : State} (h : s.readC o2 ≠ 0) :
    exec (.div m o1 o2) s =
      complete [o1, o2] (s.resultC o1 (quotient m (s.readC o1) (s.readC o2)) .div) :=
  if_neg h

/-! ## The obligations -/

/-- Settles O20: one canonical result each, the same in both variants. -/
theorem incAndDecResults : Obligations.IncAndDecResults := fun m o s hr =>
  ⟨finishes_of_resultC rfl (exec_inc m o s) ⟨rfl, rfl⟩ hr, finishes_of_resultC rfl (exec_dec m o s) ⟨rfl, rfl⟩ hr⟩

/-- Settles O21: sum and difference are canonical results, and nothing reports a carry. -/
theorem addAndSubResults : Obligations.AddAndSubResults := fun m o1 o2 s hr =>
  ⟨finishes_of_resultC rfl (exec_add m o1 o2 s) ⟨rfl, rfl⟩ hr,
    finishes_of_resultC rfl (exec_sub m o1 o2 s) ⟨rfl, rfl⟩ hr⟩

/-- Settles O22: the product is a canonical result, whose high half narrowing drops. -/
theorem mulResult : Obligations.MulResult := fun m o1 o2 s hr =>
  finishes_of_resultC rfl (exec_mul m o1 o2 s) ⟨rfl, rfl⟩ hr

/-- Settles O23, by the divisor: zero takes the branch of its own flags, any other the quotient of the variant. -/
theorem divResult : Obligations.DivResult := by
  intro o1 o2 s hr
  refine ⟨fun hzero m => ?zero, fun hne => ⟨?unsigned, ?signed⟩⟩
  case zero =>
    rw [← view_writeC s o1 0 .div ⟨rfl, rfl⟩, ← view_assignFlag, ← view_assignFlag]
    exact finishes_of_complete _ _ s _ rfl (exec_div_of_zero m o1 hzero) (by simpa using hr)
  case unsigned =>
    rw [← quotient_unsigned]
    exact finishes_of_resultC rfl (exec_div_of_ne .unsigned o1 hne) ⟨rfl, rfl⟩ hr
  case signed =>
    rw [← quotient_signed]
    exact finishes_of_resultC rfl (exec_div_of_ne .signed o1 hne) ⟨rfl, rfl⟩ hr

/-- Settles O24: a canonical result each, with the carry report after it. -/
theorem adcAndSbcResults : Obligations.AdcAndSbcResults := fun m o1 o2 s hr =>
  ⟨finishes_of_resultC_reportCarry rfl (exec_adc m o1 o2 s) ⟨rfl, rfl⟩ hr,
    finishes_of_resultC_reportCarry rfl (exec_sbc m o1 o2 s) ⟨rfl, rfl⟩ hr⟩

/-- A dividend that is -1 in the signed variant and 65535 in the unsigned one, and the divisor 2. -/
def minusOneByTwo : State := { State.reset with g1 := 0xFFFF, g2 := 2 }

/-- Settles O25: the equations of the others do not name the variant. Half of 0xFFFF is 0 toward zero when signed, and 0x7FFF when
not. -/
theorem onlyDivDependsOnMode : Obligations.OnlyDivDependsOnMode := by
  constructor
  · intro o1 o2 s
    simp only [exec_inc, exec_dec, exec_add, exec_sub, exec_mul, exec_adc, exec_sbc, and_self]
  · have hdivisor : minusOneByTwo.readC (.reg .g2) ≠ 0 := by decide
    exact ⟨.reg .g1, .reg .g2, minusOneByTwo, _, _, exec_div_of_ne .signed _ hdivisor,
      exec_div_of_ne .unsigned _ hdivisor, by decide⟩

end Sys2Proof.Machine
end

