-- ==== Sys2Proof/Proofs/Bitwise.lean ====
section
/-! The bitwise instructions (41_bitwise.md). The model shifts and rotates case by case; each case is shown to be one value for
every amount: a product, the floor of a quotient, or a place for each bit. -/

namespace Sys2Proof.Machine

/-! ## The values computed -/

/-- The complement is the distance from the largest word (41_bitwise.md R123). -/
theorem not_eq_max_sub (a : Word) : ~~~a = 0xFFFF - a :=
  (BitVec.allOnes_sub_eq_not a).symm

/-- `BSW` and the parameter `CANON` are one function in this configuration (41_bitwise.md R128). -/
theorem bswap16_eq_append (a : Word) : bswap16 a = a.extractLsb' 0 8 ++ a.extractLsb' 8 8 :=
  canon_eq_append a

/-- The branch for 16 or more places agrees with shifting everything out (41_bitwise.md R131). -/
theorem shiftLeft_eq_shl (a n : Word) : shiftLeft a n = a <<< n.toNat := by
  unfold shiftLeft
  split
  case isTrue hout => exact (BitVec.shiftLeft_eq_zero hout).symm
  case isFalse => rfl

theorem shiftLeft_eq_ofNat (a n : Word) : shiftLeft a n = BitVec.ofNat 16 (a.toNat * 2 ^ n.toNat) := by
  rw [shiftLeft_eq_shl, ← Nat.shiftLeft_eq]
  rfl

/-- A shift that copies no sign bit is the logical one, for 16 or more places too (41_bitwise.md R125, R131). -/
theorem shiftRight_of_logical {m : Mode} {a : Word} (n : Word) (h : m = .unsigned ∨ a.msb = false) :
    shiftRight m a n = a >>> n.toNat := by
  have hcond : ¬(m = .signed ∧ a.getLsbD 15 = true) := by
    rw [← BitVec.msb_eq_getLsbD_last a]
    rintro ⟨rfl, hmsb⟩
    simp [hmsb] at h
  unfold shiftRight
  rw [if_neg hcond]
  split
  case isTrue hout => exact (BitVec.ushiftRight_eq_zero hout).symm
  case isFalse => rfl

/-- A negative word shifted by 16 or more places is rounded down to -1. -/
theorem toInt_ediv_eq_neg_one {a : Word} {k : Nat} (hneg : a.toInt < 0) (hk : 16 ≤ k) : a.toInt / 2 ^ k = -1 := by
  have hlow : -2 ^ 15 ≤ a.toInt := BitVec.le_toInt a
  have hpow : (2 : Int) ^ 16 ≤ 2 ^ k := pow_le_pow_right₀ (by decide) hk
  exact Int.ediv_eq_neg_one_of_neg_of_le hneg (by omega)

/-- The word 0xFFFF of 16 or more places is -1, the floor that fewer places compute (41_bitwise.md R125). -/
theorem shiftRight_signed_of_msb {a : Word} (n : Word) (hmsb : a.msb = true) :
    shiftRight .signed a n = BitVec.ofInt 16 (a.toInt / 2 ^ n.toNat) := by
  have hneg : a.toInt < 0 := by simpa [BitVec.msb_eq_toInt] using hmsb
  unfold shiftRight
  rw [if_pos ⟨rfl, (BitVec.msb_eq_getLsbD_last a).symm.trans hmsb⟩]
  split
  case isTrue hout =>
    rw [toInt_ediv_eq_neg_one hneg hout]
    rfl
  case isFalse =>
    rw [Int.fdiv_eq_ediv_of_nonneg _ (by positivity)]
    rfl

theorem shiftRight_unsigned_eq_ofNat (a n : Word) :
    shiftRight .unsigned a n = BitVec.ofNat 16 (a.toNat / 2 ^ n.toNat) := by
  rw [shiftRight_of_logical n (.inl rfl), ← Nat.shiftRight_eq_div_pow, ← BitVec.toNat_ushiftRight, BitVec.ofNat_toNat,
    BitVec.setWidth_eq]

/-- With the sign bit clear the logical shift is the arithmetic one, so the floor is of the signed value for either sign. -/
theorem shiftRight_signed_eq_ofInt (a n : Word) :
    shiftRight .signed a n = BitVec.ofInt 16 (a.toInt / 2 ^ n.toNat) := by
  cases hmsb : a.msb with
  | true => exact shiftRight_signed_of_msb n hmsb
  | false =>
    rw [shiftRight_of_logical n (.inr hmsb), ← BitVec.sshiftRight_eq_of_msb_false hmsb, BitVec.sshiftRight_eq,
      Int.shiftRight_eq_div_pow, Int.natCast_pow, Int.cast_ofNat_Int]

theorem rotateLeft_eq (a n : Word) : rotateLeft a n = a.rotateLeft n.toNat :=
  BitVec.rotateLeft_def.symm

theorem rotateRight_eq (a n : Word) : rotateRight a n = a.rotateRight n.toNat :=
  BitVec.rotateRight_def.symm

/-- Bit `j` of the result comes from `n` places higher, wrapping at the word's end (41_bitwise.md R127). -/
theorem rotateRight_getLsbD (a n : Word) {j : Nat} (hj : j < 16) :
    (rotateRight a n).getLsbD j = a.getLsbD ((j + n.toNat) % 16) := by
  rw [rotateRight_eq, BitVec.getLsbD_rotateRight]
  by_cases hwrap : j < 16 - n.toNat % 16
  · have hidx : (j + n.toNat) % 16 = n.toNat % 16 + j := by omega
    simp [hwrap, hidx]
  · have hidx : (j + n.toNat) % 16 = j - (16 - n.toNat % 16) := by omega
    simp [hwrap, hj, hidx]

/-- Bit `j` goes `n` places up, wrapping at the word's end (41_bitwise.md R126). -/
theorem rotateLeft_getLsbD (a n : Word) {j : Nat} (hj : j < 16) :
    (rotateLeft a n).getLsbD ((j + n.toNat) % 16) = a.getLsbD j := by
  rw [rotateLeft_eq, BitVec.getLsbD_rotateLeft]
  have hlt : (j + n.toNat) % 16 < 16 := Nat.mod_lt _ (by decide)
  by_cases hwrap : (j + n.toNat) % 16 < n.toNat % 16
  · have hidx : 16 - n.toNat % 16 + (j + n.toNat) % 16 = j := by omega
    simp [hwrap, hidx]
  · have hidx : (j + n.toNat) % 16 - n.toNat % 16 = j := by omega
    simp [hwrap, hlt, hidx]

/-! ## The end of an instruction -/

/-- An instruction that ends in a raw result finishes with it stored and reported in `Z` (41_bitwise.md R130). -/
theorem finishes_of_resultR {i : Instr} {n : BitVec 9} {s : State} {o : Operand} {r : Word} {opc : Opcode}
    (hn : numberOf i.opcode = n) (he : exec i s = complete i.operands (s.resultR o r opc)) (ho : ordinary opc)
    (hr : s.status = .running) : Finishes i n s ((s.view.storeR o r).report r) := by
  rw [← view_resultR s o r opc ho]
  exact finishes_of_complete i n s _ hn he ((resultR_status s o r opc).trans hr)

/-! ## What each instruction computes -/

theorem exec_and (o1 o2 : Operand) (s : State) :
    exec (.and o1 o2) s = complete [o1, o2] (s.resultR o1 (s.readR o1 &&& s.readR o2) .and) := rfl

theorem exec_or (o1 o2 : Operand) (s : State) :
    exec (.or o1 o2) s = complete [o1, o2] (s.resultR o1 (s.readR o1 ||| s.readR o2) .or) := rfl

theorem exec_xor (o1 o2 : Operand) (s : State) :
    exec (.xor o1 o2) s = complete [o1, o2] (s.resultR o1 (s.readR o1 ^^^ s.readR o2) .xor) := rfl

theorem exec_not (o : Operand) (s : State) :
    exec (.not o) s = complete [o] (s.resultR o (0xFFFF - s.readR o) .not) := by
  simp only [exec, execNot, not_eq_max_sub]

theorem exec_bsw (o : Operand) (s : State) :
    exec (.bsw o) s = complete [o] (s.resultR o ((s.readR o).extractLsb' 0 8 ++ (s.readR o).extractLsb' 8 8) .bsw) := by
  simp only [exec, execBsw, bswap16_eq_append]

theorem exec_shl (o1 o2 : Operand) (s : State) :
    exec (.shl o1 o2) s = complete [o1, o2]
      (s.resultR o1 (BitVec.ofNat 16 ((s.readR o1).toNat * 2 ^ (s.readR o2).toNat)) .shl) := by
  simp only [exec, execShl, shiftLeft_eq_ofNat]

theorem exec_shr (m : Mode) (o1 o2 : Operand) (s : State) :
    exec (.shr m o1 o2) s = complete [o1, o2] (s.resultR o1 (shiftRight m (s.readR o1) (s.readR o2)) .shr) := rfl

theorem exec_rol (o1 o2 : Operand) (s : State) :
    exec (.rol o1 o2) s = complete [o1, o2] (s.resultR o1 (rotateLeft (s.readR o1) (s.readR o2)) .rol) := rfl

theorem exec_ror (o1 o2 : Operand) (s : State) :
    exec (.ror o1 o2) s = complete [o1, o2] (s.resultR o1 (rotateRight (s.readR o1) (s.readR o2)) .ror) := rfl

/-! ## The obligations -/

/-- Settles O26: the result is the bit operation itself. -/
theorem andOrXorResults : Obligations.AndOrXorResults := fun o1 o2 s hr =>
  ⟨finishes_of_resultR rfl (exec_and o1 o2 s) ⟨rfl, rfl⟩ hr, finishes_of_resultR rfl (exec_or o1 o2 s) ⟨rfl, rfl⟩ hr,
    finishes_of_resultR rfl (exec_xor o1 o2 s) ⟨rfl, rfl⟩ hr⟩

/-- Settles O27: the complement as a difference, and the byte exchange that `CANON` was shown to be. -/
theorem notAndBswResults : Obligations.NotAndBswResults := fun o s hr =>
  ⟨finishes_of_resultR rfl (exec_not o s) ⟨rfl, rfl⟩ hr, finishes_of_resultR rfl (exec_bsw o s) ⟨rfl, rfl⟩ hr⟩

/-- Settles O28: the product with the power of two also covers the branch for 16 or more places. -/
theorem shlResult : Obligations.ShlResult := fun o1 o2 s hr =>
  finishes_of_resultR rfl (exec_shl o1 o2 s) ⟨rfl, rfl⟩ hr

/-- Settles O29: each variant rounds the quotient of its own value down. -/
theorem shrResult : Obligations.ShrResult := by
  intro o1 o2 s hr
  constructor
  case left =>
    rw [← shiftRight_unsigned_eq_ofNat]
    exact finishes_of_resultR rfl (exec_shr .unsigned o1 o2 s) ⟨rfl, rfl⟩ hr
  case right =>
    rw [← shiftRight_signed_eq_ofInt]
    exact finishes_of_resultR rfl (exec_shr .signed o1 o2 s) ⟨rfl, rfl⟩ hr

/-- Settles O30: the model's rotations are the words asked for. -/
theorem rolAndRorResults : Obligations.RolAndRorResults := fun o1 o2 s hr =>
  ⟨_, _, fun _ => rotateLeft_getLsbD (s.readR o1) (s.readR o2), fun _ => rotateRight_getLsbD (s.readR o1) (s.readR o2),
    finishes_of_resultR rfl (exec_rol o1 o2 s) ⟨rfl, rfl⟩ hr, finishes_of_resultR rfl (exec_ror o1 o2 s) ⟨rfl, rfl⟩ hr⟩

end Sys2Proof.Machine
end

