-- ==== Sys2Proof/Proofs/DataMovement.lean ====
section
/-! The data movement instructions (42_data_movement.md). The copies end as the arithmetic and bitwise instructions do, with a
result stored and reported in `Z` (R148), so they finish by the same lemmas; `CMP` and `SWP` have ends of their own. -/

namespace Sys2Proof.Machine

/-! ## The order of two values -/

/-- The order `CMP` decides (42_data_movement.md R143). -/
def precedes (m : Mode) (a b : Word) : Bool :=
  match m with
  | .unsigned => a.ult b
  | .signed => a.slt b

theorem value_lt_iff (m : Mode) (a b : Word) : value m a < value m b ↔ precedes m a b = true := by
  cases m with
  | unsigned => exact Int.ofNat_lt.trans BitVec.ult_iff_toNat_lt.symm
  | signed => exact BitVec.slt_iff_toInt_lt.symm

/-- Narrowing takes a value back to its word. -/
theorem value_injective (m : Mode) : Function.Injective (value m) :=
  Function.LeftInverse.injective (narrow_value m)

/-! ## The relative place -/

/-- The index `CT` above or below the offset-target's, wrapping (42_data_movement.md R145). -/
def relIndex (m : Mode) (i ct : Word) : Word :=
  match m with
  | .unsigned => i + ct
  | .signed => i - ct

theorem relTarget_mem (s : State) (b : DataBank) (i : Word) (m : Mode) :
    s.relTarget (.mem b i) m = some (.mem b (relIndex m i s.ct)) := by
  cases m with
  | unsigned => rfl
  | signed => rfl

theorem relCopy_mem (s : State) (b : DataBank) (i : Word) (m : Mode) (v : Word) (opc : Opcode) :
    s.relCopy (.mem b i) m v opc = s.resultC (.mem b (relIndex m i s.ct)) v opc := by
  rw [State.relCopy, relTarget_mem]
  rfl

/-! ## What each instruction computes -/

theorem exec_cpy (o1 o2 : Operand) (s : State) :
    exec (.cpy o1 o2) s = complete [o1, o2] (s.resultC o1 (s.readC o2) .cpy) := rfl

theorem exec_mcp (o1 o2 o3 : Operand) (s : State) :
    exec (.mcp o1 o2 o3) s = complete [o1, o2, o3] (s.resultC o1 (s.readC o2 &&& s.readC o3) .mcp) := rfl

theorem exec_icp_mem (o1 : Operand) (b : DataBank) (i : Word) (s : State) :
    exec (.icp o1 (.mem b i)) s = complete [o1, .mem b i] (s.resultR o1 i .icp) := rfl

theorem exec_icp_reg (o1 : Operand) (r : Reg) (s : State) :
    exec (.icp o1 (.reg r)) s = .next (s.raiseFatal .fatalIllegalOperandKind) := rfl

/-- The state `CMP` leaves: `E`, `L` and `G` assigned, `Z` sticky (42_data_movement.md R143). -/
def State.compared (s : State) (m : Mode) (a b : Word) : State :=
  (((s.assignFlag .e (a == b)).assignFlag .l (precedes m a b)).assignFlag .g (precedes m b a)).stickFlag .z
    (a == 0 || b == 0)

theorem exec_cmp (m : Mode) (o1 o2 : Operand) (s : State) :
    exec (.cmp m o1 o2) s = complete [o1, o2] (s.compared m (s.readC o1) (s.readC o2)) := by
  simp only [exec, execCmp, State.compared, (value_injective m).eq_iff, value_lt_iff, Bool.decide_eq_true, beq_eq_decide]

/-- The state `SWP` leaves: the first operand is written first, and what it receives is reported (42_data_movement.md R144). -/
def State.swapped (s : State) (o1 o2 : Operand) (a b : Word) : State :=
  ((s.writeC o1 b .swp).writeC o2 a .swp).reportZero b

theorem exec_swp (o1 o2 : Operand) (s : State) :
    exec (.swp o1 o2) s = complete [o1, o2] (s.swapped o1 o2 (s.readC o1) (s.readC o2)) := rfl

theorem exec_rcf_mem (m : Mode) (o : Operand) (b : DataBank) (i : Word) (s : State) :
    exec (.rcf m o (.mem b i)) s =
      complete [o, .mem b i] (s.resultC (.mem b (relIndex m i s.ct)) (s.readC o) .rcf) := by
  rw [← relCopy_mem]
  rfl

theorem exec_rct_mem (m : Mode) (b : DataBank) (i : Word) (o : Operand) (s : State) :
    exec (.rct m (.mem b i) o) s =
      complete [.mem b i, o] (s.resultC (.mem b (relIndex m i s.ct)) (s.readC o) .rct) := by
  rw [← relCopy_mem]
  rfl

/-- With a register as offset-target no flag changes either (42_data_movement.md R145). -/
theorem exec_rcf_reg (m : Mode) (o : Operand) (r : Reg) (s : State) :
    exec (.rcf m o (.reg r)) s = complete [o, .reg r] s := rfl

theorem exec_rct_reg (m : Mode) (r : Reg) (o : Operand) (s : State) :
    exec (.rct m (.reg r) o) s = complete [.reg r, o] s := rfl

/-! ## The ends of `CMP` and `SWP` -/

theorem view_compared (s : State) (m : Mode) (a b : Word) :
    (s.compared m a b).view =
      (((s.view.setFlag .e (a == b)).setFlag .l (precedes m a b)).setFlag .g (precedes m b a)).stick .z
        (a == 0 || b == 0) := by
  simp only [State.compared, view_stickFlag, view_assignFlag]

@[simp] theorem compared_status (s : State) (m : Mode) (a b : Word) : (s.compared m a b).status = s.status := by
  simp [State.compared]

theorem view_swapped (s : State) (o1 o2 : Operand) (a b : Word) :
    (s.swapped o1 o2 a b).view = ((s.view.storeC o1 b).storeC o2 a).report b := by
  rw [State.swapped, view_reportZero, view_writeC _ o2 a .swp ⟨rfl, rfl⟩, view_writeC s o1 b .swp ⟨rfl, rfl⟩]
  rfl

@[simp] theorem swapped_status (s : State) (o1 o2 : Operand) (a b : Word) :
    (s.swapped o1 o2 a b).status = s.status := by
  simp [State.swapped]

theorem cmp_finishes (m : Mode) (o1 o2 : Operand) (s : State) (hr : s.status = .running) :
    Finishes (.cmp m o1 o2) 0x033 s
      ((((s.view.setFlag .e (s.readC o1 == s.readC o2)).setFlag .l (precedes m (s.readC o1) (s.readC o2))).setFlag .g
        (precedes m (s.readC o2) (s.readC o1))).stick .z (s.readC o1 == 0 || s.readC o2 == 0)) := by
  rw [← view_compared]
  exact finishes_of_complete _ _ s _ rfl (exec_cmp m o1 o2 s) ((compared_status s m _ _).trans hr)

/-! ## The ends of the relative copies -/

theorem rcf_mem_finishes (m : Mode) (o : Operand) (b : DataBank) (i : Word) (s : State) (hr : s.status = .running) :
    Finishes (.rcf m o (.mem b i)) 0x035 s
      ((s.view.storeC (.mem b (relIndex m i s.ct)) (s.readC o)).report (s.readC o)) :=
  finishes_of_resultC rfl (exec_rcf_mem m o b i s) ⟨rfl, rfl⟩ hr

theorem rct_mem_finishes (m : Mode) (b : DataBank) (i : Word) (o : Operand) (s : State) (hr : s.status = .running) :
    Finishes (.rct m (.mem b i) o) 0x036 s
      ((s.view.storeC (.mem b (relIndex m i s.ct)) (s.readC o)).report (s.readC o)) :=
  finishes_of_resultC rfl (exec_rct_mem m b i o s) ⟨rfl, rfl⟩ hr

/-! ## The obligations -/

/-- Settles O31: one canonical result each. -/
theorem cpyAndMcpResults : Obligations.CpyAndMcpResults := fun o1 o2 o3 s hr =>
  ⟨finishes_of_resultC rfl (exec_cpy o1 o2 s) ⟨rfl, rfl⟩ hr, finishes_of_resultC rfl (exec_mcp o1 o2 o3 s) ⟨rfl, rfl⟩ hr⟩

/-- Settles O32: the index is a raw result, and a register in its place raises the fatal condition. -/
theorem icpWritesLiteralRaw : Obligations.IcpWritesLiteralRaw := fun o1 b r i s hr =>
  ⟨finishes_of_resultR rfl (exec_icp_mem o1 b i s) ⟨rfl, rfl⟩ hr, exec_icp_reg o1 r s⟩

/-- Settles O34: the order of each variant is its own comparison of words. -/
theorem cmpResult : Obligations.CmpResult := fun o1 o2 s hr =>
  ⟨cmp_finishes .unsigned o1 o2 s hr, cmp_finishes .signed o1 o2 s hr⟩

/-- Settles O35: both words are read before the first write. -/
theorem swpResult : Obligations.SwpResult := by
  intro o1 o2 s hr
  rw [← view_swapped]
  exact finishes_of_complete _ _ s _ rfl (exec_swp o1 o2 s) ((swapped_status s o1 o2 _ _).trans hr)

/-- Settles O36, by the offset-target: a memory operand takes a canonical result at its relative place, a register none. -/
theorem relativeCopyResults : Obligations.RelativeCopyResults := fun b i o r s hr =>
  ⟨rcf_mem_finishes .unsigned o b i s hr, rcf_mem_finishes .signed o b i s hr,
    rct_mem_finishes .unsigned b i o s hr, rct_mem_finishes .signed b i o s hr,
    fun m => ⟨finishes_of_complete _ _ s s rfl (exec_rcf_reg m o r s) hr,
      finishes_of_complete _ _ s s rfl (exec_rct_reg m r o s) hr⟩⟩

end Sys2Proof.Machine
end

