-- ==== Sys2Proof/Proofs/ControlFlow.lean ====
section
/-! The control-flow instructions (43_control_flow.md). `JMP` and the eight conditional jumps share one procedure (R160), so what
a jump does is said once, for any instruction that ends in it. -/

namespace Sys2Proof.Machine

/-! ## The jump procedure -/

theorem jump_of_ct_ne_zero {s : State} (h : s.ct ≠ 0) : s.jump = ({ s with ip := s.ct }, .redirected) := if_neg h

theorem jump_of_ct_eq_zero {s : State} (h : s.ct = 0) : s.jump = (s.halt .haltedByJumpToZero, .advance) := if_pos h

theorem jumpIf_of_set {s : State} {f : Flag} (h : s.flag f = true) : s.jumpIf f = s.jump := if_pos h

theorem jumpIf_of_clear {s : State} {f : Flag} (h : s.flag f = false) : s.jumpIf f = (s, .advance) :=
  if_neg (Bool.eq_false_iff.mp h)

/-! ## What each instruction computes -/

theorem exec_jmp (s : State) : exec .jmp s = completeFlow s.jump := rfl

/-- Each conditional jump tests the flag it stands beside in the table (43_control_flow.md R162 to R169). -/
theorem exec_of_mem_conditionalJumps {i : Instr} {f : Flag} (h : (i, f) ∈ conditionalJumps) (s : State) :
    exec i s = completeFlow (s.jumpIf f) := by
  simp only [conditionalJumps, List.mem_cons, Prod.mk.injEq, List.not_mem_nil, or_false] at h
  rcases h with ⟨rfl, rfl⟩ | ⟨rfl, rfl⟩ | ⟨rfl, rfl⟩ | ⟨rfl, rfl⟩ | ⟨rfl, rfl⟩ | ⟨rfl, rfl⟩ | ⟨rfl, rfl⟩ | ⟨rfl, rfl⟩
  all_goals rfl

theorem exec_clz (s : State) : exec .clz s = complete [] (s.assignFlag .z false) := rfl

theorem exec_clc (s : State) : exec .clc s = complete [] (s.assignFlag .c false) := rfl

theorem exec_cla (s : State) : exec .cla s = complete [] s.clearFlags := rfl

/-! ## The end of a jump -/

/-- A jump with a target is redirected there (43_control_flow.md R160). -/
theorem completes_of_jump_to_ct {i : Instr} {s : State} (he : exec i s = completeFlow s.jump) (hct : s.ct ≠ 0) :
    Completes i s { s.view.swept with ip := s.ct } := by
  rw [jump_of_ct_ne_zero hct] at he
  have hdone := completes_of_flow_redirected i s _ he
  rwa [view_set_ip] at hdone

/-- A jump without a target halts; it is no redirect, and `IP` stays because the machine no longer runs (43_control_flow.md R160,
30_encoding.md R88). -/
theorem completes_of_jump_to_zero {i : Instr} {s : State} (he : exec i s = completeFlow s.jump) (hct : s.ct = 0) :
    Completes i s { s.view.swept with status := .haltedByJumpToZero } := by
  rw [jump_of_ct_eq_zero hct] at he
  have hdone := completes_of_halted i s (s.halt .haltedByJumpToZero) [] .advance he nofun
  rwa [view_halt] at hdone

/-! ## The obligations -/

/-- Settles O37: `JMP` is the jump procedure and nothing else. -/
theorem jmpResult : Obligations.JmpResult :=
  ⟨hasOpcode_of_number .jmp _ rfl, fun s _ => ⟨completes_of_jump_to_ct (exec_jmp s), completes_of_jump_to_zero (exec_jmp s)⟩⟩

/-- Settles O38, by the flag: a set flag leaves the jump procedure, a clear one the state as it was. -/
theorem conditionalJumpResults : Obligations.ConditionalJumpResults := by
  refine ⟨by decide, fun i f s hmem hr => ?_⟩
  have hexec := exec_of_mem_conditionalJumps hmem s
  have htaken (hset : s.flag f = true) : exec i s = completeFlow s.jump := by rw [hexec, jumpIf_of_set hset]
  refine ⟨fun hclear => ?clear, fun hset => completes_of_jump_to_ct (htaken hset),
    fun hset => completes_of_jump_to_zero (htaken hset)⟩
  case clear =>
    rw [jumpIf_of_clear hclear] at hexec
    exact completes_of_flow_advance i s s hexec hr

/-- Settles O39: each ends with its flags cleared, as the view clears them. -/
theorem flagClearResults : Obligations.FlagClearResults := by
  intro s hr
  rw [← view_assignFlag, ← view_assignFlag, ← view_clearFlags]
  exact ⟨finishes_of_complete .clz _ s _ rfl (exec_clz s) hr, finishes_of_complete .clc _ s _ rfl (exec_clc s) hr,
    finishes_of_complete .cla _ s _ rfl (exec_cla s) hr⟩

end Sys2Proof.Machine
end

