-- ==== Sys2Proof/Proofs/Stack.lean ====
section
/-! The stack instructions (44_stack.md). `PUSH` and `POP` are the procedures of R180 and R181 with an operand as source or
destination, so each finishes with what the view's procedure says, and the obligations take that apart at the ends of the
stack. A push and a pop meet at the stack cell between them (R184). -/

namespace Sys2Proof.Machine

/-! ## Where an operand write lands -/

theorem targetOf_eq_sp_iff (o : Operand) : targetOf o = some (.reg .sp) ↔ o = .reg .sp := by
  rcases o with r | ⟨b, i⟩ | w
  · cases r <;> simp [targetOf]
  · cases b <;> simp [targetOf]
  · simp [targetOf]

/-- Cell 0 takes no operand write (20_memory.md R46). -/
theorem isSentinel_of_targetOf {o : Operand} {p : Place} (h : targetOf o = some p) : p.isSentinel = false := by
  rcases o with r | ⟨b, i⟩ | w
  · cases r <;> cases h <;> rfl
  · cases b with
    | input => cases h
    | general =>
      obtain ⟨hi, rfl⟩ : i ≠ 0 ∧ Place.cell .general i = p := by simpa [targetOf] using h
      simpa [Place.isSentinel] using hi
  · cases h

theorem storeC_place (v : View) (o : Operand) (w : Word) (q : Place) :
    (v.storeC o w).place q = if targetOf o = some q then q.storedForm w else v.place q := by
  unfold View.storeC
  cases targetOf o with
  | none => simp
  | some p =>
    by_cases h : q = p
    · simp [View.put, h]
    · simp [View.put, h, Ne.symm h]

/-- Only a write to the operand `SP` moves the stack top. -/
theorem storeC_sp (v : View) (o : Operand) (w : Word) : (v.storeC o w).sp = if o = .reg .sp then w else v.sp := by
  simp only [View.sp, storeC_place, targetOf_eq_sp_iff, Place.storedForm]

/-! ## The procedures at the ends of the stack (44_stack.md R180, R181) -/

theorem view_push_of_full {v : View} (w : Word) (h : v.sp = 0) : v.push w = v.setFlag .sf true := if_pos h

theorem view_push_of_not_full {v : View} (w : Word) (h : v.sp ≠ 0) :
    v.push w =
      (((v.put (.reg .sp) (v.sp - 1)).put (.cell .stack (v.sp - 1)) w).stick .sf (v.sp == 1)).report w := if_neg h

theorem view_pop_of_empty {v : View} (dest : View → Word → View) (h : v.sp = 0xFFFF) :
    v.pop dest = dest ((v.setFlag .se true).setFlag .z true) 0 := if_pos h

theorem view_top_of_not_empty {v : View} (h : v.sp ≠ 0xFFFF) : v.top = v.place (.cell .stack v.sp) := if_neg h

/-- `SP` rises from where the destination's write left it. -/
theorem view_pop_of_not_empty {v : View} (dest : View → Word → View) (h : v.sp ≠ 0xFFFF) :
    v.pop dest = (((dest v v.top).put (.reg .sp) ((dest v v.top).sp + 1)).stick .se
      ((dest v v.top).sp + 1 == 0xFFFF)).report v.top := if_neg h

/-! ## What each instruction computes -/

theorem exec_push (o : Operand) (s : State) : exec (.push o) s = complete [o] (s.push (s.readC o)) := rfl

theorem exec_pop (o : Operand) (s : State) : exec (.pop o) s = complete [o] (s.pop (some o) .pop).2 := rfl

theorem push_finishes (o : Operand) {s : State} (hr : s.status = .running) :
    Finishes (.push o) 0x050 s (s.view.push (s.readC o)) := by
  rw [← view_push]
  exact finishes_of_complete _ _ s _ rfl (exec_push o s) ((push_status s _).trans hr)

theorem pop_finishes (o : Operand) {s : State} (hr : s.status = .running) :
    Finishes (.pop o) 0x051 s (s.view.pop (viewDest (some o))) := by
  rw [← view_pop s (some o) .pop (.inr ⟨rfl, rfl⟩)]
  exact finishes_of_complete _ _ s _ rfl (exec_pop o s) ((pop_status s _ _).trans hr)

/-! ## The obligations on one instruction -/

/-- Settles O40, by whether the stack is full. -/
theorem pushResult : Obligations.PushResult := by
  intro o s hr
  have hdone := push_finishes o hr
  refine ⟨fun hfull => ?full, fun hfree => ?free⟩
  case full => rwa [view_push_of_full (v := s.view) _ hfull] at hdone
  case free => rwa [view_push_of_not_full (v := s.view) _ hfree] at hdone

/-- Settles O41, by whether the stack is empty; `SP` then rises from the popped word when the operand is `SP` itself. -/
theorem popResult : Obligations.PopResult := by
  intro o s hr
  have hdone := pop_finishes o hr
  refine ⟨fun hempty => ?empty, fun hword w p hw hp => ?word⟩
  case empty => rwa [view_pop_of_empty (v := s.view) _ hempty] at hdone
  case word =>
    have htop : s.view.top = w := (view_top_of_not_empty (v := s.view) hword).trans hw.symm
    have hrise : (s.view.storeC o w).sp + 1 = p := by
      rw [hp, storeC_sp, apply_ite (· + 1)]
      rfl
    rw [view_pop_of_not_empty (v := s.view) _ hword, htop] at hdone
    simpa only [viewDest, hrise] using hdone

/-! ## A push and a pop (44_stack.md R184) -/

/-- The pushed value outlives the cycle unless it lies in cell 0, which the end of the cycle zeroes. -/
theorem exec_push_next (o : Operand) {s : State} (hfree : s.sp ≠ 0) (hcell : s.sp - 1 ≠ 0) :
    ∃ t, exec (.push o) s = .next t ∧ t.status = s.status ∧ t.sp = s.sp - 1 ∧ t.stack.read t.sp = s.readC o := by
  refine ⟨_, exec_push o s, by simp, by simp [push_sp _ _ hfree], ?_⟩
  rw [endCycle_sp, push_sp _ _ hfree, endCycle_read _ _ _ _ hcell, push_read _ _ _ hfree, if_pos rfl]

/-- A destination other than `SP` keeps the popped word, since neither the move of `SP` nor the end of the cycle touches it. -/
theorem exec_pop_next {d : Operand} {t : State} (hr : t.status = .running) (hd : d ≠ .reg .sp) (hword : t.sp ≠ 0xFFFF) :
    ∃ u, exec (.pop d) t = .next u ∧ u.sp = t.sp + 1 ∧
      ∀ p, targetOf d = some p → u.get p = p.storedForm (t.stack.read t.sp) := by
  obtain ⟨-, u, hexec, hview⟩ := (popResult d t hr).2 hword _ _ rfl (if_neg hd).symm
  have hget : u.get = _ := congrArg View.place hview
  refine ⟨u, hexec, congrFun hget (.reg .sp), fun p hp => ?_⟩
  have hpsp : p ≠ .reg .sp := fun h => hd ((targetOf_eq_sp_iff d).mp (h ▸ hp))
  calc u.get p = (t.view.storeC d (t.stack.read t.sp)).place p := by
        rw [hget]
        simp [View.ended, View.swept, View.report, View.setFlag, View.stick, View.put, isSentinel_of_targetOf hp, hpsp]
    _ = p.storedForm (t.stack.read t.sp) := by rw [storeC_place, if_pos hp]

/-- Settles O42: the push lands above cell 0, and the pop starts at the cell it wrote. -/
theorem pushThenPopRestores : Obligations.PushThenPopRestores := by
  intro o d s hr hsp hd
  have hfree : s.sp ≠ 0 := by bv_omega
  have hcell : s.sp - 1 ≠ 0 := by bv_omega
  have hword : s.sp - 1 ≠ 0xFFFF := by bv_omega
  obtain ⟨t, hpush, hstatus, htsp, htop⟩ := exec_push_next o hfree hcell
  obtain ⟨u, hpop, husp, hget⟩ := exec_pop_next (hstatus.trans hr) hd (htsp ▸ hword)
  rw [htop] at hget
  rw [htsp, BitVec.sub_add_cancel] at husp
  exact ⟨t, u, hpush, hpop, husp, hget⟩

end Sys2Proof.Machine
end

