-- ==== Sys2Proof/Proofs/CallReturn.lean ====
section
/-! Calls and returns (45_call_return.md). Both are sequences of pushes and pops, and over a view they are the same sequences,
stage by stage. Where a frame stands (the table of R190) and where a return comes out (R191) are facts about several pushes
or several pops in a row, proved here for any number of them. -/

namespace Sys2Proof.Machine

/-! ## What each instruction computes -/

theorem exec_call_of_null (p1 p2 p3 : Operand) {s : State} (h : s.ct = 0) :
    exec (.call p1 p2 p3) s = complete [p1, p2, p3] s := if_pos h

theorem exec_call_of_target (p1 p2 p3 : Operand) {s : State} (h : s.ct ≠ 0) :
    exec (.call p1 p2 p3) s = .next ((s.enterCall p1 p2 p3).endCycle .redirected (wordCount [p1, p2, p3])) := if_neg h

theorem exec_retv (s : State) : exec .retv s = completeFlow (s.returnValue .retv, .redirected) := rfl

theorem exec_retz (s : State) : exec .retz s = completeFlow ({ s with ct := 0 }.returnValue .retz, .redirected) := rfl

/-! ## The stages of a call over a view (45_call_return.md R190) -/

/-- The six pushes, as `State.pushFrame` makes them. -/
def View.framed (v : View) (n : Nat) : View :=
  let v := v.push (v.place (.reg .cs))
  let v := v.push v.flagWord
  let v := v.push (v.place (.reg .g1))
  let v := v.push (v.place (.reg .g2))
  let v := v.push (v.place (.reg .g3))
  v.push (BitVec.ofNat 16 n)

/-- The parameters, as `State.loadParameters` loads them. -/
def View.loaded (v : View) (p1 p2 p3 : Operand) : View :=
  let v := v.put (.reg .g1) (v.readC p1)
  let v := v.put (.reg .g2) (v.readC p2)
  v.put (.reg .g3) (v.readC p3)

/-- The call site, the jump and the two clears. -/
def View.entered (v : View) : View :=
  let v := v.put (.reg .cs) v.ip
  let v := { v with ip := v.place (.reg .ct) }
  (v.put (.reg .ct) 0).noFlags

theorem called_eq_stages (v : View) (p1 p2 p3 : Operand) (n : Nat) :
    v.called p1 p2 p3 n = (((v.framed n).put (.reg .sr) (v.framed n).sp).loaded p1 p2 p3).entered := by
  simp only [View.called, View.framed, View.loaded, View.entered]

theorem view_place_reg (s : State) (r : XReg) : s.view.place (.reg r) = s.x r := rfl

theorem view_sp (s : State) : s.view.sp = s.sp := rfl

theorem view_pushFrame (s : State) (n : Nat) : (s.pushFrame n).view = s.view.framed n := by
  simp only [State.pushFrame, View.framed, State.readC, ← view_push, flagWord_view, view_place_reg, State.x]

theorem view_loadParameters (s : State) (p1 p2 p3 : Operand) :
    (s.loadParameters p1 p2 p3).view = s.view.loaded p1 p2 p3 := by
  simp only [State.loadParameters, View.loaded, readC_view, ← view_set_g1, ← view_set_g2, ← view_set_g3]

theorem view_entered (s : State) : ({ s with cs := s.ip, ip := s.ct, ct := 0 }.clearFlags).view = s.view.entered := by
  simp only [View.entered, view_clearFlags, ← view_set_cs, ← view_set_ip, ← view_set_ct]
  rfl

/-- A call shows what the view's sequence says. -/
theorem view_enterCall (s : State) (p1 p2 p3 : Operand) :
    (s.enterCall p1 p2 p3).view = s.view.called p1 p2 p3 (wordCount [p1, p2, p3]) := by
  rw [State.enterCall, view_entered, view_loadParameters, view_set_sr, called_eq_stages, ← view_pushFrame, view_sp]

/-! ## The stages of a return over a view (45_call_return.md R191) -/

theorem view_lengthPopped (s : State) (opc : Opcode) :
    { (s.pop none opc).2 with ip := (s.pop none opc).2.cs + (s.pop none opc).1 }.view =
      { s.view.drop with ip := s.view.drop.place (.reg .cs) + s.view.top } := by
  rw [view_set_ip, pop_fst, ← view_drop s opc]
  rfl

theorem view_valuePushed (s : State) :
    { s.push s.ct with ct := 0 }.view = (s.view.push (s.view.place (.reg .ct))).put (.reg .ct) 0 := by
  rw [view_set_ct, view_push]
  rfl

/-- A return shows what the view's sequence says, under either opcode. -/
theorem view_returnValue (s : State) (opc : Opcode) : (s.returnValue opc).view = s.view.returned := by
  rw [State.returnValue, view_valuePushed]
  simp only [view_drop]
  rw [view_lengthPopped, view_set_sp, view_reportZero, reportZero_sr]
  simp only [View.returned, View.setFlag, view_place_reg, State.x]

/-! ## The obligations on one instruction -/

/-- Settles O43, by whether the call has a target. -/
theorem callResult : Obligations.CallResult := by
  intro p1 p2 p3 s hr
  refine ⟨fun hnull => ?null, fun htarget => ⟨hasOpcode_of_number _ _ rfl, _, exec_call_of_target p1 p2 p3 htarget, ?view⟩⟩
  case null => exact finishes_of_complete _ _ s s rfl (exec_call_of_null p1 p2 p3 hnull) hr
  case view => exact (view_endCycle_redirected _ _).trans (congrArg View.swept (view_enterCall s p1 p2 p3))

/-- Settles O45: `RETZ` is `RETV` from the state with `CT` cleared. -/
theorem returnResults : Obligations.ReturnResults := by
  intro s _
  have hretv := completes_of_flow_redirected .retv s _ (exec_retv s)
  have hretz := completes_of_flow_redirected .retz s _ (exec_retz s)
  rw [view_returnValue] at hretv hretz
  rw [view_set_ct] at hretz
  exact ⟨⟨hasOpcode_of_number _ _ rfl, hretv⟩, hasOpcode_of_number _ _ rfl, hretz⟩

/-! ## Several pushes in a row (44_stack.md R180) -/

theorem foldl_push_sp (ws : List Word) {s : State} (h : ws.length ≤ s.sp.toNat) :
    (ws.foldl State.push s).sp = s.sp - BitVec.ofNat 16 ws.length := by
  induction ws generalizing s with
  | nil => simp
  | cons w ws ih =>
    rw [List.length_cons] at h
    have hsp : (s.push w).sp = s.sp - 1 := push_sp s w (by bv_omega)
    rw [List.foldl_cons, ih (by rw [hsp]; bv_omega), hsp, List.length_cons]
    bv_omega

/-- Pushes change no cell at or above the old stack top and none below the new one. -/
theorem foldl_push_read_other (ws : List Word) {s : State} {k : Word} (h : ws.length ≤ s.sp.toNat)
    (hk : k.toNat < s.sp.toNat - ws.length ∨ s.sp.toNat ≤ k.toNat) :
    (ws.foldl State.push s).stack.read k = s.stack.read k := by
  induction ws generalizing s with
  | nil => rfl
  | cons w ws ih =>
    rw [List.length_cons] at h hk
    have hfree : s.sp ≠ 0 := by bv_omega
    have hsp : (s.push w).sp = s.sp - 1 := push_sp s w hfree
    rw [List.foldl_cons, ih (by rw [hsp]; bv_omega) (by rw [hsp]; bv_omega), push_read s w k hfree, if_neg (by bv_omega)]

/-- The pushed words stand below the old stack top, the first pushed uppermost. -/
theorem foldl_push_read (ws : List Word) {s : State} (h : ws.length ≤ s.sp.toNat) (i : Nat) (hi : i < ws.length) :
    (ws.foldl State.push s).stack.read (s.sp - BitVec.ofNat 16 (i + 1)) = ws[i] := by
  induction ws generalizing s i with
  | nil => simp at hi
  | cons w ws ih =>
    rw [List.length_cons] at h hi
    have hfree : s.sp ≠ 0 := by bv_omega
    have hsp : (s.push w).sp = s.sp - 1 := push_sp s w hfree
    have hrest : ws.length ≤ (s.push w).sp.toNat := by rw [hsp]; bv_omega
    rw [List.foldl_cons]
    cases i with
    | zero =>
      rw [foldl_push_read_other ws hrest (by rw [hsp]; exact .inr le_rfl), push_read s w _ hfree]
      exact if_pos rfl
    | succ i =>
      have hcell : s.sp - BitVec.ofNat 16 (i + 1 + 1) = (s.push w).sp - BitVec.ofNat 16 (i + 1) := by rw [hsp]; bv_omega
      rw [hcell, ih hrest i (by omega), List.getElem_cons_succ]

/-! ## The frame of a call (45_call_return.md R190) -/

/-- With a second free cell a push moves no flag but `Z`. -/
theorem push_fl {s : State} (w : Word) (h : 2 ≤ s.sp.toNat) : (s.push w).fl = (s.reportZero w).fl := by
  refine fl_eq_of_flags _ _ fun f => ?_
  have hlast : (s.sp - 1 == 0) = false := by rw [beq_eq_false_iff_ne]; bv_omega
  rw [push_flag s w f (by bv_omega), flag_reportZero, hlast]
  cases f <;> rfl

/-- The six words of a frame, in the order a call pushes them. -/
def State.frameWords (s : State) (n : Nat) : List Word :=
  [s.cs, (s.view.report s.cs).flagWord, s.g1, s.g2, s.g3, BitVec.ofNat 16 n]

@[simp] theorem frameWords_length (s : State) (n : Nat) : (s.frameWords n).length = 6 := rfl

theorem pushFrame_eq_foldl {s : State} (n : Nat) (h : 2 ≤ s.sp.toNat) :
    s.pushFrame n = (s.frameWords n).foldl State.push s := by
  have hflags : (s.push s.cs).fl.setWidth 16 = (s.view.report s.cs).flagWord := by
    rw [push_fl s.cs h, ← flagWord_view, view_reportZero]
    rfl
  simp [State.pushFrame, State.frameWords, hflags, State.readC]

theorem enterCall_stack_eq_foldl {s : State} (p1 p2 p3 : Operand) (h : 2 ≤ s.sp.toNat) :
    (s.enterCall p1 p2 p3).stack = ((s.frameWords (wordCount [p1, p2, p3])).foldl State.push s).stack := by
  rw [enterCall_stack, pushFrame_eq_foldl _ h]

/-- The frame takes six cells, and the stack top rests on its last word. -/
theorem enterCall_sp_of_room {s : State} (p1 p2 p3 : Operand) (h : 6 ≤ s.sp.toNat) :
    (s.enterCall p1 p2 p3).sp = s.sp - 6 := by
  rw [enterCall_sp, pushFrame_eq_foldl _ (by omega), foldl_push_sp (s.frameWords _) h]
  rfl

/-- Settles O44: the frame's cells lie above cell 0, so the end of the cycle keeps them. -/
theorem callFrameLayout : Obligations.CallFrameLayout := by
  intro p1 p2 p3 s _ htarget hroom
  have hsp := enterCall_sp_of_room (s := s) p1 p2 p3 (by omega)
  have hsix : (s.frameWords (wordCount [p1, p2, p3])).length ≤ s.sp.toNat := by rw [frameWords_length]; omega
  have hkeep : ∀ k : Word, k ≠ 0 → ((s.enterCall p1 p2 p3).endCycle .redirected (wordCount [p1, p2, p3])).stack.read k =
      ((s.frameWords (wordCount [p1, p2, p3])).foldl State.push s).stack.read k := fun k hk => by
    rw [endCycle_read _ _ _ k hk, enterCall_stack_eq_foldl p1 p2 p3 (by omega)]
  have hword : ∀ i (hi : i < 6), ((s.enterCall p1 p2 p3).endCycle .redirected (wordCount [p1, p2, p3])).stack.read
      (s.sp - BitVec.ofNat 16 (i + 1)) = (s.frameWords (wordCount [p1, p2, p3]))[i] := fun i hi =>
    (hkeep _ (by bv_omega)).trans (foldl_push_read _ hsix i hi)
  refine ⟨_, exec_call_of_target p1 p2 p3 htarget, ?sp, ?sr, ?cs, ?ip, ?ct, ?fl, hword 0 (by decide), hword 1 (by decide),
    hword 2 (by decide), hword 3 (by decide), hword 4 (by decide), hword 5 (by decide), fun k hk hout => ?other⟩
  case sp => rw [endCycle_sp, hsp]
  case sr => rw [endCycle_sr, enterCall_sr, ← enterCall_sp, hsp]
  case cs => rw [endCycle_cs, enterCall_cs]
  case ip => rw [endCycle_redirected_ip, enterCall_ip]
  case ct => rw [endCycle_ct, enterCall_ct]
  case fl => rw [endCycle_fl, enterCall_fl]
  case other => exact (hkeep k hk).trans (foldl_push_read_other _ hsix hout)

/-! ## Several pops in a row (44_stack.md R181) -/

theorem pop_fst_of_not_empty {s : State} (d : Option Operand) (opc : Opcode) (h : s.sp ≠ 0xFFFF) :
    (s.pop d opc).1 = s.stack.read s.sp :=
  (pop_fst s d opc).trans (view_top_of_not_empty (v := s.view) h)

/-- `n` words popped and dropped. -/
def State.dropped (s : State) (opc : Opcode) : Nat → State
  | 0 => s
  | n + 1 => (s.dropped opc n).drop opc

@[simp] theorem dropped_ct (s : State) (opc : Opcode) (n : Nat) : (s.dropped opc n).ct = s.ct := by
  induction n with
  | zero => rfl
  | succ n ih => rw [State.dropped, drop_ct, ih]

theorem dropped_sp {s : State} (opc : Opcode) {n : Nat} (h : s.sp.toNat + n ≤ 0xFFFF) :
    (s.dropped opc n).sp = s.sp + BitVec.ofNat 16 n := by
  induction n with
  | zero => simp [State.dropped]
  | succ n ih =>
    have hsp := ih (by omega)
    rw [State.dropped, drop_sp _ _ (by rw [hsp]; bv_omega), hsp]
    bv_omega

/-- Pops that leave a word on the stack move no flag but `Z`. -/
theorem dropped_flag_of_lt {s : State} (opc : Opcode) {n : Nat} {f : Flag} (h : s.sp.toNat + n < 0xFFFF) (hf : f ≠ .z) :
    (s.dropped opc n).flag f = s.flag f := by
  induction n with
  | zero => rfl
  | succ n ih =>
    have hsp := dropped_sp (s := s) opc (n := n) (by omega)
    have hlast : ((s.dropped opc n).sp + 1 == 0xFFFF) = false := by rw [hsp, beq_eq_false_iff_ne]; bv_omega
    rw [State.dropped, drop_flag _ _ _ (by rw [hsp]; bv_omega), if_neg hf, hlast, Bool.false_or]
    split
    next hse => rw [← hse, ih (by omega)]
    next => exact ih (by omega)

/-- Only the last of several pops can empty the stack and set `SE`. -/
theorem dropped_succ_flag {s : State} (opc : Opcode) {n : Nat} {f : Flag} (h : s.sp.toNat + n < 0xFFFF) (hf : f ≠ .z) :
    (s.dropped opc (n + 1)).flag f =
      if f = .se then s.sp + BitVec.ofNat 16 (n + 1) == 0xFFFF || s.flag .se else s.flag f := by
  have hsp := dropped_sp (s := s) opc (n := n) (by omega)
  have hnext : (s.dropped opc n).sp + 1 = s.sp + BitVec.ofNat 16 (n + 1) := by rw [hsp]; bv_omega
  rw [State.dropped, drop_flag _ _ _ (by rw [hsp]; bv_omega), if_neg hf, hnext, dropped_flag_of_lt opc h hf,
    dropped_flag_of_lt opc h (by decide)]

/-! ## Where a return comes out (45_call_return.md R191) -/

/-- A return up to its redirect: `Z` from the value, `SP` from the snapshot, the length popped and added to the call site. -/
def State.resumed (s : State) (opc : Opcode) : State :=
  let p := { s.reportZero s.ct with sp := s.sr }.pop none opc
  { p.2 with ip := p.2.cs + p.1 }

/-- The rest of a return drops the five words under the length and pushes the value. -/
theorem returnValue_eq (s : State) (opc : Opcode) :
    s.returnValue opc = { ((s.resumed opc).dropped opc 5).push ((s.resumed opc).dropped opc 5).ct with ct := 0 } := rfl

theorem returnValue_fl (s : State) (opc : Opcode) :
    (s.returnValue opc).fl = (((s.resumed opc).dropped opc 5).push ((s.resumed opc).dropped opc 5).ct).fl := by
  rw [returnValue_eq]

theorem resumed_ct (s : State) (opc : Opcode) : (s.resumed opc).ct = s.ct := by simp [State.resumed]

theorem resumed_ip {s : State} (opc : Opcode) (h : s.sr ≠ 0xFFFF) : (s.resumed opc).ip = s.cs + s.stack.read s.sr := by
  simp only [State.resumed, popNone_cs, reportZero_cs]
  rw [pop_fst_of_not_empty none opc h]
  rfl

theorem resumed_sp {s : State} (opc : Opcode) (h : s.sr ≠ 0xFFFF) : (s.resumed opc).sp = s.sr + 1 :=
  drop_sp { s.reportZero s.ct with sp := s.sr } opc h

theorem resumed_flag {s : State} (opc : Opcode) {f : Flag} (h : s.sr.toNat + 1 < 0xFFFF) (hf : f ≠ .z) :
    (s.resumed opc).flag f = s.flag f := by
  calc (s.resumed opc).flag f = ({ s.reportZero s.ct with sp := s.sr }.dropped opc 1).flag f := rfl
    _ = (s.reportZero s.ct).flag f := dropped_flag_of_lt opc h hf
    _ = s.flag f := by rw [flag_reportZero, if_neg hf]

section
variable {s : State} (opc : Opcode) (h : s.sr.toNat + 6 ≤ 0xFFFF)
include h

/-- With six words on the stack none of the pops of a return finds it empty. -/
theorem resumed_dropped_sp : ((s.resumed opc).dropped opc 5).sp = s.sr + 6 := by
  have hsp := resumed_sp (s := s) opc (by bv_omega)
  rw [dropped_sp opc (by rw [hsp]; bv_omega), hsp]
  bv_omega

theorem returnValue_sp : (s.returnValue opc).sp = s.sr + 5 := by
  have hsp := resumed_dropped_sp opc h
  rw [returnValue_eq, push_sp _ _ (by rw [hsp]; bv_omega), hsp]
  bv_omega

theorem returnValue_ip : (s.returnValue opc).ip = s.cs + s.stack.read s.sr := by
  rw [returnValue_eq, push_ip]
  simp only [State.dropped, drop_ip]
  exact resumed_ip opc (by bv_omega)

/-- The value stands on the stack top. -/
theorem returnValue_read : (s.returnValue opc).stack.read (s.sr + 5) = s.ct := by
  have hsp := resumed_dropped_sp opc h
  rw [returnValue_eq, push_read _ _ _ (by rw [hsp]; bv_omega), hsp, if_pos (by bv_omega), dropped_ct, resumed_ct]

theorem returnValue_flag (f : Flag) :
    (s.returnValue opc).flag f =
      if f = .z then s.ct == 0 else if f = .se then s.sr + 6 == 0xFFFF || s.flag .se else s.flag f := by
  have hsp := resumed_dropped_sp opc h
  have hstart := resumed_sp (s := s) opc (by bv_omega)
  have hcell : s.sr + 1 + BitVec.ofNat 16 (4 + 1) = s.sr + 6 := by bv_omega
  have hkept : f ≠ .z → ((s.resumed opc).dropped opc 5).flag f =
      if f = .se then s.sr + 6 == 0xFFFF || s.flag .se else s.flag f := fun hf => by
    rw [dropped_succ_flag opc (by rw [hstart]; bv_omega) hf, hstart, hcell, resumed_flag opc (by omega) hf,
      resumed_flag opc (by omega) (by decide)]
  rw [flag_congr _ _ f (returnValue_fl s opc), flag_congr _ _ f (push_fl _ (by rw [hsp]; bv_omega)), flag_reportZero,
    dropped_ct, resumed_ct]
  split
  next => rfl
  next hf => exact hkept hf

end

/-- Settles O46: the length word lies six cells below the call's stack top, so the pops end where the call began. -/
theorem returnResumesAfterCall : Obligations.ReturnResumesAfterCall := by
  intro p1 p2 p3 s t u hr htarget hroom hcall _ husr hucs hulen
  obtain ⟨t', hcall', -, hsr, hcs, -, -, -, -, -, -, -, -, hlen, -⟩ := callFrameLayout p1 p2 p3 s hr htarget hroom
  obtain rfl : t' = t := Host.Outcome.next.inj (hcall'.symm.trans hcall)
  rw [hsr] at husr hulen
  have hword : u.sr.toNat + 6 ≤ 0xFFFF := by rw [husr]; bv_omega
  have htop : u.sr + 5 = s.sp - 1 := by rw [husr]; bv_omega
  have hend : u.sr + 6 = s.sp := by rw [husr]; bv_omega
  have hflag := fun f => (endCycle_flag _ .redirected (wordCount []) f).trans (returnValue_flag .retv hword f)
  refine ⟨_, exec_retv u, ?ip, ?sp, ?value, ?ct, ?g1, ?g2, ?g3, ?cs, ?sr, hflag .z, hflag .e, hflag .l, hflag .g, hflag .c,
    hflag .i, ?se, hflag .sf⟩
  case ip => rw [endCycle_redirected_ip, returnValue_ip .retv hword, hucs, hcs, husr, hulen, hlen]
  case sp => rw [endCycle_sp, returnValue_sp .retv hword, htop]
  case value => rw [endCycle_read _ _ _ _ (by bv_omega), ← htop, returnValue_read .retv hword]
  case ct => exact endCycle_ct _ _ _
  case se => rw [hflag .se, hend]; exact Bool.or_comm _ _
  all_goals simp

end Sys2Proof.Machine
end

