-- ==== Sys2Proof/Proofs/Console.lean ====
section
/-! The console instructions (46_io.md). `RDC` consumes a character and then writes and reports it or only sets `Z`; `WRC` emits
the low nibble of its operand. -/

namespace Sys2Proof.Machine

/-! ## The byte and the character -/

/-- The byte `WRC` emits (46_io.md R201). -/
theorem lowNibble_eq_ofNat_mod (a : Word) : (a &&& 0x000F).extractLsb' 0 8 = BitVec.ofNat 8 (a.toNat % 16) := by
  have hmask : (a &&& 0x000F).toNat = a.toNat % 16 :=
    (BitVec.toNat_and a 0x000F).trans (Nat.and_two_pow_sub_one_eq_mod a.toNat 4)
  rw [BitVec.extractLsb', Nat.shiftRight_zero, hmask]

/-- A character that fits a word is reported as itself (46_io.md R200). -/
theorem ofNat_beq_zero {c : Nat} (h : c < 65536) : (BitVec.ofNat 16 c == 0) = (c == 0) := by
  rw [Bool.eq_iff_iff, beq_iff_eq, beq_iff_eq, BitVec.toNat_eq, BitVec.toNat_ofNat, Nat.mod_eq_of_lt h]
  rfl

/-! ## What each instruction computes -/

theorem acceptChar_of_le {s : State} (o : Operand) {c : Nat} (h : c ≤ charMax) :
    s.acceptChar o c = s.resultC o (BitVec.ofNat 16 c) .rdc := if_neg (Nat.not_lt.mpr h)

theorem acceptChar_of_lt {s : State} (o : Operand) {c : Nat} (h : charMax < c) :
    s.acceptChar o c = s.assignFlag .z true := if_pos h

theorem exec_rdc_waiting (o : Operand) {c : Nat} {cs : List Nat} {s : State} (h : s.consoleIn = c :: cs) :
    exec (.rdc o) s = complete [o] ({ s with consoleIn := cs }.acceptChar o c) := by
  simp only [exec, execRdc, h]

theorem exec_wrc (o : Operand) (s : State) :
    exec (.wrc o) s = complete [o] (s.consoleWrite (BitVec.ofNat 8 ((s.readC o).toNat % 16))) := by
  rw [← lowNibble_eq_ofNat_mod]
  rfl

/-! ## The end of `RDC` -/

theorem storeC_set_consoleIn (v : View) (o : Operand) (w : Word) (cs : List Nat) :
    { v with consoleIn := cs }.storeC o w = { v.storeC o w with consoleIn := cs } := by
  unfold View.storeC
  cases targetOf o with
  | none => rfl
  | some p => rfl

/-- What `RDC` leaves of an accepted character. -/
theorem view_acceptChar_of_le (s : State) (o : Operand) {c : Nat} (cs : List Nat) (h : c ≤ charMax) :
    ({ s with consoleIn := cs }.acceptChar o c).view =
      { (s.view.storeC o (BitVec.ofNat 16 c)).setFlag .z (c == 0) with consoleIn := cs } := by
  have hword : c < 65536 := Nat.lt_of_le_of_lt h (by decide)
  rw [acceptChar_of_le o h, view_resultC _ _ _ _ ⟨rfl, rfl⟩, view_set_consoleIn, storeC_set_consoleIn, View.report,
    ofNat_beq_zero hword]
  rfl

/-- What `RDC` leaves of a rejected character. -/
theorem view_acceptChar_of_lt (s : State) (o : Operand) {c : Nat} (cs : List Nat) (h : charMax < c) :
    ({ s with consoleIn := cs }.acceptChar o c).view = { s.view.setFlag .z true with consoleIn := cs } := by
  rw [acceptChar_of_lt o h, view_assignFlag, view_set_consoleIn]
  rfl

theorem rdc_finishes (o : Operand) {c : Nat} {cs : List Nat} {s : State} (hr : s.status = .running)
    (h : s.consoleIn = c :: cs) : Finishes (.rdc o) 0x070 s ({ s with consoleIn := cs }.acceptChar o c).view :=
  finishes_of_complete _ _ s _ rfl (exec_rdc_waiting o h) ((acceptChar_status _ o c).trans hr)

/-! ## The obligations -/

/-- Settles O47, by whether the character is accepted. -/
theorem rdcResult : Obligations.RdcResult := fun o _ cs s hr hin =>
  ⟨fun hle => view_acceptChar_of_le s o cs hle ▸ rdc_finishes o hr hin,
    fun hlt => view_acceptChar_of_lt s o cs hlt ▸ rdc_finishes o hr hin⟩

/-- Settles O48: the read blocks. -/
theorem rdcWithoutInputBlocks : Obligations.RdcWithoutInputBlocks := fun o _ hin => exec_rdc_blocked o hin

/-- Settles O49: the emitted byte is all that the cycle adds. -/
theorem wrcResult : Obligations.WrcResult := by
  intro o s hr
  rw [← view_consoleWrite]
  exact finishes_of_complete _ _ s _ rfl (exec_wrc o s) hr

end Sys2Proof.Machine
end

