-- ==== Sys2Proof/Proofs/OutputStream.lean ====
section
/-! The output stream as a field that is written and never read (46_io.md R202). Putting another stream into a state commutes
with every operation but `ConsoleWrite`, which puts its byte behind whatever stream stands there. So a step commutes with it
but for the bytes it emits; taken with the state's own stream, the same equation says that the stream only grows. -/

namespace Sys2Proof.Machine

/-- The state with another output stream. -/
def State.withOut (s : State) (out : List Byte) : State := { s with consoleOut := out }

/-- The outcome with its next state, if there is one, passed through `f`. -/
def onNext (f : State → State) : Host.Outcome State Fault Refusal → Host.Outcome State Fault Refusal
  | .next s => .next (f s)
  | .fault r => .fault r
  | .refused r => .refused r

/-! ## What does not look at the stream -/

@[simp] theorem withOut_ct (s : State) (out : List Byte) : (s.withOut out).ct = s.ct := rfl

@[simp] theorem withOut_cs (s : State) (out : List Byte) : (s.withOut out).cs = s.cs := rfl

@[simp] theorem withOut_g1 (s : State) (out : List Byte) : (s.withOut out).g1 = s.g1 := rfl

@[simp] theorem withOut_g2 (s : State) (out : List Byte) : (s.withOut out).g2 = s.g2 := rfl

@[simp] theorem withOut_g3 (s : State) (out : List Byte) : (s.withOut out).g3 = s.g3 := rfl

@[simp] theorem withOut_fl (s : State) (out : List Byte) : (s.withOut out).fl = s.fl := rfl

@[simp] theorem withOut_sp (s : State) (out : List Byte) : (s.withOut out).sp = s.sp := rfl

@[simp] theorem withOut_stack (s : State) (out : List Byte) : (s.withOut out).stack = s.stack := rfl

@[simp] theorem readC_withOut (s : State) (out : List Byte) (o : Operand) : (s.withOut out).readC o = s.readC o := rfl

theorem relTarget_withOut (s : State) (out : List Byte) (o : Operand) (m : Mode) :
    (s.withOut out).relTarget o m = s.relTarget o m := rfl

/-! ## Flags -/

@[simp] theorem assignFlag_withOut (s : State) (out : List Byte) (f : Flag) (c : Bool) :
    (s.withOut out).assignFlag f c = (s.assignFlag f c).withOut out := rfl

@[simp] theorem stickFlag_withOut (s : State) (out : List Byte) (f : Flag) (c : Bool) :
    (s.withOut out).stickFlag f c = (s.stickFlag f c).withOut out := by
  cases c <;> rfl

@[simp] theorem reportZero_withOut (s : State) (out : List Byte) (v : Word) :
    (s.withOut out).reportZero v = (s.reportZero v).withOut out := rfl

@[simp] theorem reportCarry_withOut (s : State) (out : List Byte) (a b : Word) :
    (s.withOut out).reportCarry a b = (s.reportCarry a b).withOut out := stickFlag_withOut s out .c _

/-! ## Operand writes -/

theorem regWrite_withOut (s : State) (out : List Byte) (r : Reg) (v : Word) (opc : Opcode) :
    (s.withOut out).regWrite r v opc = (s.regWrite r v opc).withOut out := by
  cases r with
  | cs | fl =>
    simp only [State.regWrite]
    split
    · rfl
    · rfl
  | null | g1 | g2 | g3 | ct | sp => rfl

theorem cellWrite_withOut (s : State) (out : List Byte) (b : DataBank) (i w : Word) :
    (s.withOut out).cellWrite b i w = (s.cellWrite b i w).withOut out := by
  unfold State.cellWrite
  split
  · rfl
  · cases b <;> rfl

@[simp] theorem writeC_withOut (s : State) (out : List Byte) (o : Operand) (v : Word) (opc : Opcode) :
    (s.withOut out).writeC o v opc = (s.writeC o v opc).withOut out := by
  cases o with
  | reg r => exact regWrite_withOut s out r v opc
  | mem b i => exact cellWrite_withOut s out b i (canon v)
  | imm _ => rfl

@[simp] theorem writeR_withOut (s : State) (out : List Byte) (o : Operand) (v : Word) (opc : Opcode) :
    (s.withOut out).writeR o v opc = (s.writeR o v opc).withOut out := by
  cases o with
  | reg r => exact regWrite_withOut s out r (canon v) opc
  | mem b i => exact cellWrite_withOut s out b i v
  | imm _ => rfl

@[simp] theorem resultC_withOut (s : State) (out : List Byte) (o : Operand) (v : Word) (opc : Opcode) :
    (s.withOut out).resultC o v opc = (s.resultC o v opc).withOut out := by
  simp [State.resultC]

theorem resultR_withOut (s : State) (out : List Byte) (o : Operand) (v : Word) (opc : Opcode) :
    (s.withOut out).resultR o v opc = (s.resultR o v opc).withOut out := by
  simp [State.resultR]

theorem relCopy_withOut (s : State) (out : List Byte) (o : Operand) (m : Mode) (v : Word) (opc : Opcode) :
    (s.withOut out).relCopy o m v opc = (s.relCopy o m v opc).withOut out := by
  simp only [State.relCopy, relTarget_withOut]
  cases s.relTarget o m with
  | none => rfl
  | some target => exact resultC_withOut s out target v opc

theorem acceptChar_withOut (s : State) (out : List Byte) (o : Operand) (c : Nat) :
    (s.withOut out).acceptChar o c = (s.acceptChar o c).withOut out := by
  unfold State.acceptChar
  split
  · rfl
  · simp

/-! ## The stack procedures, calls and returns -/

/-- The stack top moved up by one, with the report that the stack is then empty (44_stack.md R181). -/
def State.movedUp (s : State) : State := { s with sp := s.sp + 1 }.stickFlag .se (s.sp + 1 == 0xFFFF)

theorem push_of_not_full {s : State} (v : Word) (h : s.sp ≠ 0) :
    s.push v =
      ({ s with sp := s.sp - 1, stack := s.stack.write (s.sp - 1) v }.stickFlag .sf (s.sp - 1 == 0)).reportZero v :=
  if_neg h

theorem pop_of_empty {s : State} {d : Option Operand} {opc : Opcode} (h : s.sp = 0xFFFF) :
    s.pop d opc = (0, ((s.stickFlag .se true).assignFlag .z true).popDest d 0 opc) := if_pos h

/-- A pop with a word to yield: the destination is written, and then `SP` moves up (44_stack.md R181). -/
theorem pop_of_not_empty {s : State} {d : Option Operand} {opc : Opcode} (h : s.sp ≠ 0xFFFF) :
    s.pop d opc = (s.stack.read s.sp, ((s.popDest d (s.stack.read s.sp) opc).movedUp).reportZero (s.stack.read s.sp)) :=
  if_neg h

@[simp] theorem push_withOut (s : State) (out : List Byte) (v : Word) :
    (s.withOut out).push v = (s.push v).withOut out := by
  by_cases hfull : s.sp = 0
  · rw [push_full s v hfull, ← stickFlag_withOut]
    exact push_full (s.withOut out) v hfull
  · rw [push_of_not_full v hfull, ← reportZero_withOut, ← stickFlag_withOut]
    exact push_of_not_full (s := s.withOut out) v hfull

theorem movedUp_withOut (s : State) (out : List Byte) : (s.withOut out).movedUp = s.movedUp.withOut out :=
  stickFlag_withOut { s with sp := s.sp + 1 } out .se (s.sp + 1 == 0xFFFF)

@[simp] theorem popDest_withOut (s : State) (out : List Byte) (d : Option Operand) (v : Word) (opc : Opcode) :
    (s.withOut out).popDest d v opc = (s.popDest d v opc).withOut out := by
  cases d with
  | none => rfl
  | some o => exact writeC_withOut s out o v opc

/-- The word a pop yields is read from the stack; the stream plays no part in it. -/
theorem pop_withOut (s : State) (out : List Byte) (d : Option Operand) (opc : Opcode) :
    (s.withOut out).pop d opc = ((s.pop d opc).1, (s.pop d opc).2.withOut out) := by
  by_cases hempty : s.sp = 0xFFFF
  · rw [pop_of_empty hempty, pop_of_empty (s := s.withOut out) hempty]
    simp
  · rw [pop_of_not_empty hempty, pop_of_not_empty (s := s.withOut out) hempty, withOut_stack, withOut_sp, popDest_withOut,
      movedUp_withOut, reportZero_withOut]

theorem drop_withOut (s : State) (out : List Byte) (opc : Opcode) :
    (s.withOut out).drop opc = (s.drop opc).withOut out :=
  congrArg Prod.snd (pop_withOut s out none opc)

theorem dropped_withOut (s : State) (out : List Byte) (opc : Opcode) (n : Nat) :
    (s.withOut out).dropped opc n = (s.dropped opc n).withOut out := by
  induction n with
  | zero => rfl
  | succ n ih => rw [State.dropped, ih, drop_withOut, State.dropped]

theorem pushFrame_withOut (s : State) (out : List Byte) (n : Nat) :
    (s.withOut out).pushFrame n = (s.pushFrame n).withOut out := by
  simp [State.pushFrame]

theorem enterCall_withOut (s : State) (out : List Byte) (p1 p2 p3 : Operand) :
    (s.withOut out).enterCall p1 p2 p3 = (s.enterCall p1 p2 p3).withOut out := by
  unfold State.enterCall
  rw [pushFrame_withOut]
  generalize s.pushFrame (wordCount [p1, p2, p3]) = framed
  rfl

theorem returnValue_withOut (s : State) (out : List Byte) (opc : Opcode) :
    (s.withOut out).returnValue opc = (s.returnValue opc).withOut out := by
  have hlength := pop_withOut { s.reportZero s.ct with sp := s.sr } out none opc
  have hresumed : (s.withOut out).resumed opc = (s.resumed opc).withOut out :=
    congrArg (fun p : Word × State => { p.2 with ip := p.2.cs + p.1 }) hlength
  rw [returnValue_eq, hresumed, dropped_withOut, withOut_ct, push_withOut]
  rfl

/-! ## Jumps -/

theorem jump_withOut (s : State) (out : List Byte) : (s.withOut out).jump = (s.jump.1.withOut out, s.jump.2) := by
  by_cases htarget : s.ct = 0
  · rw [jump_of_ct_eq_zero htarget, jump_of_ct_eq_zero (s := s.withOut out) htarget]
    rfl
  · rw [jump_of_ct_ne_zero htarget, jump_of_ct_ne_zero (s := s.withOut out) htarget]
    rfl

theorem jumpIf_withOut (s : State) (out : List Byte) (f : Flag) :
    (s.withOut out).jumpIf f = ((s.jumpIf f).1.withOut out, (s.jumpIf f).2) := by
  cases hflag : s.flag f with
  | true => rw [jumpIf_of_set hflag, jumpIf_of_set (s := s.withOut out) hflag, jump_withOut]
  | false => rw [jumpIf_of_clear hflag, jumpIf_of_clear (s := s.withOut out) hflag]

/-! ## The end of a cycle -/

theorem advanceIP_of_going {s : State} {fl : Flow} {n : Nat} (h : s.status = .running ∧ fl = .advance) :
    s.advanceIP fl n = { s with ip := s.ip + BitVec.ofNat 16 n } := if_pos h

theorem advanceIP_of_not_going {s : State} {fl : Flow} {n : Nat} (h : ¬(s.status = .running ∧ fl = .advance)) :
    s.advanceIP fl n = s := if_neg h

theorem advanceIP_withOut (s : State) (out : List Byte) (fl : Flow) (n : Nat) :
    (s.withOut out).advanceIP fl n = (s.advanceIP fl n).withOut out := by
  by_cases h : s.status = .running ∧ fl = .advance
  · rw [advanceIP_of_going h, advanceIP_of_going (s := s.withOut out) h]
    rfl
  · rw [advanceIP_of_not_going h, advanceIP_of_not_going (s := s.withOut out) h]

theorem endCycle_withOut (s : State) (out : List Byte) (fl : Flow) (n : Nat) :
    (s.withOut out).endCycle fl n = (s.endCycle fl n).withOut out := advanceIP_withOut s.zeroSentinels out fl n

theorem complete_of_withOut {s t : State} {out : List Byte} {os : List Operand} (h : t = s.withOut out) :
    complete os t = onNext (·.withOut out) (complete os s) := by
  rw [h]
  exact congrArg Host.Outcome.next (endCycle_withOut s out .advance _)

theorem completeFlow_of_withOut {p q : State × Flow} {out : List Byte} (h : q = (p.1.withOut out, p.2)) :
    completeFlow q = onNext (·.withOut out) (completeFlow p) := by
  rw [h]
  exact congrArg Host.Outcome.next (endCycle_withOut p.1 out p.2 _)

/-! ## Every instruction -/

/-- An instruction that emits nothing leaves from a state with another stream what it leaves from the state, with that stream. -/
theorem exec_withOut_of_silent (i : Instr) (s : State) (out : List Byte) (hi : i.opcode ≠ .wrc) :
    exec i (s.withOut out) = onNext (·.withOut out) (exec i s) := by
  cases i with
  | inc _ o1 | dec _ o1 | add _ o1 _ | sub _ o1 _ | mul _ o1 _ | cpy o1 _ | mcp o1 _ _ | cip o1 =>
    exact complete_of_withOut (resultC_withOut s out o1 _ _)
  | div m o1 o2 =>
    by_cases hzero : s.readC o2 = 0
    · rw [exec_div_of_zero m o1 hzero, exec_div_of_zero m o1 (s := s.withOut out) hzero]
      exact complete_of_withOut (by simp)
    · rw [exec_div_of_ne m o1 hzero, exec_div_of_ne m o1 (s := s.withOut out) hzero]
      exact complete_of_withOut (resultC_withOut s out o1 _ _)
  | adc _ o1 o2 | sbc _ o1 o2 =>
    simp only [exec_adc, exec_sbc, readC_withOut]
    exact complete_of_withOut (by simp)
  | and o1 _ | or o1 _ | xor o1 _ | not o1 | shl o1 _ | shr _ o1 _ | rol o1 _ | ror o1 _ | bsw o1 =>
    exact complete_of_withOut (resultR_withOut s out o1 _ _)
  | icp o1 o2 =>
    cases o2 with
    | mem b i => exact complete_of_withOut (resultR_withOut s out o1 i _)
    | reg _ | imm _ => rfl
  | cmp m o1 o2 =>
    rw [exec_cmp, exec_cmp]
    exact complete_of_withOut (by simp [State.compared])
  | swp o1 o2 =>
    rw [exec_swp, exec_swp]
    exact complete_of_withOut (by simp [State.swapped])
  | rcf m _ o | rct m o _ => exact complete_of_withOut (relCopy_withOut s out o m _ _)
  | clz | clc | cla | halt | nop => exact complete_of_withOut rfl
  | jmp => exact completeFlow_of_withOut (jump_withOut s out)
  | jz | je | jl | jg | jc | ji | jse | jsf => exact completeFlow_of_withOut (jumpIf_withOut s out _)
  | push o1 => exact complete_of_withOut (push_withOut s out (s.readC o1))
  | pop o1 => exact complete_of_withOut (congrArg Prod.snd (pop_withOut s out (some o1) .pop))
  | call p1 p2 p3 =>
    by_cases hnull : s.ct = 0
    · rw [exec_call_of_null p1 p2 p3 hnull, exec_call_of_null p1 p2 p3 (s := s.withOut out) hnull]
      exact complete_of_withOut rfl
    · rw [exec_call_of_target p1 p2 p3 hnull, exec_call_of_target p1 p2 p3 (s := s.withOut out) hnull, enterCall_withOut,
        endCycle_withOut]
      rfl
  | retv => exact completeFlow_of_withOut (congrArg (·, _) (returnValue_withOut s out .retv))
  | retz => exact completeFlow_of_withOut (congrArg (·, _) (returnValue_withOut { s with ct := 0 } out .retz))
  | rdc o =>
    cases hin : s.consoleIn with
    | nil =>
      rw [exec_rdc_blocked o hin, exec_rdc_blocked o (s := s.withOut out) hin]
      rfl
    | cons c cs =>
      rw [exec_rdc_waiting o hin, exec_rdc_waiting o (s := s.withOut out) hin]
      exact complete_of_withOut (acceptChar_withOut { s with consoleIn := cs } out o c)
  | wrc _ => exact absurd rfl hi

/-- `WRC` puts its byte behind whatever stream stands there (46_io.md R201, R202). -/
theorem exec_wrc_withOut (o : Operand) (s : State) (out : List Byte) :
    exec (.wrc o) (s.withOut out) =
      onNext (·.withOut (out ++ [BitVec.ofNat 8 ((s.readC o).toNat % 16)])) (exec (.wrc o) s) := by
  rw [exec_wrc, exec_wrc, readC_withOut]
  exact complete_of_withOut rfl

/-! ## What is emitted -/

/-- From `s` the outcome `f` emits `new`, at most one byte and below 16, behind whatever stream stands there (46_io.md R202). -/
structure Emits (f : State → Host.Outcome State Fault Refusal) (s : State) (new : List Byte) : Prop where
  length_le : new.length ≤ 1
  lt : ∀ b ∈ new, b.toNat < 16
  withOut : ∀ out, f (s.withOut out) = onNext (·.withOut (out ++ new)) (f s)

namespace Emits

variable {f : State → Host.Outcome State Fault Refusal} {s t : State} {new : List Byte}

theorem of_silent (h : ∀ out, f (s.withOut out) = onNext (·.withOut out) (f s)) : Emits f s [] :=
  ⟨Nat.zero_le 1, nofun, fun out => by rw [List.append_nil, h out]⟩

theorem next (h : Emits f s new) (ht : f s = .next t) (out : List Byte) :
    f (s.withOut out) = .next (t.withOut (out ++ new)) := by
  rw [h.withOut out, ht]
  rfl

/-- The state's own stream is one of those that may stand there. -/
theorem consoleOut (h : Emits f s new) (ht : f s = .next t) : t.consoleOut = s.consoleOut ++ new :=
  congrArg State.consoleOut (Host.Outcome.next.inj (ht.symm.trans (h.next ht s.consoleOut)))

end Emits

theorem exec_emits (i : Instr) (s : State) : ∃ new, Emits (exec i) s new := by
  cases i with
  | wrc o =>
    have hbyte : (BitVec.ofNat 8 ((s.readC o).toNat % 16)).toNat < 16 := by
      rw [BitVec.toNat_ofNat]
      omega
    exact ⟨[_], Nat.le_refl 1, fun b hb => List.mem_singleton.mp hb ▸ hbyte, exec_wrc_withOut o s⟩
  | _ => exact ⟨[], .of_silent fun out => exec_withOut_of_silent _ s out nofun⟩

/-- A step emits what the instruction it runs emits, and nothing where it runs none. -/
theorem step_emits (s : State) : ∃ new, Emits step s new := by
  by_cases hrunning : s.status = .running
  · cases hi : s.decodeAt s.ip with
    | none =>
      refine ⟨[], .of_silent fun out => ?_⟩
      rw [step_of_unrecognized hrunning hi, step_of_unrecognized (s := s.withOut out) hrunning hi]
      rfl
    | some i =>
      obtain ⟨new, h⟩ := exec_emits i s
      refine ⟨new, h.length_le, h.lt, fun out => ?_⟩
      rw [step_of_decoded hrunning hi, step_of_decoded (s := s.withOut out) hrunning hi]
      exact h.withOut out
  · refine ⟨[], .of_silent fun out => ?_⟩
    rw [step_of_halted hrunning, step_of_halted (s := s.withOut out) hrunning]
    rfl

/-- Settles O50: what a step emits stands behind its own stream, as it does behind any other. -/
theorem outputIsNeverReadBack : Obligations.OutputIsNeverReadBack := by
  intro s t hstep
  obtain ⟨new, h⟩ := step_emits s
  exact ⟨new, h.consoleOut hstep, h.length_le, h.lt, h.next hstep⟩

end Sys2Proof.Machine
end

