-- ==== Sys2Proof/Proofs/ResetEvent.lean ====
section
/-! The reset state as the first state of a run, and the reset event that leads back to it (70_reset_and_hazards.md R250). -/

namespace Sys2Proof.Machine

/-- Settles O2: the four banks are empty, so nothing is out of form and every cell reads 0. -/
theorem resetSatisfiesInvariant : Obligations.ResetSatisfiesInvariant :=
  ⟨⟨wf_nil, wf_nil, wf_nil, wf_nil⟩, ⟨read_nil 0, read_nil 0, read_nil 0, read_nil 0⟩⟩

theorem view_withOut (s : State) (out : List Byte) : (s.withOut out).view = { s.view with consoleOut := out } := by
  refine view_eq (fun p => ?_) (fun _ => rfl) rfl rfl rfl rfl
  rcases p with r | ⟨b, i⟩
  · cases r <;> rfl
  · cases b <;> rfl

/-- Settles O3: the event is the reset state with the two streams put back. -/
theorem resetEventKeepsOnlyStreams : Obligations.ResetEventKeepsOnlyStreams := by
  intro s
  have happly : s.applyReset = { State.reset with consoleIn := s.consoleIn }.withOut s.consoleOut := rfl
  rw [happly, view_withOut, view_set_consoleIn]

end Sys2Proof.Machine
end

