-- ==== Sys2Proof/Proofs/Misc.lean ====
section
/-! The miscellaneous instructions (47_misc.md). -/

namespace Sys2Proof.Machine

/-! ## What each instruction computes -/

theorem exec_halt (s : State) : exec .halt s = complete [] (s.halt .haltedByHalt) := rfl

theorem exec_nop (s : State) : exec .nop s = complete [] s := rfl

theorem exec_cip (o : Operand) (s : State) : exec (.cip o) s = complete [o] (s.resultC o s.ip .cip) := rfl

/-! ## The obligation -/

/-- Settles O51: `HALT` ends its cycle halted, and the other two end theirs running. -/
theorem miscResults : Obligations.MiscResults := by
  intro o s hr
  refine ⟨⟨hasOpcode_of_number .halt _ rfl, ?halt⟩, finishes_of_complete .nop _ s _ rfl (exec_nop s) hr,
    finishes_of_resultC rfl (exec_cip o s) ⟨rfl, rfl⟩ hr⟩
  have hdone := completes_of_halted .halt s (s.halt .haltedByHalt) [] .advance (exec_halt s) nofun
  rwa [view_halt] at hdone

end Sys2Proof.Machine
end

