-- ==== Sys2Proof/Proofs/EndOfRun.lean ====
section
/-! Why a run ends (60_exceptions.md R220). Three things an instruction can do end it, and each leaves a status of its own and
keeps `IP`; every other instruction leaves the machine running. An unassigned opcode number decodes to no instruction, so the
step itself ends the run then. -/

namespace Sys2Proof.Machine

/-! ## The instructions that end a run -/

/-- The instruction ends the run with this status (60_exceptions.md R220): `HALT`, a jump taken with no target, or `ICP` without a
memory operand in second place. -/
inductive EndsRun (s : State) : Instr → HaltStatus → Prop
  | halt : EndsRun s .halt .haltedByHalt
  | jump {i : Instr} (htaken : takesJump i s) (hct : s.ct = 0) : EndsRun s i .haltedByJumpToZero
  | icp (o1 : Operand) {o2 : Operand} (ho : o2.isMem = false) : EndsRun s (.icp o1 o2) .fatalIllegalOperandKind

theorem endsRun_haltedByHalt_iff {s : State} {i : Instr} : EndsRun s i .haltedByHalt ↔ i = .halt := by
  constructor
  · rintro ⟨⟩
    rfl
  · rintro rfl
    exact .halt

theorem endsRun_haltedByJumpToZero_iff {s : State} {i : Instr} :
    EndsRun s i .haltedByJumpToZero ↔ s.ct = 0 ∧ takesJump i s := by
  constructor
  · rintro (_ | ⟨htaken, hct⟩)
    exact ⟨hct, htaken⟩
  · rintro ⟨hct, htaken⟩
    exact .jump htaken hct

theorem endsRun_fatalIllegalOperandKind_iff {s : State} {i : Instr} :
    EndsRun s i .fatalIllegalOperandKind ↔ ∃ o1 o2, i = .icp o1 o2 ∧ o2.isMem = false := by
  constructor
  · rintro (_ | _ | ⟨o1, ho⟩)
    exact ⟨o1, _, rfl, ho⟩
  · rintro ⟨o1, o2, rfl, ho⟩
    exact .icp o1 ho

theorem not_endsRun_fatalUnrecognizedOpcode {s : State} {i : Instr} : ¬ EndsRun s i .fatalUnrecognizedOpcode := nofun

theorem exec_of_takesJump {i : Instr} {s : State} (h : takesJump i s) : exec i s = completeFlow s.jump := by
  rcases h with rfl | ⟨f, hmem, hset⟩
  · exact exec_jmp s
  · rw [exec_of_mem_conditionalJumps hmem, jumpIf_of_set hset]

theorem exec_icp_of_not_mem (o1 : Operand) {o2 : Operand} (h : o2.isMem = false) (s : State) :
    exec (.icp o1 o2) s = .next (s.raiseFatal .fatalIllegalOperandKind) := by
  cases o2 with
  | reg r => exact exec_icp_reg o1 r s
  | mem b j => cases h
  | imm v => rfl

theorem ip_endCycle_of_halted {s : State} (fl : Flow) (n : Nat) (h : s.status ≠ .running) :
    (s.endCycle fl n).ip = s.ip := by
  have hstop : ¬(s.zeroSentinels.status = .running ∧ fl = .advance) := fun ⟨hrunning, _⟩ => h hrunning
  rw [State.endCycle, advanceIP_of_not_going hstop, zeroSentinels_ip]

/-- A cycle that ends with the machine halted leaves the cause and keeps `IP` (30_encoding.md R88). -/
theorem endCycle_halt (s : State) (c : HaltStatus) (hc : c ≠ .running) (fl : Flow) (n : Nat) :
    ((s.halt c).endCycle fl n).status = c ∧ ((s.halt c).endCycle fl n).ip = s.ip :=
  ⟨endCycle_status _ fl n, ip_endCycle_of_halted fl n hc⟩

/-- What ends a run leaves the status it is said to leave, and `IP` at the instruction. -/
theorem exec_of_endsRun {s : State} {i : Instr} {c : HaltStatus} (h : EndsRun s i c) :
    ∃ t, exec i s = .next t ∧ t.status = c ∧ t.ip = s.ip := by
  cases h with
  | halt => exact ⟨_, exec_halt s, endCycle_halt s .haltedByHalt nofun _ _⟩
  | jump htaken hct =>
    have hexec := exec_of_takesJump htaken
    rw [jump_of_ct_eq_zero hct] at hexec
    exact ⟨_, hexec, endCycle_halt s .haltedByJumpToZero nofun _ _⟩
  | icp o1 ho => exact ⟨_, exec_icp_of_not_mem o1 ho s, rfl, rfl⟩

/-! ## All other instructions -/

/-- If the outcome has a next state, the machine runs in it. -/
def GoesOn (x : Host.Outcome State Fault Refusal) : Prop :=
  ∀ t, x = .next t → t.status = .running

theorem goesOn_endCycle {s : State} {fl : Flow} {n : Nat} (h : s.status = .running) : GoesOn (.next (s.endCycle fl n)) := by
  rintro _ ⟨⟩
  rwa [endCycle_status]

/-- A jump procedure that is run goes on at its target, or ends the run without one (43_control_flow.md R160). -/
theorem goesOn_or_endsRun_of_takesJump {i : Instr} {s : State} (hr : s.status = .running) (h : takesJump i s) :
    GoesOn (exec i s) ∨ ∃ c, EndsRun s i c := by
  by_cases hct : s.ct = 0
  · exact .inr ⟨_, .jump h hct⟩
  · rw [exec_of_takesJump h, jump_of_ct_ne_zero hct]
    exact .inl (goesOn_endCycle hr)

theorem goesOn_or_endsRun_of_conditionalJump {i : Instr} {s : State} (hr : s.status = .running)
    (hi : ∃ f, (i, f) ∈ conditionalJumps) : GoesOn (exec i s) ∨ ∃ c, EndsRun s i c := by
  obtain ⟨f, hmem⟩ := hi
  cases hf : s.flag f with
  | true => exact goesOn_or_endsRun_of_takesJump hr (.inr ⟨f, hmem, hf⟩)
  | false =>
    rw [exec_of_mem_conditionalJumps hmem, jumpIf_of_clear hf]
    exact .inl (goesOn_endCycle hr)

/-- No instruction ends the run but those of `EndsRun`. -/
theorem goesOn_or_endsRun (i : Instr) {s : State} (hr : s.status = .running) :
    GoesOn (exec i s) ∨ ∃ c, EndsRun s i c := by
  cases i with
  | halt => exact .inr ⟨_, .halt⟩
  | icp o1 o2 =>
    cases o2 with
    | mem b j => exact .inl (goesOn_endCycle (by simpa using hr))
    | reg _ | imm _ => exact .inr ⟨_, .icp o1 rfl⟩
  | jmp => exact goesOn_or_endsRun_of_takesJump hr (.inl rfl)
  | jz | je | jl | jg | jc | ji | jse | jsf =>
    exact goesOn_or_endsRun_of_conditionalJump hr (by simp [conditionalJumps])
  | div m o1 o2 =>
    by_cases hzero : s.readC o2 = 0
    · rw [exec_div_of_zero m o1 hzero]
      exact .inl (goesOn_endCycle (by simpa using hr))
    · rw [exec_div_of_ne m o1 hzero]
      exact .inl (goesOn_endCycle (by simpa using hr))
  | call p1 p2 p3 =>
    by_cases hct : s.ct = 0
    · rw [exec_call_of_null p1 p2 p3 hct]
      exact .inl (goesOn_endCycle hr)
    · rw [exec_call_of_target p1 p2 p3 hct]
      exact .inl (goesOn_endCycle (by simpa using hr))
  | rdc o =>
    cases hin : s.consoleIn with
    | nil =>
      rw [exec_rdc_blocked o hin]
      exact .inl nofun
    | cons k ks =>
      rw [exec_rdc_waiting o hin]
      exact .inl (goesOn_endCycle (by simpa using hr))
  | _ => exact .inl (goesOn_endCycle (by simpa using hr))

/-! ## The status an instruction leaves -/

section

variable {i : Instr} {s t : State} (hr : s.status = .running) (ht : exec i s = .next t)
include hr ht

theorem endsRun_of_status_ne_running (h : t.status ≠ .running) : EndsRun s i t.status ∧ t.ip = s.ip := by
  obtain ⟨c, hends⟩ := (goesOn_or_endsRun i hr).resolve_left fun hgoes => h (hgoes t ht)
  obtain ⟨u, hu, rfl, hip⟩ := exec_of_endsRun hends
  obtain rfl : u = t := Host.Outcome.next.inj (hu.symm.trans ht)
  exact ⟨hends, hip⟩

theorem exec_status_iff (c : HaltStatus) (hc : c ≠ .running) : t.status = c ↔ EndsRun s i c := by
  constructor
  · rintro rfl
    exact (endsRun_of_status_ne_running hr ht hc).1
  · intro hends
    obtain ⟨u, hu, hstatus, -⟩ := exec_of_endsRun hends
    obtain rfl : u = t := Host.Outcome.next.inj (hu.symm.trans ht)
    exact hstatus

end

/-- Settles O33: a register is no memory operand, and cause 4 has no other reason. -/
theorem icpRegisterSourceIsFatal : Obligations.IcpRegisterSourceIsFatal := by
  refine ⟨exec_icp_reg, rfl, fun i s t hr ht hstatus => ?_⟩
  have hends : EndsRun s i .fatalIllegalOperandKind := (exec_status_iff hr ht _ (by decide)).mp hstatus
  obtain ⟨o1, o2, rfl, -⟩ := endsRun_fatalIllegalOperandKind_iff.mp hends
  rfl

/-! ## Unassigned opcode numbers -/

theorem assignedOpcodes_eq_map : assignedOpcodes = opMap.map (fun row => row.number.toNat) := by decide

/-- The opcode map has a row for each assigned number and for no other (30_encoding.md R73, R76). -/
theorem rowOfNumber_eq_none_iff (n : BitVec 9) : rowOfNumber n = none ↔ n.toNat ∉ assignedOpcodes := by
  rw [assignedOpcodes_eq_map, rowOfNumber, List.find?_eq_none, List.mem_map]
  simp [BitVec.toNat_inj]

theorem decodeWindow_eq_none_iff (w a b c : Word) : decodeWindow w a b c = none ↔ rowOfNumber (opcodeField w) = none := by
  unfold decodeWindow
  cases rowOfNumber (opcodeField w) with
  | none => exact iff_of_true rfl rfl
  | some row => exact iff_of_false nofun nofun

theorem decodeAt_eq_none_iff (s : State) (a : Word) :
    s.decodeAt a = none ↔ (opcodeField (s.code.read a)).toNat ∉ assignedOpcodes :=
  (decodeWindow_eq_none_iff _ _ _ _).trans (rowOfNumber_eq_none_iff _)

/-- Settles O17: no instruction decodes, so the step raises the fatal condition. -/
theorem unassignedOpcodeIsFatal : Obligations.UnassignedOpcodeIsFatal :=
  fun s hr hopcode => ⟨step_of_unrecognized hr ((decodeAt_eq_none_iff s s.ip).mpr hopcode), rfl⟩

/-! ## A step -/

theorem code_eq_code_iff (c d : HaltStatus) : c.code = d.code ↔ c = d := by
  cases c <;> cases d <;> decide

/-- Settles O18, by what is at `IP`: an unassigned number, whose status is 3, or an instruction, whose status its reason to end the
run gives. -/
theorem statusTellsWhyRunEnded : Obligations.StatusTellsWhyRunEnded := by
  intro s t hr hstep
  have hcode (c : HaltStatus) : t.status.code = c.code ↔ t.status = c := code_eq_code_iff t.status c
  rw [← decodeAt_eq_none_iff]
  cases hi : s.decodeAt s.ip with
  | none =>
    rw [step_of_unrecognized hr hi] at hstep
    cases hstep
    simp [HaltStatus.code]
  | some i =>
    rw [step_of_decoded hr hi] at hstep
    have hstatus (c : HaltStatus) (hc : c ≠ .running) : t.status.code = c.code ↔ EndsRun s i c :=
      (hcode c).trans (exec_status_iff hr hstep c hc)
    simp only [Option.some.injEq, exists_eq_left', reduceCtorEq]
    refine ⟨?halt, ?jump, ?opcode, ?icp, fun hne => ?ip⟩
    case halt => exact (hstatus .haltedByHalt nofun).trans endsRun_haltedByHalt_iff
    case jump => exact (hstatus .haltedByJumpToZero nofun).trans endsRun_haltedByJumpToZero_iff
    case opcode => exact (hstatus .fatalUnrecognizedOpcode nofun).trans (iff_false_intro not_endsRun_fatalUnrecognizedOpcode)
    case icp => exact (hstatus .fatalIllegalOperandKind nofun).trans endsRun_fatalIllegalOperandKind_iff
    case ip => exact (endsRun_of_status_ne_running hr hstep fun hrunning => hne ((hcode .running).mpr hrunning)).2

end Sys2Proof.Machine
end
